-- ==== Sys2Proof/Word.lean ====
section
/-! DEFINITION. The two word types of RS-CORE (00_scope.md R7): the 32-bit register word and the byte, which is at the same time a field element. -/

namespace Sys2Proof

/-- A register value, an unsigned integer 0..2^32-1 (R7). -/
abbrev Word := BitVec 32

/-- A byte; "at the same time a field element" (R7). -/
abbrev Byte := BitVec 8

/-- `zext_32(b)`: the byte as a 32-bit value with bits 31:8 zero (00_scope.md R8). -/
abbrev zext32 (b : Byte) : Word := b.setWidth 32

end Sys2Proof
end

