-- ==== Sys2Proof/Config.lean ====
section
/-! DEFINITION. The configuration record of 00_scope.md R5, its default values (used by the spec only for numeric vectors), the ROM tables as a type, and the one free value of the model. -/

namespace Sys2Proof

/-- `Cfg` (00_scope.md R5): the parameters the spec leaves open. `REGMAP` is not part of the model (20_memory.md R60). -/
structure Cfg where
  /-- `POLY`: bit i is the coefficient of x^i. -/
  poly : BitVec 9
  /-- `GEN`: the generator of the multiplicative group. -/
  gen : Byte
  /-- `POINT`: the Vandermonde evaluation point of row r, r = 0..255. -/
  point : Vector Byte 256
  /-- `LMAX`: the depth of each shard slot in bytes. -/
  lmax : Nat
  deriving DecidableEq, Repr

/-- The default `Cfg` (00_scope.md R5): POLY = 0x11D, GEN = 0x02, POINT(r) = r.
`LMAX` has no default in the spec; 65536 is a DESIGN CHOICE (unsafe, log entry 2). -/
def Cfg.default : Cfg where
  poly := 0x11D#9
  gen := 0x02#8
  point := Vector.ofFn fun r => BitVec.ofNat 8 r.val
  lmax := 65536

/-- The two ROM tables (10_state.md R21, R22). `log[j]` is `LOG[j + 1]`: `LOG[0]` does not exist. -/
structure Tables where
  log : Vector Nat 255
  exp : Vector Byte 255
  deriving DecidableEq, Repr

/-- FREE VALUE (log entry 4, 93_implementation_defined.md U3 "any value"): the byte an unwritten shard byte reads as,
a function of the reset count, the slot and the offset about which nothing is known. -/
opaque Config.freeShardByte : Nat → Nat → Nat → Byte

end Sys2Proof
end

