-- ==== Sys2Proof/Machine/Field.lean ====
section
/-! DEFINITION. The pure functions of the GF(2^8) unit (40_gf_arith.md R120 to R125, R128) and the contents of the ROM tables. -/

namespace Sys2Proof

/-- The product of a and b as polynomials over GF(2), a 15-bit value: the first loop of `PolyMul` (R128). -/
def clMul (a b : Byte) : BitVec 15 :=
  [0, 1, 2, 3, 4, 5, 6, 7].foldl
    (fun p i => if b.getLsbD i then p ^^^ (a.setWidth 15 <<< i) else p) 0

/-- Reduction of a 15-bit value modulo `POLY`, bits 14 down to 8: the second loop of `PolyMul` (R128). -/
def polyReduce (poly : BitVec 9) (p : BitVec 15) : BitVec 15 :=
  [14, 13, 12, 11, 10, 9, 8].foldl
    (fun p i => if p.getLsbD i then p ^^^ (poly.setWidth 15 <<< (i - 8)) else p) p

/-- `PolyMul(a, b)`: multiplication in GF(2^8) modulo `POLY` (R128). -/
def polyMul (poly : BitVec 9) (a b : Byte) : Byte :=
  (polyReduce poly (clMul a b)).setWidth 8

/-- `GEN^i`, the value of x at pass i of the loop of R120. -/
def Cfg.genPow (c : Cfg) : Nat → Byte
  | 0 => 1
  | i + 1 => polyMul c.poly (c.genPow i) c.gen

/-- The n values x takes from pass i on in the loop of R120, started at x. -/
def Cfg.powers (c : Cfg) : Nat → Byte → List Byte
  | 0, _ => []
  | n + 1, x => x :: c.powers n (polyMul c.poly x c.gen)

theorem Cfg.length_powers (c : Cfg) (n : Nat) (x : Byte) : (c.powers n x).length = n := by
  induction n generalizing x with
  | zero => rfl
  | succ n ih => simp [Cfg.powers, ih]

/-- The pass of the loop of R120, from pass i with value x on and for at most `fuel` passes, at which x is a:
the i that the loop stores in `LOG[a]`. -/
def Cfg.logFrom (c : Cfg) (a : Byte) : (fuel i : Nat) → (x : Byte) → Nat
  | 0, _, _ => 0
  | fuel + 1, i, x => if x = a then i else c.logFrom a fuel (i + 1) (polyMul c.poly x c.gen)

/-- The table contents of R120: `EXP[i] = GEN^i`, and `LOG` the inverse map (log entry 11). -/
def Tables.ofCfg (c : Cfg) : Tables where
  exp := ⟨(c.powers 255 1).toArray, by simp [Cfg.length_powers]⟩
  log := Vector.ofFn fun j => c.logFrom (BitVec.ofNat 8 (j.val + 1)) 255 0 1

/-- `LOG[a]` for a ≠ 0. `LOG[0]` cannot be read: the argument `a ≠ 0` is required (10_state.md R21, U4). -/
def Tables.logAt (t : Tables) (a : Byte) (h : a ≠ 0) : Nat :=
  t.log[a.toNat - 1]'(by
    have h1 := a.isLt
    have h2 : a.toNat ≠ 0 := fun e => h (by simpa using BitVec.eq_of_toNat_eq (y := 0#8) (by simpa using e))
    omega)

/-- `EXP[i mod 255]`: every read of `EXP` is at an index reduced `mod 255` (10_state.md R22). -/
def Tables.expAt (t : Tables) (i : Nat) : Byte := t.exp[i % 255]'(Nat.mod_lt _ (by decide))

/-- `GfAdd(a, b) = a xor b` (R121). -/
def gfAdd (a b : Byte) : Byte := a ^^^ b

/-- `GfMul(a, b)` (R122): 0 if either operand is 0, else `EXP[(LOG[a] + LOG[b]) mod 255]`, the sum a natural number. -/
def gfMul (t : Tables) (a b : Byte) : Byte :=
  if ha : a = 0 then 0
  else if hb : b = 0 then 0
  else t.expAt (t.logAt a ha + t.logAt b hb)

/-- `GfDiv(a, b)` (R123), `none` standing for `DivideByZero`: a = 0 is tested first.
`Int`'s `%` by 255 is the non-negative remainder that 00_scope.md R7 asks for. -/
def gfDiv (t : Tables) (a b : Byte) : Option Byte :=
  if ha : a = 0 then some 0
  else if hb : b = 0 then none
  else some (t.expAt (((t.logAt a ha : Int) - (t.logAt b hb : Int)) % 255).toNat)

/-- `GfInv(a) = GfDiv(1, a)` (R124), `none` standing for `DivideByZero`. -/
def gfInv (t : Tables) (a : Byte) : Option Byte := gfDiv t 1 a

/-- `GfPow(a, n)` as R125 writes it: n multiplications by a, starting from 1. -/
def gfPowLoop (t : Tables) (a : Byte) : Nat → Byte
  | 0 => 1
  | n + 1 => gfMul t (gfPowLoop t a n) a

/-- `GfPow(a, n)` by the closed form of R125, "which an implementation may use instead of the loop" (log entry 10):
1 for n = 0, 0 for a = 0 and n ≥ 1, else `EXP[(LOG[a] * n) mod 255]`. -/
def gfPow (t : Tables) (a : Byte) (n : Nat) : Byte :=
  if n = 0 then 1
  else if ha : a = 0 then 0
  else t.expAt (t.logAt a ha * n)

end Sys2Proof
end

