-- ==== Sys2Proof/Syntax.lean ====
section
/-! DEFINITION. The seventeen commands of RS-CORE (30_encoding.md R94), one constructor per row of the opcode table. -/

namespace Sys2Proof

/-- The field `MD`: two bits, all four values name `MAT[0..3]` (30_encoding.md R95). -/
abbrev DstId := Fin 4

/-- The fields `MA` and `MB`: three bits; 0..3 name `MAT[0..3]`, 4 names `CM`, 5..7 are reserved (R95). -/
abbrev SrcId := Fin 8

/-- The commands, with the matrix fields their format uses (30_encoding.md R90, R94). -/
inductive Instr where
  | nop
  | gfadd
  | gfmul
  | gfdiv
  | gfinv
  | gfpow
  | mnew (md : DstId)
  | mident (md : DstId)
  | mmul (md : DstId) (ma mb : SrcId)
  | msub (md : DstId) (ma : SrcId)
  | maug (md : DstId) (ma mb : SrcId)
  | minv (md : DstId) (ma : SrcId)
  | missq (ma : SrcId)
  | mbuild (md : DstId)
  | config
  | encode
  | decode
  deriving DecidableEq, Repr

end Sys2Proof
end

