-- ==== Sys2Proof/WellFormed.lean ====
section
/-! DEFINITION. Well-formedness of commands (30_encoding.md R95, R96) and of the configuration record (00_scope.md R5). -/

namespace Sys2Proof

/-- A source field is legal when it is 0..4; 5..7 are reserved (30_encoding.md R95). -/
def SrcId.legal (id : SrcId) : Bool := id.val ≤ 4

/-- A command is well formed when every source field its format uses is legal (R95, R96). -/
def Instr.wellFormed : Instr → Bool
  | .mmul _ ma mb => SrcId.legal ma && SrcId.legal mb
  | .maug _ ma mb => SrcId.legal ma && SrcId.legal mb
  | .msub _ ma => SrcId.legal ma
  | .minv _ ma => SrcId.legal ma
  | .missq ma => SrcId.legal ma
  | .nop | .gfadd | .gfmul | .gfdiv | .gfinv | .gfpow => true
  | .mnew _ | .mident _ | .mbuild _ => true
  | .config | .encode | .decode => true

/-- `POLY` has no factorisation over GF(2) into two polynomials of degree at least 1
(a factor of a degree 8 polynomial has degree at most 7, so a byte holds it). -/
def Cfg.Irreducible (c : Cfg) : Prop :=
  ∀ a b : Byte, 2 ≤ a.toNat → 2 ≤ b.toNat → clMul a b ≠ c.poly.setWidth 15

/-- The table generation of 40_gf_arith.md R120 "returns to 1 after exactly 255 steps and not earlier" (00_scope.md R5). -/
def Cfg.GenPrimitive (c : Cfg) : Prop :=
  c.genPow 255 = 1 ∧ ∀ i, 1 ≤ i → i ≤ 254 → c.genPow i ≠ 1

/-- Well-formedness of `Cfg`, the constraints of 00_scope.md R5. -/
structure Cfg.WellFormed (c : Cfg) : Prop where
  degree : c.poly.getLsbD 8 = true
  irreducible : c.Irreducible
  primitive : c.GenPrimitive
  pointsDistinct : ∀ i j : Fin 256, c.point[i] = c.point[j] → i = j
  lmaxPos : 1 ≤ c.lmax
  lmaxBound : c.lmax < 2 ^ 32

end Sys2Proof
end

