-- ==== Sys2Proof/Decode.lean ====
section
/-! DEFINITION. The command word (30_encoding.md R90), its decoder, total on every 32-bit word (R96), and its encoder. -/

namespace Sys2Proof

/-- Why a word is illegal (R96). Every one of them completes with `IllegalCommand` (60_exceptions.md R264). -/
inductive DecodeError where
  /-- `OPC` is not one of the seventeen values of R94 -/
  | unassignedOpcode
  /-- one of the bits 11:10, 15, 31:19 is 1 -/
  | reservedBit
  /-- a matrix field that the format does not use is nonzero -/
  | unusedField
  /-- `MA` or `MB`, where used, is 5, 6 or 7 -/
  | reservedMatrixId
  deriving DecidableEq, Repr

/-- The five formats of R90. -/
inductive Format where
  | z | d | a | da | dab
  deriving DecidableEq, Repr

/-- The format uses `MD` (R90). -/
def Format.usesMD : Format → Bool
  | .z => false | .d => true | .a => false | .da => true | .dab => true

/-- The format uses `MA` (R90). -/
def Format.usesMA : Format → Bool
  | .z => false | .d => false | .a => true | .da => true | .dab => true

/-- The format uses `MB` (R90). -/
def Format.usesMB : Format → Bool
  | .z => false | .d => false | .a => false | .da => false | .dab => true

/-- `OPC`, bits 7:0. -/
def fieldOPC (w : Word) : Nat := (w.extractLsb' 0 8).toNat

/-- `MD`, bits 9:8. -/
def fieldMD (w : Word) : DstId := (w.extractLsb' 8 2).toFin

/-- `MA`, bits 14:12. -/
def fieldMA (w : Word) : SrcId := (w.extractLsb' 12 3).toFin

/-- `MB`, bits 18:16. -/
def fieldMB (w : Word) : SrcId := (w.extractLsb' 16 3).toFin

/-- The reserved bits 11:10, 15 and 31:19. -/
def reservedMask : Word := 0xFFF88C00#32

/-- The opcode map of R94: the format of an assigned opcode, and its command with the fields the format uses. -/
def opcodeRow (opc : Nat) (md : DstId) (ma mb : SrcId) : Option (Format × Instr) :=
  match opc with
  | 0x00 => some (.z, .nop)
  | 0x10 => some (.z, .gfadd)
  | 0x11 => some (.z, .gfmul)
  | 0x12 => some (.z, .gfdiv)
  | 0x13 => some (.z, .gfinv)
  | 0x14 => some (.z, .gfpow)
  | 0x20 => some (.d, .mnew md)
  | 0x21 => some (.d, .mident md)
  | 0x22 => some (.dab, .mmul md ma mb)
  | 0x23 => some (.da, .msub md ma)
  | 0x24 => some (.dab, .maug md ma mb)
  | 0x25 => some (.da, .minv md ma)
  | 0x26 => some (.a, .missq ma)
  | 0x30 => some (.d, .mbuild md)
  | 0x40 => some (.z, .config)
  | 0x41 => some (.z, .encode)
  | 0x42 => some (.z, .decode)
  | _ => none

/-- The decoder: a command word is one of the legal commands or illegal, with the reason (R96). -/
def decode (w : Word) : Except DecodeError Instr :=
  match opcodeRow (fieldOPC w) (fieldMD w) (fieldMA w) (fieldMB w) with
  | none => .error .unassignedOpcode
  | some (f, i) =>
    if w &&& reservedMask ≠ 0 then .error .reservedBit
    else if (!f.usesMD && fieldMD w ≠ 0) || (!f.usesMA && fieldMA w ≠ 0) || (!f.usesMB && fieldMB w ≠ 0) then
      .error .unusedField
    else if !i.wellFormed then .error .reservedMatrixId
    else .ok i

/-- The opcode of a command (R94). -/
def Instr.opcode : Instr → Nat
  | .nop => 0x00
  | .gfadd => 0x10 | .gfmul => 0x11 | .gfdiv => 0x12 | .gfinv => 0x13 | .gfpow => 0x14
  | .mnew _ => 0x20 | .mident _ => 0x21 | .mmul _ _ _ => 0x22 | .msub _ _ => 0x23
  | .maug _ _ _ => 0x24 | .minv _ _ => 0x25 | .missq _ => 0x26
  | .mbuild _ => 0x30
  | .config => 0x40 | .encode => 0x41 | .decode => 0x42

/-- `word = OPC + MD * 2^8 + MA * 2^12 + MB * 2^16` (R90). -/
def commandWord (opc : Nat) (md : DstId) (ma mb : SrcId) : Word :=
  BitVec.ofNat 32 (opc + md.val * 2 ^ 8 + ma.val * 2 ^ 12 + mb.val * 2 ^ 16)

/-- The encoder (R90): fields that the format does not use are zero. -/
def encode (i : Instr) : Word :=
  match i with
  | .nop | .gfadd | .gfmul | .gfdiv | .gfinv | .gfpow | .config | .encode | .decode =>
    commandWord i.opcode 0 0 0
  | .mnew md | .mident md | .mbuild md => commandWord i.opcode md 0 0
  | .mmul md ma mb | .maug md ma mb => commandWord i.opcode md ma mb
  | .msub md ma | .minv md ma => commandWord i.opcode md ma 0
  | .missq ma => commandWord i.opcode 0 ma 0

/-- The instruction the decoder reads from an instruction whose bits are w, numbered as spec/opcode_table.json numbers them:
a command is one 32-bit word with no byte order (20_memory.md R66), so bit i of w is bit i of the command word;
bits from nbits on are 0. -/
def decodeTableWord (nbits w : Nat) : Option Instr :=
  match decode (BitVec.ofNat 32 (w % 2 ^ nbits)) with
  | .ok i => some i
  | .error _ => none

end Sys2Proof
end

