-- ==== Sys2Proof/Machine/State.lean ====
section
/-! DEFINITION. The state of RS-CORE (10_state.md R20) as plain data, the host's side of the port, the reasons a step can stop, and the state after reset (10_state.md R40, 70_reset_and_hazards.md R290). -/

namespace Sys2Proof.Machine

/-- A matrix value `(rows, cols, e)` (10_state.md R30): element (r, c) has linear index `r * cols + c` (00_scope.md R9). -/
structure Mat where
  rows : Nat
  cols : Nat
  e : Array Byte
  deriving DecidableEq, Repr

/-- The configured coder (00_scope.md glossary): the registers `K`, `M`, `N` (10_state.md R29) and the memory `CM` (R33). -/
structure Coder where
  k : Word
  m : Word
  n : Word
  cm : Mat
  deriving DecidableEq, Repr

/-- The written bytes of the shard memory, as (key, byte) pairs, keys strictly rising (log entry 6).
An unlisted byte holds no value (10_state.md R41). -/
abbrev Memory := List Host.Cell

/-- One operation of the host on the port (20_memory.md R62 to R65), or the reset event (70_reset_and_hazards.md R290). -/
inductive HostOp where
  /-- `ReadReg(n)` -/
  | readReg (n : Nat)
  /-- `WriteReg(n, v)`; with n = 0 (`CMD`) it starts command v -/
  | writeReg (n : Nat) (v : Word)
  /-- `ReadShard(i, o)` -/
  | readShard (i o : Nat)
  /-- `WriteShard(i, o, v)` -/
  | writeShard (i o : Nat) (v : Byte)
  /-- `ReadMat(b, x)` -/
  | readMat (b x : Nat)
  /-- `WriteMat(b, x, v)` -/
  | writeMat (b x : Nat) (v : Byte)
  /-- `ReadTbl(LOG, a)` -/
  | readLog (a : Nat)
  /-- `ReadTbl(EXP, i)` -/
  | readExp (i : Nat)
  /-- the reset event, from outside the block -/
  | reset
  deriving DecidableEq, Repr

/-- A value that a read has returned to the host (20_memory.md R68: a register, a byte, or an integer 0..254 of `LOG`). -/
inductive Reply where
  | reg (v : Word)
  | byte (v : Byte)
  | logEntry (v : Nat)
  deriving DecidableEq, Repr

/-- The state of RS-CORE and of its one host. -/
structure State where
  /-- the configuration record `Cfg` (00_scope.md R5), a parameter that no step changes (R6, log entry 1) -/
  cfg : Cfg
  /-- the ROM tables `LOG` and `EXP` (10_state.md R21, R22) -/
  rom : Tables
  /-- `CMD`: the last word written to it (R28) -/
  cmd : Word
  /-- `STATUS.BUSY` (R26) -/
  busy : Bool
  /-- `STATUS.FATAL` (R26) -/
  fatal : Bool
  /-- `ERR`: the completion code of the last command (R27) -/
  err : Word
  /-- `RES0` (R24) -/
  res0 : Word
  /-- `ARG0` (R24) -/
  arg0 : Word
  /-- `ARG1` (R24) -/
  arg1 : Word
  /-- `ARG2` (R24) -/
  arg2 : Word
  /-- `ARG3` (R24) -/
  arg3 : Word
  /-- `STATUS.CONFIGURED` with `K`, `M`, `N` and `CM`: some exactly while `CONFIGURED = 1` (R26, R29, R33, log entry 12) -/
  coder : Option Coder
  /-- `NSHARDS` (R32) -/
  nshards : Word
  /-- the matrix buffers `MAT[0..3]`, with `MROWS` and `MCOLS` (R30, R31) -/
  mats : Vector Mat 4
  /-- `LEN[0..255]` (R36) -/
  len : Vector Word 256
  /-- the shard memory `SH` (R35) -/
  sh : Memory
  /-- the model's own count of resets, the per-reset seed of the free values (log entries 4, 5) -/
  epoch : Nat
  /-- the model's own list of the host operations still to come, next first (log entry 3) -/
  host : List HostOp
  /-- the model's own list of the values the host has read, oldest first (log entry 15) -/
  replies : List Reply
  deriving DecidableEq, Repr

/-- The errors of a command (60_exceptions.md R260). -/
inductive Err where
  | divideByZero
  | dimensionMismatch
  | notSquare
  | singularMatrix
  | cannotBuildMatrix
  | invalidShardCount
  | tooFewShards
  | tooManyShards
  | emptyShard
  | incorrectShardSize
  | tooFewShardsGiven
  | illegalCommand
  | operandRange
  | badState
  deriving DecidableEq, Repr

/-- Why the machine stops with a fault. There is no reason: "There is no `fault` treatment in this table because
RS-CORE has no instruction fetch and no memory protection" (93_implementation_defined.md section 1, log entry 8). -/
inductive Fault where
  deriving DecidableEq, Repr

/-- Why a step has no meaning (93_implementation_defined.md U1, U2: `refuse`). All are raised by host operations and all are safe:
the model stops where the hardware would go on in a way the spec does not define. -/
inductive Refusal where
  /-- raised by an arm of `exec` whose command has no meaning yet. Safe. -/
  | notModelled (mnemonic : String)
  /-- a host operation other than `ReadReg(STATUS)` or reset in a state with `BUSY = 1` (U2, 70_reset_and_hazards.md R296). Safe. -/
  | hostWhileBusy
  /-- a register number that is reserved (U1, 20_memory.md R61). Safe. -/
  | reservedRegister (n : Nat)
  /-- a slot number above 255 or an offset at or above `LMAX` (U1, R61, R62). Safe. -/
  | shardLocation (i o : Nat)
  /-- a matrix id above 4, or id 4 in a write (U1, R61, R64). Safe. -/
  | reservedMatrix (b : Nat)
  /-- a linear index outside `rows * cols` (U1, R61, R64). Safe. -/
  | matrixIndex (b x : Nat)
  /-- a read of `CM` while `CONFIGURED = 0` (U1, R61). Safe. -/
  | unconfiguredCM
  /-- a host read of `LOG[0]`, which has no defined content (U1, U4, R61, 10_state.md R21, log entry 8). Safe. -/
  | logOfZero
  /-- a `LOG` index above 255 or an `EXP` index above 254 (U1, R61, R65). Safe. -/
  | tableIndex (i : Nat)
  deriving DecidableEq, Repr

/-- The three outcomes of a step of this machine. -/
abbrev Outcome := Host.Outcome State Fault Refusal

/-- The state after reset for the parameters c (10_state.md R40). The host's two lists and `epoch` are the model's own. -/
def State.resetWith (c : Cfg) : State where
  cfg := c
  rom := Tables.ofCfg c
  cmd := 0
  busy := false
  fatal := false
  err := 0
  res0 := 0
  arg0 := 0
  arg1 := 0
  arg2 := 0
  arg3 := 0
  coder := none
  nshards := 0
  mats := Vector.replicate 4 ⟨0, 0, #[]⟩
  len := Vector.replicate 256 0
  sh := []
  epoch := 0
  host := []
  replies := []

/-- The machine right after reset (R40), with the default parameters (log entry 2). -/
def State.reset : State := State.resetWith Cfg.default

end Sys2Proof.Machine
end

