-- ==== Sys2Proof/Machine/Matrix.lean ====
section
/-! DEFINITION. The pure functions of the matrix engine (41_matrix.md R150 to R157) on matrix values. -/

namespace Sys2Proof.Machine

/-- A matrix value has `rows * cols` elements (10_state.md R30). -/
abbrev Mat.wf (A : Mat) : Prop := A.e.size = A.rows * A.cols

/-- A[r][c], the element at linear index `r * cols + c` (00_scope.md R9). The rules read it only for r < rows, c < cols (log entry 17). -/
def Mat.at (A : Mat) (r c : Nat) : Byte := A.e.getD (r * A.cols + c) 0

/-- The matrix whose element (r, c) is f r c. -/
def Mat.ofFn (rows cols : Nat) (f : Nat → Nat → Byte) : Mat :=
  ⟨rows, cols, ((List.range (rows * cols)).map fun x => f (x / cols) (x % cols)).toArray⟩

/-- `XOR_{i in 0 .. n-1} f(i)`; 0x00 for n = 0 (00_scope.md R8). -/
def xorSum : Nat → (Nat → Byte) → Byte
  | 0, _ => 0
  | n + 1, f => xorSum n f ^^^ f n

/-- `MatNew(rows, cols)`: zero-filled (R150). -/
def matNew (rows cols : Nat) : Mat := ⟨rows, cols, (List.replicate (rows * cols) (0 : Byte)).toArray⟩

/-- `MatIdentity(n)` (R151). -/
def matIdentity (n : Nat) : Mat := Mat.ofFn n n fun r c => if r = c then 1 else 0

/-- `MatMul(A, B)` (R152). -/
def matMul (t : Tables) (A B : Mat) : Except Err Mat :=
  if A.cols ≠ B.rows then .error .dimensionMismatch
  else .ok (Mat.ofFn A.rows B.cols fun r c => xorSum A.cols fun i => gfMul t (A.at r i) (B.at i c))

/-- `MatSub(A, r0, r1, c0, c1)`, half-open ranges (R153). -/
def matSub (A : Mat) (r0 r1 c0 c1 : Nat) : Except Err Mat :=
  if r0 ≤ r1 ∧ r1 ≤ A.rows ∧ c0 ≤ c1 ∧ c1 ≤ A.cols then
    .ok (Mat.ofFn (r1 - r0) (c1 - c0) fun i j => A.at (r0 + i) (c0 + j))
  else .error .operandRange

/-- `MatAugment(A, B)`: A on the left, B on the right (R154). -/
def matAugment (A B : Mat) : Except Err Mat :=
  if A.rows ≠ B.rows then .error .dimensionMismatch
  else .ok (Mat.ofFn A.rows (A.cols + B.cols) fun r c => if c < A.cols then A.at r c else B.at r (c - A.cols))

/-- `MatIsSquare(A)` (R156). -/
def matIsSquare (A : Mat) : Bool := A.rows == A.cols

/-! ### The Gauss-Jordan pipeline (R157) -/

/-- Stage 2, pivot search: the least r with c ≤ r ≤ n - 1 and W[r][c] ≠ 0. -/
def findPivot (W : Mat) (n c : Nat) : Option Nat :=
  (List.range n).find? fun r => decide (c ≤ r) && W.at r c != 0

/-- Stage 3, swap: rows p and c of W exchanged. -/
def swapRows (W : Mat) (p c : Nat) : Mat :=
  Mat.ofFn W.rows W.cols fun r j => if r = c then W.at p j else if r = p then W.at c j else W.at r j

/-- Stage 4, normalise: row c of W scaled by s. -/
def scaleRow (t : Tables) (W : Mat) (c : Nat) (s : Byte) : Mat :=
  Mat.ofFn W.rows W.cols fun r j => if r = c then gfMul t s (W.at c j) else W.at r j

/-- Stage 5, eliminate: from every row r ≠ c with factor f = W[r][c] ≠ 0, f times row c is subtracted. -/
def eliminateColumn (t : Tables) (W : Mat) (c : Nat) : Mat :=
  Mat.ofFn W.rows W.cols fun r j =>
    if r ≠ c ∧ W.at r c ≠ 0 then W.at r j ^^^ gfMul t (W.at r c) (W.at c j) else W.at r j

/-- One pass of the pipeline over column c: stages 2 to 5. `GfInv` of the pivot is defined, since the pivot is nonzero. -/
def invertPass (t : Tables) (n c : Nat) (W : Mat) : Except Err Mat :=
  match findPivot W n c with
  | none => .error .singularMatrix
  | some p =>
    let V := if p ≠ c then swapRows W p c else W
    match gfInv t (V.at c c) with
    | none => .error .divideByZero
    | some s => .ok (eliminateColumn t (scaleRow t V c s) c)

/-- The passes over a list of columns, in its order. -/
def invertPasses (t : Tables) (n : Nat) : List Nat → Mat → Except Err Mat
  | [], W => .ok W
  | c :: cs, W =>
    match invertPass t n c W with
    | .error e => .error e
    | .ok W' => invertPasses t n cs W'

/-- `MatInvert(A)` (R157): augment with the identity, one pass per column ascending, extract the right half. -/
def matInvert (t : Tables) (A : Mat) : Except Err Mat := do
  if A.rows ≠ A.cols then .error .notSquare
  let n := A.rows
  let W ← matAugment A (matIdentity n)
  let X ← invertPasses t n (List.range n) W
  matSub X 0 n n (2 * n)

end Sys2Proof.Machine
end

