-- ==== Sys2Proof/Machine/Flags.lean ====
section
/-! DEFINITION. The `STATUS` register (10_state.md R26) and the completion codes (60_exceptions.md R260). There are no arithmetic condition codes. -/

namespace Sys2Proof.Machine

/-- The code of an error in `ERR` (60_exceptions.md R260). -/
def Err.code : Err → Word
  | .divideByZero => 1
  | .dimensionMismatch => 2
  | .notSquare => 3
  | .singularMatrix => 4
  | .cannotBuildMatrix => 5
  | .invalidShardCount => 6
  | .tooFewShards => 7
  | .tooManyShards => 8
  | .emptyShard => 9
  | .incorrectShardSize => 10
  | .tooFewShardsGiven => 11
  | .illegalCommand => 0x80
  | .operandRange => 0x81
  | .badState => 0x82

/-- RSDOC's categories of errors (60_exceptions.md R273). -/
inductive ErrCategory where
  /-- at construction time -/
  | configuration
  /-- per call -/
  | geometry
  /-- more erasures than parity shards -/
  | unrecoverableLoss
  /-- singularity in the inversion of `DECODE` -/
  | internalInvariant
  deriving DecidableEq, Repr

/-- The category of an error, where R273 names one; `inDecode` says that `DECODE` raised it.
The component-level failures and the interface errors have none. -/
def Err.category (inDecode : Bool) : Err → Option ErrCategory
  | .cannotBuildMatrix | .invalidShardCount => some .configuration
  | .tooFewShards | .tooManyShards | .emptyShard | .incorrectShardSize => some .geometry
  | .tooFewShardsGiven => some .unrecoverableLoss
  | .singularMatrix => if inDecode then some .internalInvariant else none
  | .divideByZero | .dimensionMismatch | .notSquare => none
  | .illegalCommand | .operandRange | .badState => none

/-- `STATUS.CONFIGURED` (10_state.md R26). -/
def State.configured (s : State) : Bool := s.coder.isSome

/-- `STATUS` as the host reads it: `BUSY` in bit 0, `CONFIGURED` in bit 1, `FATAL` in bit 2, bits 31:3 zero (R26). -/
def State.status (s : State) : Word :=
  BitVec.ofNat 32 (s.busy.toNat + s.configured.toNat * 2 + s.fatal.toNat * 4)

end Sys2Proof.Machine
end

