-- ==== Sys2Proof/Machine/Ops.lean ====
section
/-! DEFINITION. The named operations over memory, registers and matrix buffers, and the completion of a command (60_exceptions.md R262), which is this machine's way of taking an exception. -/

namespace Sys2Proof.Machine

/-! ### Shard memory -/

/-- The byte listed at a key; `none` where nothing is listed. -/
def Memory.read : Memory → Nat → Option Byte
  | [], _ => none
  | (a', v) :: m, a => if a = a' then some v else Memory.read m a

/-- Lists byte v at key a, keeping the keys strictly rising. -/
def Memory.write : Memory → Nat → Byte → Memory
  | [], a, v => [(a, v)]
  | (a', v') :: m, a, v =>
    if a < a' then (a, v) :: (a', v') :: m
    else if a = a' then (a, v) :: m
    else (a', v') :: Memory.write m a v

/-- Writes a list of bytes, first to last. -/
def Memory.writeAll (m : Memory) (ws : List (Nat × Byte)) : Memory :=
  ws.foldl (fun m w => Memory.write m w.1 w.2) m

/-- The canonical form: keys strictly rising. An unlisted byte holds no value, so no entry can equal it. -/
abbrev Memory.wf (m : Memory) : Prop := m.Pairwise fun x y => x.1 < y.1

/-- The key of `SH[i][o]` in the list (log entry 6): `LMAX < 2^32`, so keys of different locations differ. -/
def shKey (i o : Nat) : Nat := i * 2 ^ 32 + o

/-- `SH[i][o]` (10_state.md R35): the byte written there, else a free value (R41, log entry 4). -/
def State.shByte (s : State) (i o : Nat) : Byte :=
  match Memory.read s.sh (shKey i o) with
  | some v => v
  | none => Config.freeShardByte s.epoch i o

/-- `SH[i][o] <- v`. -/
def State.setShByte (s : State) (i o : Nat) (v : Byte) : State :=
  { s with sh := Memory.write s.sh (shKey i o) v }

/-! ### Registers -/

/-- `LEN[i]` as a natural number (10_state.md R36); i ≤ 255 wherever the spec reads it (log entry 17). -/
def State.lenAt (s : State) (i : Nat) : Nat :=
  match s.len[i]? with
  | some v => v.toNat
  | none => 0

/-- `LEN[i] <- v`; i ≤ 255 wherever the spec writes it. -/
def State.setLen (s : State) (i : Nat) (v : Word) : State :=
  { s with len := s.len.setIfInBounds i v }

/-- `RES0 <- v` (10_state.md R24). -/
def State.setRes0 (s : State) (v : Word) : State := { s with res0 := v }

/-- `ReadReg(n)` (20_memory.md R63, 10_state.md R38); `none` for a reserved number (20_memory.md R61). -/
def State.readReg (s : State) (n : Nat) : Option Word :=
  if n = 0x000 then some s.cmd
  else if n = 0x001 then some s.status
  else if n = 0x002 then some s.err
  else if n = 0x003 then some s.res0
  else if n = 0x004 then some s.arg0
  else if n = 0x005 then some s.arg1
  else if n = 0x006 then some s.arg2
  else if n = 0x007 then some s.arg3
  else if n = 0x008 then some (match s.coder with | some c => c.k | none => 0)
  else if n = 0x009 then some (match s.coder with | some c => c.m | none => 0)
  else if n = 0x00A then some (match s.coder with | some c => c.n | none => 0)
  else if n = 0x00B then some s.nshards
  else if n = 0x00C then some (BitVec.ofNat 32 s.cfg.lmax)
  else if h : 0x010 ≤ n ∧ n ≤ 0x013 then some (BitVec.ofNat 32 (s.mats[n - 0x010]'(by omega)).rows)
  else if h : 0x014 ≤ n ∧ n ≤ 0x017 then some (BitVec.ofNat 32 (s.mats[n - 0x014]'(by omega)).cols)
  else if h : 0x100 ≤ n ∧ n ≤ 0x1FF then some (s.len[n - 0x100]'(by omega))
  else none

/-- `WriteReg(n, v)` for n other than `CMD` (20_memory.md R63): a writable register takes all 32 bits,
a write to a read-only register is ignored (10_state.md R38), `none` for a reserved number (20_memory.md R61). -/
def State.writeReg (s : State) (n : Nat) (v : Word) : Option State :=
  if n = 0x004 then some { s with arg0 := v }
  else if n = 0x005 then some { s with arg1 := v }
  else if n = 0x006 then some { s with arg2 := v }
  else if n = 0x007 then some { s with arg3 := v }
  else if n = 0x00B then some { s with nshards := v }
  else if 0x100 ≤ n ∧ n ≤ 0x1FF then some (s.setLen (n - 0x100) v)
  else if (0x001 ≤ n ∧ n ≤ 0x003) ∨ (0x008 ≤ n ∧ n ≤ 0x00C) ∨ (0x010 ≤ n ∧ n ≤ 0x017) then some s
  else none

/-! ### Matrix buffers -/

/-- `MAT[d] <- X`: dimensions and all elements together (10_state.md R30). -/
def State.setMat (s : State) (d : DstId) (X : Mat) : State := { s with mats := s.mats.set d X }

/-- `Src(id)` (41_matrix.md R159): ids 0..3 are `MAT[id]`, id 4 is `CM` and needs `CONFIGURED = 1`, ids 5..7 are reserved (R95). -/
def State.src (s : State) (id : SrcId) : Except Err Mat :=
  if h : id.val ≤ 3 then .ok (s.mats[id.val]'(by omega))
  else if id.val = 4 then
    match s.coder with
    | some c => .ok c.cm
    | none => .error .badState
  else .error .illegalCommand

/-- `Dst(d, X)` (41_matrix.md R159): the capacity test, then the assignment. -/
def State.dst (s : State) (d : DstId) (X : Mat) : Except Err State :=
  if X.rows > 256 ∨ X.cols > 512 then .error .operandRange
  else .ok (s.setMat d X)

/-! ### Completion of a command (60_exceptions.md R262) -/

/-- `raise E`: `ERR <- code(E)`, `BUSY <- 0` and no other change (R262). -/
def State.fail (s : State) (e : Err) : State := { s with err := e.code, busy := false }

/-- A successful end: `ERR <- 0` after the last write, `BUSY <- 0` (R262). -/
def State.succeed (s : State) : State := { s with err := 0, busy := false }

/-- The completion of a command whose rule gives r: on an error the state is the one the command found, but for `ERR` and `BUSY`. -/
def State.complete (s : State) (r : Except Err State) : State :=
  match r with
  | .ok t => t.succeed
  | .error e => s.fail e

/-- The fatal lock: `FATAL <- 1` (60_exceptions.md R268). -/
def State.lock (s : State) : State := { s with fatal := true }

/-- One command (60_exceptions.md R263): while `FATAL = 1` it completes with `BadState` and no other effect (R268);
otherwise it completes as its rule says. -/
def runCommand (s : State) (r : Except Err State) : Outcome :=
  if s.fatal then .next (s.fail .badState) else .next (s.complete r)

/-- The command `DECODE`, whose `SingularMatrix` also sets `FATAL` (60_exceptions.md R262, R268). -/
def runLockingCommand (s : State) (r : Except Err State) : Outcome :=
  match r with
  | .error .singularMatrix => if s.fatal then .next (s.fail .badState) else .next (s.fail .singularMatrix).lock
  | r => runCommand s r

/-! ### The host's side -/

/-- A read returns r to the host (log entry 15). -/
def State.reply (s : State) (r : Reply) : State := { s with replies := s.replies ++ [r] }

/-- `WriteReg(CMD, w)` stores the word and sets `BUSY` before the command runs (30_encoding.md R92). -/
def State.accept (s : State) (w : Word) : State := { s with cmd := w, busy := true }

/-- The reset event (70_reset_and_hazards.md R290): every piece of state takes its reset value;
the parameters stay (00_scope.md R6) and the host goes on with its own list. -/
def State.resetEvent (s : State) : State :=
  { State.resetWith s.cfg with epoch := s.epoch + 1, host := s.host, replies := s.replies }

end Sys2Proof.Machine
end

