-- ==== Sys2Proof/Machine/Operands.lean ====
section
/-! DEFINITION. The operand forms of the commands: field elements and counts in `ARG0..ARG3` (30_encoding.md R93), matrix sources (41_matrix.md R159), the coder and the shard set (43_coder.md R220, R230). -/

namespace Sys2Proof.Machine

/-- A field-element operand is the whole register and at most 0xFF, else `OperandRange` (30_encoding.md R93, 60_exceptions.md R265). -/
def fieldElement (v : Word) : Except Err Byte :=
  if v.toNat > 0xFF then .error .operandRange else .ok (v.setWidth 8)

/-- The one source of a format A or DA command: a reserved id is illegal (60_exceptions.md R263 step 2),
then `Src` (step 3). -/
def State.source (s : State) (ma : SrcId) : Except Err Mat :=
  if SrcId.legal ma then s.src ma else .error .illegalCommand

/-- The two sources of a format DAB command: both ids are checked for legality before either is read (60_exceptions.md R263). -/
def State.sources (s : State) (ma mb : SrcId) : Except Err (Mat × Mat) :=
  if SrcId.legal ma && SrcId.legal mb then
    match s.src ma, s.src mb with
    | .ok A, .ok B => .ok (A, B)
    | .error e, _ => .error e
    | _, .error e => .error e
  else .error .illegalCommand

/-- The configured coder, else `BadState` (43_coder.md R220, R230; 60_exceptions.md R266). -/
def State.needCoder (s : State) : Except Err Coder :=
  match s.coder with
  | some c => .ok c
  | none => .error .badState

/-- The count check of `ENCODE` and `DECODE`: `NSHARDS` against `N` (43_coder.md R220, R230). -/
def State.checkCount (s : State) (n : Nat) : Except Err Unit :=
  if s.nshards.toNat < n then .error .tooFewShards
  else if s.nshards.toNat > n then .error .tooManyShards
  else .ok ()

/-- A check that raises e when b holds. -/
def raiseIf (b : Bool) (e : Err) : Except Err Unit := if b then .error e else .ok ()

end Sys2Proof.Machine
end

