-- ==== Sys2Proof/Machine/Builder.lean ====
section
/-! DEFINITION. The encoding-matrix builder (42_builder.md R190) and its command `MBUILD` (R191). -/

namespace Sys2Proof.Machine

/-- `POINT(r)` (00_scope.md R5); the rules use it for r ≤ 255 (log entry 17). -/
def pointAt (p : Vector Byte 256) (r : Nat) : Byte :=
  match p[r]? with
  | some x => x
  | none => 0

/-- The Vandermonde matrix V of R190: row r is 1, x, x^2, ..., x^(k-1) at x = `POINT(r)`. -/
def vandermonde (t : Tables) (p : Vector Byte 256) (n k : Nat) : Mat :=
  Mat.ofFn n k fun r c => gfPow t (pointAt p r) c

/-- `BuildMatrix(k, m)` (R190): V times the inverse of its own top k x k block, V on the left.
An error of the inversion is propagated like any other (log entry 18). -/
def buildMatrix (t : Tables) (p : Vector Byte 256) (k m : Nat) : Except Err Mat := do
  let n := k + m
  if n > 256 ∨ k < 1 then .error .cannotBuildMatrix
  let V := vandermonde t p n k
  let top ← matSub V 0 k 0 k
  let T ← matInvert t top
  matMul t V T

/-- `MBUILD` (R191). -/
def execMbuild (md : DstId) (s : State) : Outcome := runCommand s do
  let X ← buildMatrix s.rom s.cfg.point s.arg0.toNat s.arg1.toNat
  s.dst md X

end Sys2Proof.Machine
end

