-- ==== Sys2Proof/Machine/Coder.lean ====
section
/-! DEFINITION. The Reed-Solomon coder: `CONFIG` (43_coder.md R210, R211), `ENCODE` (R220), `DECODE` (R230). -/

namespace Sys2Proof.Machine

/-- `CONFIG` (R210): one coder per reset (R211). -/
def execConfig (s : State) : Outcome := runCommand s do
  raiseIf s.configured .badState
  let k := s.arg0.toNat
  let m := s.arg1.toNat
  raiseIf (decide (k < 1 ∨ m < 1 ∨ k + m > 256)) .invalidShardCount
  let C ← buildMatrix s.rom s.cfg.point k m
  return { s with coder := some ⟨s.arg0, s.arg1, BitVec.ofNat 32 (k + m), C⟩ }

/-- Every slot i in a list filled with L bytes `f i o`, o = 0 .. L-1, and nothing else written. -/
def State.fillSlots (s : State) (slots : List Nat) (L : Nat) (f : Nat → Nat → Byte) : State :=
  { s with sh := Memory.writeAll s.sh (slots.flatMap fun i => (List.range L).map fun o => (shKey i o, f i o)) }

/-- `LEN[i] <- v` for every slot i of a list. -/
def State.setLens (s : State) (slots : List Nat) (v : Word) : State :=
  slots.foldl (fun s i => s.setLen i v) s

/-- The byte at offset o of parity slot i = K + r: `XOR_{c in 0 .. K-1} GfMul(CM[K+r][c], SH[c][o])` (R220). -/
def State.parityByte (s : State) (c : Coder) (i o : Nat) : Byte :=
  xorSum c.k.toNat fun j => gfMul s.rom (c.cm.at i j) (s.shByte j o)

/-- The parity step of `ENCODE` and `DECODE` for the given slots: their bytes are functions of the data slots alone,
so the order of the loops is free (20_memory.md R75). -/
def State.fillParity (s : State) (c : Coder) (slots : List Nat) (L : Nat) : State :=
  s.fillSlots slots L (s.parityByte c)

/-- The rule of `ENCODE` (R220): all checks, then all writes. -/
def encodeBody (s : State) : Except Err State := do
  let c ← s.needCoder
  let n := c.n.toNat
  s.checkCount n
  raiseIf ((List.range n).any fun i => s.lenAt i == 0) .emptyShard
  let L := s.lenAt 0
  raiseIf ((List.range n).any fun i => s.lenAt i != L) .incorrectShardSize
  raiseIf (decide (L > s.cfg.lmax)) .operandRange
  return s.fillParity c ((List.range c.m.toNat).map fun r => c.k.toNat + r) L

/-- `ENCODE` (R220). -/
def execEncode (s : State) : Outcome := runCommand s (encodeBody s)

/-- P of R230: the present shards below n, ascending. -/
def State.present (s : State) (n : Nat) : List Nat := (List.range n).filter fun i => s.lenAt i != 0

/-- The absent shards among the slots a .. a + n - 1, ascending: `Dmiss` for a = 0, n = K, and the slots of `Pmiss` for a = K, n = M (R230). -/
def State.missing (s : State) (a n : Nat) : List Nat :=
  ((List.range n).map fun i => a + i).filter fun i => s.lenAt i == 0

/-- S of R230: the rows of `CM` that the selected shards correspond to. -/
def selectedRows (c : Coder) (sel : List Nat) : Mat :=
  Mat.ofFn c.k.toNat c.k.toNat fun j i => c.cm.at (sel.getD j 0) i

/-- The byte at offset o of data slot d: `XOR_{j in 0 .. K-1} GfMul(I[d][j], SH[sel[j]][o])` (R230). -/
def State.dataByte (s : State) (k : Nat) (I : Mat) (sel : List Nat) (d o : Nat) : Byte :=
  xorSum k fun j => gfMul s.rom (I.at d j) (s.shByte (sel.getD j 0) o)

/-- The data phase of `DECODE` (R230): the missing data slots are rebuilt from the first K present shards. -/
def recoverData (s : State) (c : Coder) (L : Nat) (v : Word) : Except Err State :=
  let k := c.k.toNat
  let dmiss := s.missing 0 k
  if dmiss = [] then .ok s
  else do
    let sel := (s.present c.n.toNat).take k
    let I ← matInvert s.rom (selectedRows c sel)
    return (s.fillSlots dmiss L (s.dataByte k I sel)).setLens dmiss v

/-- The rule of `DECODE` (R230): all checks and the inversion, then all writes. -/
def decodeBody (s : State) : Except Err State := do
  let c ← s.needCoder
  let n := c.n.toNat
  s.checkCount n
  let P := s.present n
  raiseIf (decide (P.length < c.k.toNat)) .tooFewShardsGiven
  let L := s.lenAt (P.getD 0 0)
  raiseIf (P.any fun i => s.lenAt i != L) .incorrectShardSize
  raiseIf (decide (L > s.cfg.lmax)) .operandRange
  let v := BitVec.ofNat 32 L
  let s1 ← recoverData s c L v
  let pmiss := s.missing c.k.toNat c.m.toNat
  return (s1.fillParity c pmiss L).setLens pmiss v

/-- `DECODE` (R230): a `SingularMatrix` also sets `FATAL` (60_exceptions.md R268). -/
def execDecode (s : State) : Outcome := runLockingCommand s (decodeBody s)

end Sys2Proof.Machine
end

