-- ==== Sys2Proof/Machine/Control.lean ====
section
/-! DEFINITION. The control unit: `NOP` (30_encoding.md R97). -/

namespace Sys2Proof.Machine

/-- `NOP` (30_encoding.md R97): `ERR <- 0` and no other change. -/
def execNop (s : State) : Outcome := runCommand s (.ok s)

end Sys2Proof.Machine
end

