-- ==== Sys2Proof/Machine/FieldUnit.lean ====
section
/-! DEFINITION. The commands of the GF(2^8) unit (40_gf_arith.md R121 to R125). -/

namespace Sys2Proof.Machine

/-- A field result that may be `DivideByZero` (40_gf_arith.md R123, R124). -/
def quotient (q : Option Byte) : Except Err Byte :=
  match q with
  | some v => .ok v
  | none => .error .divideByZero

/-- `GFADD` (R121). -/
def execGfadd (s : State) : Outcome := runCommand s do
  let a ← fieldElement s.arg0
  let b ← fieldElement s.arg1
  return s.setRes0 (zext32 (gfAdd a b))

/-- `GFMUL` (R122). -/
def execGfmul (s : State) : Outcome := runCommand s do
  let a ← fieldElement s.arg0
  let b ← fieldElement s.arg1
  return s.setRes0 (zext32 (gfMul s.rom a b))

/-- `GFDIV` (R123). -/
def execGfdiv (s : State) : Outcome := runCommand s do
  let a ← fieldElement s.arg0
  let b ← fieldElement s.arg1
  let q ← quotient (gfDiv s.rom a b)
  return s.setRes0 (zext32 q)

/-- `GFINV` (R124); `ARG1` is ignored. -/
def execGfinv (s : State) : Outcome := runCommand s do
  let a ← fieldElement s.arg0
  let q ← quotient (gfInv s.rom a)
  return s.setRes0 (zext32 q)

/-- `GFPOW` (R125): the exponent is the whole of `ARG1`. -/
def execGfpow (s : State) : Outcome := runCommand s do
  let a ← fieldElement s.arg0
  return s.setRes0 (zext32 (gfPow s.rom a s.arg1.toNat))

end Sys2Proof.Machine
end

