-- ==== Sys2Proof/Machine/MatrixUnit.lean ====
section
/-! DEFINITION. The commands of the matrix engine (41_matrix.md R150 to R156). Every one reads its sources, computes the whole result and only then replaces the destination (20_memory.md R74). -/

namespace Sys2Proof.Machine

/-- `MNEW` (R150). -/
def execMnew (md : DstId) (s : State) : Outcome := runCommand s do
  raiseIf (decide (s.arg0.toNat > 256 ∨ s.arg1.toNat > 512)) .operandRange
  s.dst md (matNew s.arg0.toNat s.arg1.toNat)

/-- `MIDENT` (R151). -/
def execMident (md : DstId) (s : State) : Outcome := runCommand s do
  raiseIf (decide (s.arg0.toNat > 256)) .operandRange
  s.dst md (matIdentity s.arg0.toNat)

/-- `MMUL` (R152). -/
def execMmul (md : DstId) (ma mb : SrcId) (s : State) : Outcome := runCommand s do
  let AB ← s.sources ma mb
  let X ← matMul s.rom AB.1 AB.2
  s.dst md X

/-- `MSUB` (R153). -/
def execMsub (md : DstId) (ma : SrcId) (s : State) : Outcome := runCommand s do
  let A ← s.source ma
  let X ← matSub A s.arg0.toNat s.arg1.toNat s.arg2.toNat s.arg3.toNat
  s.dst md X

/-- `MAUG` (R154). -/
def execMaug (md : DstId) (ma mb : SrcId) (s : State) : Outcome := runCommand s do
  let AB ← s.sources ma mb
  let X ← matAugment AB.1 AB.2
  s.dst md X

/-- `MINV` (R155): never sets `FATAL`. -/
def execMinv (md : DstId) (ma : SrcId) (s : State) : Outcome := runCommand s do
  let A ← s.source ma
  let X ← matInvert s.rom A
  s.dst md X

/-- `MISSQ` (R156): `RES0` bit 0 is the result, bits 31:1 zero. -/
def execMissq (ma : SrcId) (s : State) : Outcome := runCommand s do
  let A ← s.source ma
  return s.setRes0 (if matIsSquare A then 1 else 0)

end Sys2Proof.Machine
end

