-- ==== Sys2Proof/Machine/Dispatch.lean ====
section
/-! DEFINITION. One arm per command (30_encoding.md R94). -/

namespace Sys2Proof.Machine

def exec (i : Instr) (s : State) : Host.Outcome State Fault Refusal :=
  match i with
  | .nop => Sys2Proof.Machine.execNop s
  | .gfadd => Sys2Proof.Machine.execGfadd s
  | .gfmul => Sys2Proof.Machine.execGfmul s
  | .gfdiv => Sys2Proof.Machine.execGfdiv s
  | .gfinv => Sys2Proof.Machine.execGfinv s
  | .gfpow => Sys2Proof.Machine.execGfpow s
  | .mnew md => Sys2Proof.Machine.execMnew md s
  | .mident md => Sys2Proof.Machine.execMident md s
  | .mmul md ma mb => Sys2Proof.Machine.execMmul md ma mb s
  | .msub md ma => Sys2Proof.Machine.execMsub md ma s
  | .maug md ma mb => Sys2Proof.Machine.execMaug md ma mb s
  | .minv md ma => Sys2Proof.Machine.execMinv md ma s
  | .missq ma => Sys2Proof.Machine.execMissq ma s
  | .mbuild md => Sys2Proof.Machine.execMbuild md s
  | .config => Sys2Proof.Machine.execConfig s
  | .encode => Sys2Proof.Machine.execEncode s
  | .decode => Sys2Proof.Machine.execDecode s

end Sys2Proof.Machine
end

