-- ==== Sys2Proof/Machine/HostPort.lean ====
section
/-! DEFINITION. The host operations (20_memory.md R62 to R65), the start of a command (30_encoding.md R92) and the reset event (70_reset_and_hazards.md R290). -/

namespace Sys2Proof.Machine

/-- An illegal word completes with `IllegalCommand`; while `FATAL = 1` with `BadState` (60_exceptions.md R263, R264, R268). -/
def illegalCommand (s : State) : Outcome := runCommand s (.error .illegalCommand)

/-- The start of command w (30_encoding.md R92): the word is stored in `CMD`, `BUSY` becomes 1, the command is decoded and executed. -/
def startCommand (s : State) (w : Word) : Outcome :=
  match decode w with
  | .ok i => exec i (s.accept w)
  | .error _ => illegalCommand (s.accept w)

/-- `ReadReg(n)` (20_memory.md R63). -/
def hostReadReg (s : State) (n : Nat) : Outcome :=
  match s.readReg n with
  | some v => .next (s.reply (.reg v))
  | none => .refused (.reservedRegister n)

/-- `WriteReg(n, v)` (20_memory.md R63). -/
def hostWriteReg (s : State) (n : Nat) (v : Word) : Outcome :=
  if n = 0x000 then startCommand s v
  else match s.writeReg n v with
    | some t => .next t
    | none => .refused (.reservedRegister n)

/-- A location of the shard memory exists (20_memory.md R62): 0 ≤ i ≤ 255 and 0 ≤ o < LMAX. -/
abbrev State.shardExists (s : State) (i o : Nat) : Prop := i ≤ 255 ∧ o < s.cfg.lmax

/-- `ReadShard(i, o)` (R62). -/
def hostReadShard (s : State) (i o : Nat) : Outcome :=
  if s.shardExists i o then .next (s.reply (.byte (s.shByte i o)))
  else .refused (.shardLocation i o)

/-- `WriteShard(i, o, v)` (R62): `LEN[i]` neither read nor changed. -/
def hostWriteShard (s : State) (i o : Nat) (v : Byte) : Outcome :=
  if s.shardExists i o then .next (s.setShByte i o v)
  else .refused (.shardLocation i o)

/-- `ReadMat(b, x)` (R64): b = 0..3 always, b = 4 while `CONFIGURED = 1`, x < rows * cols. -/
def hostReadMat (s : State) (b x : Nat) : Outcome :=
  if h : b ≤ 4 then
    match s.src ⟨b, by omega⟩ with
    | .ok A => if x < A.rows * A.cols then .next (s.reply (.byte (A.e.getD x 0))) else .refused (.matrixIndex b x)
    | .error _ => .refused .unconfiguredCM
  else .refused (.reservedMatrix b)

/-- `WriteMat(b, x, v)` (R64): b = 0..3 only, x < rows * cols, dimensions never changed. -/
def hostWriteMat (s : State) (b x : Nat) (v : Byte) : Outcome :=
  if h : b < 4 then
    let A := s.mats[b]
    if x < A.rows * A.cols then .next (s.setMat ⟨b, h⟩ { A with e := A.e.setIfInBounds x v })
    else .refused (.matrixIndex b x)
  else .refused (.reservedMatrix b)

/-- `ReadTbl(LOG, a)` (R65): a = 1..255; `LOG[0]` is unreadable (10_state.md R21; R61, U1, U4: `refuse`, log entry 8). -/
def hostReadLog (s : State) (a : Nat) : Outcome :=
  if a = 0 then .refused .logOfZero
  else if h : a ≤ 255 then .next (s.reply (.logEntry (s.rom.log[a - 1]'(by omega))))
  else .refused (.tableIndex a)

/-- `ReadTbl(EXP, i)` (R65): i = 0..254. -/
def hostReadExp (s : State) (i : Nat) : Outcome :=
  if h : i < 255 then .next (s.reply (.byte s.rom.exp[i])) else .refused (.tableIndex i)

/-- An operation that the host may use only while `BUSY = 0` (R62 to R65; 70_reset_and_hazards.md R296). -/
def whenIdle (s : State) (r : Outcome) : Outcome := if s.busy then .refused .hostWhileBusy else r

/-- One host operation. `ReadReg(STATUS)` is allowed at any time (R63), and reset may occur in any state (70_reset_and_hazards.md R290). -/
def hostStep (op : HostOp) (s : State) : Outcome :=
  match op with
  | .readReg n => if n = 0x001 then hostReadReg s n else whenIdle s (hostReadReg s n)
  | .writeReg n v => whenIdle s (hostWriteReg s n v)
  | .readShard i o => whenIdle s (hostReadShard s i o)
  | .writeShard i o v => whenIdle s (hostWriteShard s i o v)
  | .readMat b x => whenIdle s (hostReadMat s b x)
  | .writeMat b x v => whenIdle s (hostWriteMat s b x v)
  | .readLog a => whenIdle s (hostReadLog s a)
  | .readExp i => whenIdle s (hostReadExp s i)
  | .reset => .next s.resetEvent

/-- The next operation of the host is taken from its list and performed; with an empty list the block is idle
and "simply holds its state" (60_exceptions.md R272, log entry 16). -/
def runNext (s : State) : Outcome :=
  match s.host with
  | [] => .next s
  | op :: rest => hostStep op { s with host := rest }

/-- s with a host write of w to `CMD` as the next host operation, the block idle. -/
def State.issue (s : State) (w : Word) : State :=
  { s with busy := false, host := .writeReg 0x000 w :: s.host }

end Sys2Proof.Machine
end

