-- ==== Sys2Proof/Machine/Step.lean ====
section
/-! DEFINITION. One step of the machine: one operation of the host (20_memory.md R70, 30_encoding.md R99), a command being one indivisible step (R92). -/

namespace Sys2Proof.Machine

/-- One step (20_memory.md R70). -/
def step (s : State) : Host.Outcome State Fault Refusal := runNext s

/-- s with the host about to write the command word w (bits from nbits on zero) to `CMD` (log entry 3). -/
def State.withFetchWord (s : State) (nbits w : Nat) : State := s.issue (BitVec.ofNat 32 (w % 2 ^ nbits))

end Sys2Proof.Machine
end

