-- ==== Sys2Proof/Safety.lean ====
section
/-! DEFINITION. What a safe run and a good state are, in the terms the statements use: the invariant of the machine, the good final state (70_reset_and_hazards.md R293), and illegal words in the spec's own words (30_encoding.md R96). -/

namespace Sys2Proof.Machine

/-- The values `ERR` may hold: 0, 1..11, 0x80..0x82 (60_exceptions.md R260). -/
def legalCodes : List Word := [0, 1, 2, 3, 4, 5, 6, 7, 8, 9, 10, 11, 0x80, 0x81, 0x82]

/-- A configured coder as `CONFIG` leaves it (10_state.md R29, R33; 43_coder.md R210). -/
structure Coder.Ok (t : Tables) (p : Vector Byte 256) (c : Coder) : Prop where
  kPos : 1 ≤ c.k.toNat
  mPos : 1 ≤ c.m.toNat
  total : c.k.toNat + c.m.toNat ≤ 256
  sum : c.n.toNat = c.k.toNat + c.m.toNat
  built : buildMatrix t p c.k.toNat c.m.toNat = .ok c.cm

/-- The invariant of the machine: what every step keeps and reset establishes. -/
structure State.Inv (s : State) : Prop where
  /-- the parameters are those of an RS-CORE (00_scope.md R5) -/
  cfgOk : s.cfg.WellFormed
  /-- the ROM holds the tables of the parameters (10_state.md R23) -/
  romOk : s.rom = Tables.ofCfg s.cfg
  /-- no command is running between steps (70_reset_and_hazards.md R296) -/
  idle : s.busy = false
  /-- every buffer holds `rows * cols` bytes within its capacity (10_state.md R30) -/
  matsOk : ∀ b : Fin 4, s.mats[b].wf ∧ s.mats[b].rows ≤ 256 ∧ s.mats[b].cols ≤ 512
  /-- the coder is what `CONFIG` built (10_state.md R34) -/
  coderOk : ∀ c, s.coder = some c → c.Ok s.rom s.cfg.point
  /-- the shard memory is in canonical form -/
  shOk : Memory.wf s.sh
  /-- only bytes that exist are written (10_state.md R35) -/
  shRange : ∀ w ∈ s.sh, w.1 / 2 ^ 32 ≤ 255 ∧ w.1 % 2 ^ 32 < s.cfg.lmax
  /-- `ERR` holds a completion code (60_exceptions.md R260) -/
  errOk : s.err ∈ legalCodes
  /-- `RES0` holds a byte, bits 31:8 zero (10_state.md R38) -/
  res0Ok : s.res0.toNat ≤ 0xFF

/-- A good state in the sense of 70_reset_and_hazards.md R293: `FATAL = 0`. `ERR` may hold any code. -/
def State.good (s : State) : Bool := !s.fatal

/-- A run is safe when every state it reaches is good and meets the invariant. -/
def State.Safe (s : State) : Prop :=
  ∀ n t, Host.Core.run Sys2Proof.core n s = .next t → State.Inv t ∧ State.good t = true

/-! ### Illegal words, in the words of 30_encoding.md R96 -/

/-- The opcodes of each format (30_encoding.md R94). -/
def opcodesZ : List Nat := [0x00, 0x10, 0x11, 0x12, 0x13, 0x14, 0x40, 0x41, 0x42]
/-- Format D (30_encoding.md R94). -/
def opcodesD : List Nat := [0x20, 0x21, 0x30]
/-- Format A (30_encoding.md R94). -/
def opcodesA : List Nat := [0x26]
/-- Format DA (30_encoding.md R94). -/
def opcodesDA : List Nat := [0x23, 0x25]
/-- Format DAB (30_encoding.md R94). -/
def opcodesDAB : List Nat := [0x22, 0x24]

/-- R96, written on the number w with the fields of R90 as quotients and remainders. -/
def IllegalWord (w : Word) : Prop :=
  let opc := w.toNat % 2 ^ 8
  let md := w.toNat / 2 ^ 8 % 2 ^ 2
  let ma := w.toNat / 2 ^ 12 % 2 ^ 3
  let mb := w.toNat / 2 ^ 16 % 2 ^ 3
  let useD := opc ∈ opcodesD ++ opcodesDA ++ opcodesDAB
  let useA := opc ∈ opcodesA ++ opcodesDA ++ opcodesDAB
  let useB := opc ∈ opcodesDAB
  opc ∉ opcodesZ ++ opcodesD ++ opcodesA ++ opcodesDA ++ opcodesDAB
  ∨ w.getLsbD 10 = true ∨ w.getLsbD 11 = true ∨ w.getLsbD 15 = true ∨ (∃ i, 19 ≤ i ∧ i ≤ 31 ∧ w.getLsbD i = true)
  ∨ (¬ useD ∧ md ≠ 0) ∨ (¬ useA ∧ ma ≠ 0) ∨ (¬ useB ∧ mb ≠ 0)
  ∨ (useA ∧ 5 ≤ ma) ∨ (useB ∧ 5 ≤ mb)

end Sys2Proof.Machine
end

