-- ==== Sys2Proof/Certificates/Slice0/Obligations.lean ====
section
/-! DEFINITION. The statements for the provers. Each docstring names the rule of spec/ it formalises. -/

namespace Sys2Proof.Machine

/-- Source field id names the matrix A in s (30_encoding.md R95): a buffer, or `CM` of a configured coder. -/
def SourceIs (s : State) (id : SrcId) (A : Mat) : Prop :=
  (∃ b : Fin 4, id.val = b.val ∧ A = s.mats[b]) ∨ (id.val = 4 ∧ ∃ c, s.coder = some c ∧ A = c.cm)

/-- X is a two-sided inverse of A, both products being the identity (41_matrix.md R158). -/
def IsInverse (t : Tables) (A X : Mat) : Prop :=
  X.wf ∧ X.rows = A.rows ∧ X.cols = A.cols ∧
    matMul t A X = .ok (matIdentity A.rows) ∧ matMul t X A = .ok (matIdentity A.rows)

/-- The ROM holds the tables of well-formed parameters (00_scope.md R5, 10_state.md R23). -/
def State.romOfCfg (s : State) : Prop := s.cfg.WellFormed ∧ s.rom = Tables.ofCfg s.cfg

/-- The coder c is configured in s and its counts are those `CONFIG` admits: K, M ≥ 1, N = K + M ≤ 256 (10_state.md R29). -/
def State.hasCoder (s : State) (c : Coder) : Prop :=
  s.coder = some c ∧ 1 ≤ c.k.toNat ∧ 1 ≤ c.m.toNat ∧ c.n.toNat = c.k.toNat + c.m.toNat ∧ c.n.toNat ≤ 256

/-- All N shards are present with the length L, a length a slot can hold (43_coder.md R220). -/
def State.fullSet (s : State) (c : Coder) (L : Nat) : Prop :=
  s.nshards.toNat = c.n.toNat ∧ (∀ i < c.n.toNat, s.lenAt i = L) ∧ 1 ≤ L ∧ L ≤ s.cfg.lmax ∧ s.cfg.lmax < 2 ^ 32

/-- At least K shards are present and all present shards have the length L, a length a slot can hold (43_coder.md R230). -/
def State.partialSet (s : State) (c : Coder) (L : Nat) : Prop :=
  s.nshards.toNat = c.n.toNat ∧ (∀ i < c.n.toNat, s.lenAt i = 0 ∨ s.lenAt i = L) ∧
    c.k.toNat ≤ ((List.range c.n.toNat).filter fun i => decide (s.lenAt i ≠ 0)).length ∧
    1 ≤ L ∧ L ≤ s.cfg.lmax ∧ s.cfg.lmax < 2 ^ 32

/-- The byte of shard i at offset o in the code word of the data bytes d: row i of `CM` times the column d (43_coder.md R222). -/
def codeByte (t : Tables) (c : Coder) (d : Nat → Nat → Byte) (i o : Nat) : Byte :=
  xorSum c.k.toNat fun j => gfMul t (c.cm.at i j) (d j o)

/-- The shard length L of `DECODE`: the length of the first present slot below N (43_coder.md R230). -/
def State.decodeLen (s : State) (c : Coder) : Nat := s.lenAt ((s.present c.n.toNat).getD 0 0)

/-- Slot i is one that `DECODE` fills: an absent data slot, or an absent parity slot (43_coder.md R230). -/
def State.decodeFills (s : State) (c : Coder) (i : Nat) : Prop :=
  i ∈ s.missing 0 c.k.toNat ∨ i ∈ s.missing c.k.toNat c.m.toNat

/-- Register n holds v in s: the table of 10_state.md R38, row by row; `K`, `M`, `N` are 0 while `CONFIGURED = 0` (R29). -/
def State.RegHolds (s : State) (n : Nat) (v : Word) : Prop :=
  (n = 0x000 ∧ v = s.cmd) ∨ (n = 0x001 ∧ v = s.status) ∨ (n = 0x002 ∧ v = s.err) ∨ (n = 0x003 ∧ v = s.res0) ∨
  (n = 0x004 ∧ v = s.arg0) ∨ (n = 0x005 ∧ v = s.arg1) ∨ (n = 0x006 ∧ v = s.arg2) ∨ (n = 0x007 ∧ v = s.arg3) ∨
  (∃ c, s.coder = some c ∧ ((n = 0x008 ∧ v = c.k) ∨ (n = 0x009 ∧ v = c.m) ∨ (n = 0x00A ∧ v = c.n))) ∨
  (s.coder = none ∧ 0x008 ≤ n ∧ n ≤ 0x00A ∧ v = 0) ∨
  (n = 0x00B ∧ v = s.nshards) ∨ (n = 0x00C ∧ v = BitVec.ofNat 32 s.cfg.lmax) ∨
  (∃ b : Fin 4, (n = 0x010 + b.val ∧ v = BitVec.ofNat 32 s.mats[b].rows) ∨ (n = 0x014 + b.val ∧ v = BitVec.ofNat 32 s.mats[b].cols)) ∨
  (∃ i : Fin 256, n = 0x100 + i.val ∧ v = s.len[i])

/-- The host operation op is a read that returns r in s (20_memory.md R62 to R65): a register, a shard byte, the matrix element in row
x div cols and column x mod cols, a table entry. -/
def State.ReadGives (s : State) (op : HostOp) (r : Reply) : Prop :=
  match op with
  | .readReg n => ∃ v, s.RegHolds n v ∧ r = .reg v
  | .readShard i o => i ≤ 255 ∧ o < s.cfg.lmax ∧ r = .byte (s.shByte i o)
  | .readMat b x => ∃ (id : SrcId) (A : Mat), id.val = b ∧ SourceIs s id A ∧ x < A.rows * A.cols ∧ r = .byte (A.at (x / A.cols) (x % A.cols))
  | .readLog a => 1 ≤ a ∧ ∃ v, s.rom.log[a - 1]? = some v ∧ r = .logEntry v
  | .readExp i => ∃ v, s.rom.exp[i]? = some v ∧ r = .byte v
  | .writeReg _ _ | .writeShard _ _ _ | .writeMat _ _ _ | .reset => False

/-- The next host operation of s is op, and rest is what follows it. -/
def State.next (s : State) (op : HostOp) (rest : List HostOp) : Prop := s.host = op :: rest

end Sys2Proof.Machine

open Sys2Proof Sys2Proof.Machine

/-! ### Encoding and the start of a command -/

/-- Decoding the encoded word of a well-formed command gives the command back (30_encoding.md R90, R94). -/
def Obligations.DecodeEncodeRoundTrip : Prop :=
  ∀ i : Instr, i.wellFormed = true → Sys2Proof.decode (Sys2Proof.encode i) = .ok i

/-- A word the decoder accepts is the encoded word of the command it gives, and that command is well formed (30_encoding.md R90, R96). -/
def Obligations.AcceptedWordIsItsEncoding : Prop :=
  ∀ (w : Word) (i : Instr), Sys2Proof.decode w = .ok i → i.wellFormed = true ∧ Sys2Proof.encode i = w

/-- 30_encoding.md R96: the decoder rejects exactly the illegal words, so that every 32-bit word is a legal command or illegal. -/
def Obligations.RejectedWordsAreTheIllegalOnes : Prop :=
  ∀ w : Word, ((∃ e, Sys2Proof.decode w = .error e) ↔ IllegalWord w) ∧
    ((∃ i, Sys2Proof.decode w = .ok i) ∨ ∃ e, Sys2Proof.decode w = .error e)

/-- Words of 95_test_vectors.md 2.7 decode to their commands. -/
def Obligations.PrintedWordsDecode : Prop :=
  Sys2Proof.decode 0x00000000#32 = .ok .nop ∧ Sys2Proof.decode 0x00000014#32 = .ok .gfpow ∧
  Sys2Proof.decode 0x00000320#32 = .ok (.mnew 3) ∧ Sys2Proof.decode 0x00010222#32 = .ok (.mmul 2 0 1) ∧
  Sys2Proof.decode 0x00032124#32 = .ok (.maug 1 2 3) ∧ Sys2Proof.decode 0x00004023#32 = .ok (.msub 0 4) ∧
  Sys2Proof.decode 0x00003026#32 = .ok (.missq 3) ∧ Sys2Proof.decode 0x00000130#32 = .ok (.mbuild 1) ∧
  Sys2Proof.decode 0x00000042#32 = .ok .decode

/-- 30_encoding.md R92: a host write of a legal word to `CMD` stores the word, sets `BUSY` and executes the decoded command. -/
def Obligations.StepRunsTheDecodedCommand : Prop :=
  ∀ (s : State) (w : Word) (i : Instr) (rest : List HostOp),
    s.busy = false → s.next (.writeReg 0 w) rest → Sys2Proof.decode w = .ok i →
    step s = exec i { s with host := rest, cmd := w, busy := true }

/-- 30_encoding.md R92, 60_exceptions.md R260: in every state, every word written to `CMD` completes in one step,
with `BUSY = 0`, the word in `CMD` and one of the fifteen completion codes in `ERR`. -/
def Obligations.EveryCommandWordCompletes : Prop :=
  ∀ (s : State) (w : Word) (rest : List HostOp),
    s.busy = false → s.next (.writeReg 0 w) rest →
    ∃ t, step s = .next t ∧ t.busy = false ∧ t.cmd = w ∧ t.host = rest ∧ t.replies = s.replies ∧
      t.err ∈ [0, 1, 2, 3, 4, 5, 6, 7, 8, 9, 10, 11, 0x80, 0x81, 0x82]

/-- 60_exceptions.md R264: an illegal word completes with `IllegalCommand`, nothing but `ERR` (and `CMD`, which takes the word) changes. -/
def Obligations.IllegalWordCompletes : Prop :=
  ∀ (s : State) (w : Word) (rest : List HostOp),
    s.busy = false → s.fatal = false → s.next (.writeReg 0 w) rest → IllegalWord w →
    step s = .next { s with host := rest, cmd := w, err := 0x80 }

/-- 60_exceptions.md R268: while `FATAL = 1` every word, legal or not, completes with `BadState` and no other effect. -/
def Obligations.FatalLockRefusesEveryWord : Prop :=
  ∀ (s : State) (w : Word) (rest : List HostOp),
    s.busy = false → s.fatal = true → s.next (.writeReg 0 w) rest →
    step s = .next { s with host := rest, cmd := w, err := 0x82 }

/-! ### Completion and frames -/

/-- 60_exceptions.md R262: an error completion changes `ERR` and `BUSY` and nothing else, but for `FATAL` with `SingularMatrix` in `DECODE`. -/
def Obligations.ErrorCompletionChangesNothingElse : Prop :=
  ∀ (i : Instr) (s t : State), exec i s = .next t → t.busy = false ∧
    (t.err ≠ 0 → t = { s with err := t.err, busy := false } ∨
      (i = .decode ∧ t = { s with err := 4, busy := false, fatal := true }))

/-- The frame of every command (10_state.md R24, R27, R29, R30, R34, R36; 41_matrix.md R159; 43_coder.md R210, R220, R230):
what each may change, everything else staying as it was. `ENCODE` writes only the bytes of the parity slots K + r, r < M, below offset `LEN[0]`;
`DECODE` only the bytes of the slots it fills, below the length of the first present slot, and the lengths of those slots;
it sets `FATAL` only with `SingularMatrix`. -/
def Obligations.CommandsChangeOnlyTheirDestination : Prop :=
  ∀ (i : Instr) (s t : State), exec i s = .next t →
    match i with
    | .nop => t = { s with err := t.err, busy := false }
    | .gfadd | .gfmul | .gfdiv | .gfinv | .gfpow | .missq _ =>
      t = { s with res0 := t.res0, err := t.err, busy := false }
    | .mnew md | .mident md | .mmul md _ _ | .msub md _ | .maug md _ _ | .minv md _ | .mbuild md =>
      t = { s with mats := s.mats.set md.val t.mats[md], err := t.err, busy := false }
    | .config => t = { s with coder := t.coder, err := t.err, busy := false }
    | .encode => t = { s with sh := t.sh, err := t.err, busy := false } ∧
      ∀ a, (∀ c r o, s.coder = some c → r < c.m.toNat → o < s.lenAt 0 → a ≠ shKey (c.k.toNat + r) o) →
        Memory.read t.sh a = Memory.read s.sh a
    | .decode => t = { s with sh := t.sh, len := t.len, fatal := t.fatal, err := t.err, busy := false } ∧
      (t.fatal = s.fatal ∨ (t.fatal = true ∧ t.err = 4 ∧ t.sh = s.sh ∧ t.len = s.len)) ∧
      (∀ a, (∀ c i o, s.coder = some c → s.decodeFills c i → o < s.decodeLen c → a ≠ shKey i o) →
        Memory.read t.sh a = Memory.read s.sh a) ∧
      ∀ i : Fin 256, (∀ c, s.coder = some c → ¬ s.decodeFills c i.val) → t.len[i] = s.len[i]

/-- 60_exceptions.md R263, R266: a command that names `CM` as a source while `CONFIGURED = 0` completes with `BadState`,
before any check of its own. -/
def Obligations.UnconfiguredSourceIsBadState : Prop :=
  ∀ (s : State) (md : DstId) (id : SrcId), s.fatal = false → s.coder = none → id.val ≤ 4 →
    ∀ i ∈ [Instr.mmul md 4 id, .mmul md id 4, .maug md 4 id, .maug md id 4, .msub md 4, .minv md 4, .missq 4],
      exec i s = .next { s with err := 0x82, busy := false }

/-! ### Reset -/

/-- 10_state.md R40: the host reads every register at its reset value, the buffers are 0 x 0, there is no coding matrix,
the tables hold their contents and no byte of `SH` has a value; for all parameters.
That a reserved register number (R38, 20_memory.md R61) reads as nothing is the model's reading, log entry 7. -/
def Obligations.ResetLeavesTheTable : Prop :=
  ∀ c : Cfg,
    (∀ n, (State.resetWith c).readReg n =
      if n = 0x00C then some (BitVec.ofNat 32 c.lmax)
      else if n ≤ 0x00B ∨ (0x010 ≤ n ∧ n ≤ 0x017) ∨ (0x100 ≤ n ∧ n ≤ 0x1FF) then some 0
      else none) ∧
    (∀ b : Fin 4, (State.resetWith c).mats[b] = ⟨0, 0, #[]⟩) ∧ (State.resetWith c).coder = none ∧
    (State.resetWith c).rom = Tables.ofCfg c ∧ (∀ a, Memory.read (State.resetWith c).sh a = none)

/-- 70_reset_and_hazards.md R290: reset may occur in any state and leaves every piece of state at its reset value;
the host's own lists and the parameters stay, and the free values of unwritten bytes are those of a new epoch (log entries 3, 4, 5). -/
def Obligations.ResetFromAnyState : Prop :=
  ∀ (s : State) (rest : List HostOp), s.next .reset rest →
    step s = .next { State.resetWith s.cfg with epoch := s.epoch + 1, host := rest, replies := s.replies }

/-- 70_reset_and_hazards.md R290, 10_state.md R34: only reset clears `FATAL` or `CONFIGURED`; until then K, M, N and `CM` never change. -/
def Obligations.OnlyResetUnlocksOrUnconfigures : Prop :=
  ∀ s t : State, step s = .next t → (∀ rest, s.host ≠ .reset :: rest) →
    (s.fatal = true → t.fatal = true) ∧ ∀ c, s.coder = some c → t.coder = some c

/-- 00_scope.md R6, 10_state.md R23: no step changes the parameters, and none changes the tables. -/
def Obligations.ParametersAndTablesAreConstant : Prop :=
  ∀ s t : State, step s = .next t → t.cfg = s.cfg ∧ (s.rom = Tables.ofCfg s.cfg → t.rom = s.rom)

/-! ### The invariant -/

/-- The machine right after reset meets the invariant, for all well-formed parameters (10_state.md R40, 00_scope.md R5);
`State.reset` is the one with the parameters of log entry 2, the model's choice. -/
def Obligations.ResetMeetsTheInvariant : Prop :=
  (∀ c : Cfg, c.WellFormed → State.Inv (State.resetWith c)) ∧ State.Inv State.reset

/-- Every step keeps the invariant. -/
def Obligations.StepKeepsTheInvariant : Prop :=
  ∀ s t : State, State.Inv s → step s = .next t → State.Inv t

/-- 43_coder.md R230, 60_exceptions.md R268: with well-formed parameters `FATAL` is unreachable; from every state that meets
the invariant with `FATAL = 0`, every run stays so. -/
def Obligations.FatalIsUnreachable : Prop :=
  ∀ s : State, State.Inv s → State.good s = true → State.Safe s

/-! ### Field commands -/

/-- 30_encoding.md R97: `NOP` clears `ERR` and changes nothing else; `BadState` while `FATAL = 1`. -/
def Obligations.NopClearsErr : Prop :=
  Sys2Proof.encode .nop = 0x00000000#32 ∧
  ∀ s : State, (s.fatal = false → exec .nop s = .next { s with err := 0, busy := false }) ∧
    (s.fatal = true → exec .nop s = .next { s with err := 0x82, busy := false })

/-- 40_gf_arith.md R121. -/
def Obligations.GfaddIsXor : Prop :=
  Sys2Proof.encode .gfadd = 0x00000010#32 ∧
  ∀ s : State, s.fatal = false →
    (s.arg0.toNat ≤ 0xFF → s.arg1.toNat ≤ 0xFF →
      exec .gfadd s = .next { s with res0 := s.arg0 ^^^ s.arg1, err := 0, busy := false }) ∧
    (s.arg0.toNat > 0xFF ∨ s.arg1.toNat > 0xFF → exec .gfadd s = .next { s with err := 0x81, busy := false })

/-- 40_gf_arith.md R122: 0 for a zero operand; else the `EXP` entry at the sum of the two `LOG` entries reduced mod 255. -/
def Obligations.GfmulByTables : Prop :=
  Sys2Proof.encode .gfmul = 0x00000011#32 ∧
  ∀ s : State, s.fatal = false →
    (s.arg0.toNat ≤ 0xFF → s.arg1.toNat ≤ 0xFF →
      (s.arg0 = 0 ∨ s.arg1 = 0 → exec .gfmul s = .next { s with res0 := 0, err := 0, busy := false }) ∧
      (s.arg0 ≠ 0 → s.arg1 ≠ 0 → ∀ la lb v, s.rom.log[s.arg0.toNat - 1]? = some la → s.rom.log[s.arg1.toNat - 1]? = some lb →
        s.rom.exp[(la + lb) % 255]? = some v →
        exec .gfmul s = .next { s with res0 := v.setWidth 32, err := 0, busy := false })) ∧
    (s.arg0.toNat > 0xFF ∨ s.arg1.toNat > 0xFF → exec .gfmul s = .next { s with err := 0x81, busy := false })

/-- 40_gf_arith.md R123: a = 0 is tested first; `DivideByZero` exactly for b = 0 and a ≠ 0; else `EXP` at the non-negative remainder. -/
def Obligations.GfdivByTables : Prop :=
  Sys2Proof.encode .gfdiv = 0x00000012#32 ∧
  ∀ s : State, s.fatal = false →
    (s.arg0.toNat ≤ 0xFF → s.arg1.toNat ≤ 0xFF →
      (s.arg0 = 0 → exec .gfdiv s = .next { s with res0 := 0, err := 0, busy := false }) ∧
      (s.arg0 ≠ 0 → s.arg1 = 0 → exec .gfdiv s = .next { s with err := 1, busy := false }) ∧
      (s.arg0 ≠ 0 → s.arg1 ≠ 0 → ∀ la lb v, s.rom.log[s.arg0.toNat - 1]? = some la → s.rom.log[s.arg1.toNat - 1]? = some lb →
        s.rom.exp[(((la : Int) - (lb : Int)) % 255).toNat]? = some v →
        exec .gfdiv s = .next { s with res0 := v.setWidth 32, err := 0, busy := false })) ∧
    (s.arg0.toNat > 0xFF ∨ s.arg1.toNat > 0xFF → exec .gfdiv s = .next { s with err := 0x81, busy := false })

/-- 40_gf_arith.md R124: `GfInv(a) = EXP[(255 - LOG[a]) mod 255]`, which the rule derives from R123; `DivideByZero` for a = 0, `ARG1` ignored. -/
def Obligations.GfinvByTables : Prop :=
  Sys2Proof.encode .gfinv = 0x00000013#32 ∧
  ∀ s : State, s.fatal = false → s.romOfCfg →
    (s.arg0 = 0 → exec .gfinv s = .next { s with err := 1, busy := false }) ∧
    (1 ≤ s.arg0.toNat → s.arg0.toNat ≤ 0xFF → ∀ la v, s.rom.log[s.arg0.toNat - 1]? = some la →
      s.rom.exp[(255 - la) % 255]? = some v →
      exec .gfinv s = .next { s with res0 := v.setWidth 32, err := 0, busy := false }) ∧
    (s.arg0.toNat > 0xFF → exec .gfinv s = .next { s with err := 0x81, busy := false })

/-- 40_gf_arith.md R125: repeated multiplication, for every 32-bit exponent (the model computes the rule's closed form, log entry 10). -/
def Obligations.GfpowIsRepeatedMultiplication : Prop :=
  Sys2Proof.encode .gfpow = 0x00000014#32 ∧
  ∀ s : State, s.fatal = false → s.romOfCfg →
    (s.arg0.toNat ≤ 0xFF → exec .gfpow s =
      .next { s with res0 := (gfPowLoop s.rom (s.arg0.setWidth 8) s.arg1.toNat).setWidth 32, err := 0, busy := false }) ∧
    (s.arg0.toNat > 0xFF → exec .gfpow s = .next { s with err := 0x81, busy := false })

/-- 40_gf_arith.md R128: for well-formed parameters `GFMUL` is multiplication of polynomials modulo `POLY`. -/
def Obligations.GfmulIsThePolynomialProduct : Prop :=
  ∀ s : State, s.fatal = false → s.romOfCfg → s.arg0.toNat ≤ 0xFF → s.arg1.toNat ≤ 0xFF →
    exec .gfmul s = .next { s with
      res0 := (polyMul s.cfg.poly (s.arg0.setWidth 8) (s.arg1.setWidth 8)).setWidth 32, err := 0, busy := false }

/-- 40_gf_arith.md R120: the tables of well-formed parameters, by the consequences the rule derives from their well-formedness. -/
def Obligations.TablesAreInverse : Prop :=
  ∀ c : Cfg, c.WellFormed →
    (Tables.ofCfg c).exp[0]? = some 1 ∧ (Tables.ofCfg c).exp[1]? = some c.gen ∧ (Tables.ofCfg c).log[0]? = some 0 ∧
    (Tables.ofCfg c).log[c.gen.toNat - 1]? = some 1 ∧
    (∀ (i : Nat) (x y : Byte), (Tables.ofCfg c).exp[i]? = some x → (Tables.ofCfg c).exp[i + 1]? = some y → y = polyMul c.poly x c.gen) ∧
    (∀ (i : Nat) (x : Byte), (Tables.ofCfg c).exp[i]? = some x → x ≠ 0 ∧ (Tables.ofCfg c).log[x.toNat - 1]? = some i) ∧
    (∀ (a : Byte) (i : Nat), a ≠ 0 → (Tables.ofCfg c).log[a.toNat - 1]? = some i → i ≤ 254 ∧ (Tables.ofCfg c).exp[i]? = some a)

/-- 40_gf_arith.md R126: the laws the source states. -/
def Obligations.SourceFieldLaws : Prop :=
  ∀ c : Cfg, c.WellFormed → ∀ a : Byte,
    (a ≠ 0 → ∃ q, gfDiv (Tables.ofCfg c) 1 a = some q ∧ gfMul (Tables.ofCfg c) a q = 1) ∧
    gfAdd a a = 0 ∧ gfMul (Tables.ofCfg c) a 0 = 0 ∧ gfAdd a 0 = a ∧ gfMul (Tables.ofCfg c) a 1 = a ∧
    gfInv (Tables.ofCfg c) 0 = none

/-- 40_gf_arith.md R127: the further laws of the field, which the rule derives from R120, R122, R123. -/
def Obligations.FurtherFieldLaws : Prop :=
  ∀ c : Cfg, c.WellFormed → ∀ x y z : Byte,
    let t := Tables.ofCfg c
    gfAdd x y = gfAdd y x ∧ gfAdd (gfAdd x y) z = gfAdd x (gfAdd y z) ∧
    gfMul t x y = gfMul t y x ∧ gfMul t (gfMul t x y) z = gfMul t x (gfMul t y z) ∧
    gfMul t x (gfAdd y z) = gfAdd (gfMul t x y) (gfMul t x z) ∧
    (gfMul t x y = 0 → x = 0 ∨ y = 0) ∧
    (y ≠ 0 → gfDiv t (gfMul t x y) y = some x ∧ ∃ q, gfDiv t x y = some q ∧ gfMul t q y = x)

/-! ### Matrix commands -/

/-- 41_matrix.md R150. -/
def Obligations.MnewZeroFills : Prop :=
  (∀ md : DstId, Sys2Proof.encode (.mnew md) = BitVec.ofNat 32 (0x20 + md.val * 0x100)) ∧
  ∀ (s : State) (md : DstId), s.fatal = false →
    (s.arg0.toNat ≤ 256 → s.arg1.toNat ≤ 512 → ∃ X : Mat, X.wf ∧ X.rows = s.arg0.toNat ∧ X.cols = s.arg1.toNat ∧
      (∀ r c, r < X.rows → c < X.cols → X.at r c = 0) ∧
      exec (.mnew md) s = .next { s with mats := s.mats.set md.val X, err := 0, busy := false }) ∧
    (s.arg0.toNat > 256 ∨ s.arg1.toNat > 512 → exec (.mnew md) s = .next { s with err := 0x81, busy := false })

/-- 41_matrix.md R151. -/
def Obligations.MidentBuildsTheIdentity : Prop :=
  (∀ md : DstId, Sys2Proof.encode (.mident md) = BitVec.ofNat 32 (0x21 + md.val * 0x100)) ∧
  ∀ (s : State) (md : DstId), s.fatal = false →
    (s.arg0.toNat ≤ 256 → ∃ X : Mat, X.wf ∧ X.rows = s.arg0.toNat ∧ X.cols = s.arg0.toNat ∧
      (∀ r c, r < X.rows → c < X.cols → X.at r c = if r = c then 1 else 0) ∧
      exec (.mident md) s = .next { s with mats := s.mats.set md.val X, err := 0, busy := false }) ∧
    (s.arg0.toNat > 256 → exec (.mident md) s = .next { s with err := 0x81, busy := false })

/-- 41_matrix.md R152: element (r, c) of the product is the xor over t of A[r][t] times B[t][c]; sources and destination may coincide
(20_memory.md R74); `BadState` for `CM` while unconfigured, before `DimensionMismatch`. -/
def Obligations.MmulIsTheProduct : Prop :=
  (∀ (md : DstId) (ma mb : SrcId), Sys2Proof.encode (.mmul md ma mb) = BitVec.ofNat 32 (0x22 + md.val * 0x100 + ma.val * 0x1000 + mb.val * 0x10000)) ∧
  ∀ (s : State) (md : DstId) (ma mb : SrcId), s.fatal = false →
    (s.coder = none → ma.val ≤ 4 → mb.val ≤ 4 → ma.val = 4 ∨ mb.val = 4 → exec (.mmul md ma mb) s = .next { s with err := 0x82, busy := false }) ∧
    ∀ A B : Mat, SourceIs s ma A → SourceIs s mb B → A.rows ≤ 256 → B.cols ≤ 512 →
    (A.cols = B.rows → ∃ X : Mat, X.wf ∧ X.rows = A.rows ∧ X.cols = B.cols ∧
      (∀ r c, r < A.rows → c < B.cols → X.at r c = xorSum A.cols fun i => gfMul s.rom (A.at r i) (B.at i c)) ∧
      exec (.mmul md ma mb) s = .next { s with mats := s.mats.set md.val X, err := 0, busy := false }) ∧
    (A.cols ≠ B.rows → exec (.mmul md ma mb) s = .next { s with err := 2, busy := false })

/-- 41_matrix.md R153: half-open ranges; a reversed range or one that leaves the source is `OperandRange`; `BadState` for `CM` while unconfigured. -/
def Obligations.MsubExtractsTheRange : Prop :=
  (∀ (md : DstId) (ma : SrcId), Sys2Proof.encode (.msub md ma) = BitVec.ofNat 32 (0x23 + md.val * 0x100 + ma.val * 0x1000)) ∧
  ∀ (s : State) (md : DstId) (ma : SrcId), s.fatal = false →
    (s.coder = none → ma.val = 4 → exec (.msub md ma) s = .next { s with err := 0x82, busy := false }) ∧
    ∀ A : Mat, SourceIs s ma A → A.rows ≤ 256 → A.cols ≤ 512 →
    (s.arg0.toNat ≤ s.arg1.toNat → s.arg1.toNat ≤ A.rows → s.arg2.toNat ≤ s.arg3.toNat → s.arg3.toNat ≤ A.cols →
      ∃ X : Mat, X.wf ∧ X.rows = s.arg1.toNat - s.arg0.toNat ∧ X.cols = s.arg3.toNat - s.arg2.toNat ∧
      (∀ r c, r < X.rows → c < X.cols → X.at r c = A.at (s.arg0.toNat + r) (s.arg2.toNat + c)) ∧
      exec (.msub md ma) s = .next { s with mats := s.mats.set md.val X, err := 0, busy := false }) ∧
    (s.arg0.toNat > s.arg1.toNat ∨ s.arg1.toNat > A.rows ∨ s.arg2.toNat > s.arg3.toNat ∨ s.arg3.toNat > A.cols →
      exec (.msub md ma) s = .next { s with err := 0x81, busy := false })

/-- 41_matrix.md R154: A on the left, B on the right; `BadState` before `DimensionMismatch` before the capacity test. -/
def Obligations.MaugConcatenates : Prop :=
  (∀ (md : DstId) (ma mb : SrcId), Sys2Proof.encode (.maug md ma mb) = BitVec.ofNat 32 (0x24 + md.val * 0x100 + ma.val * 0x1000 + mb.val * 0x10000)) ∧
  ∀ (s : State) (md : DstId) (ma mb : SrcId), s.fatal = false →
    (s.coder = none → ma.val ≤ 4 → mb.val ≤ 4 → ma.val = 4 ∨ mb.val = 4 → exec (.maug md ma mb) s = .next { s with err := 0x82, busy := false }) ∧
    ∀ A B : Mat, SourceIs s ma A → SourceIs s mb B → A.rows ≤ 256 →
    (A.rows = B.rows → A.cols + B.cols ≤ 512 → ∃ X : Mat, X.wf ∧ X.rows = A.rows ∧ X.cols = A.cols + B.cols ∧
      (∀ r c, r < A.rows → c < A.cols → X.at r c = A.at r c) ∧
      (∀ r c, r < A.rows → c < B.cols → X.at r (A.cols + c) = B.at r c) ∧
      exec (.maug md ma mb) s = .next { s with mats := s.mats.set md.val X, err := 0, busy := false }) ∧
    (A.rows ≠ B.rows → exec (.maug md ma mb) s = .next { s with err := 2, busy := false }) ∧
    (A.rows = B.rows → A.cols + B.cols > 512 → exec (.maug md ma mb) s = .next { s with err := 0x81, busy := false })

/-- 41_matrix.md R155, R158: `MINV` leaves the inverse in the destination; `BadState`, then `NotSquare`, then `SingularMatrix`,
which is raised exactly when there is no inverse (R158, in the spec from general knowledge); `FATAL` is never set. -/
def Obligations.MinvLeavesTheInverse : Prop :=
  (∀ (md : DstId) (ma : SrcId), Sys2Proof.encode (.minv md ma) = BitVec.ofNat 32 (0x25 + md.val * 0x100 + ma.val * 0x1000)) ∧
  ∀ (s : State) (md : DstId) (ma : SrcId), s.fatal = false →
    (s.coder = none → ma.val = 4 → exec (.minv md ma) s = .next { s with err := 0x82, busy := false }) ∧
    ∀ A : Mat, s.romOfCfg → SourceIs s ma A → A.wf → A.rows ≤ 256 →
    (A.rows ≠ A.cols → exec (.minv md ma) s = .next { s with err := 3, busy := false }) ∧
    (∀ X, A.rows = A.cols → IsInverse s.rom A X →
      exec (.minv md ma) s = .next { s with mats := s.mats.set md.val X, err := 0, busy := false }) ∧
    (A.rows = A.cols → (¬ ∃ X, IsInverse s.rom A X) → exec (.minv md ma) s = .next { s with err := 4, busy := false })

/-- 41_matrix.md R158: the law of the pipeline. -/
def Obligations.PipelineInverts : Prop :=
  ∀ (c : Cfg) (A : Mat), c.WellFormed → A.wf → A.rows = A.cols →
    (∀ X, matInvert (Tables.ofCfg c) A = .ok X →
      matMul (Tables.ofCfg c) A X = .ok (matIdentity A.rows) ∧ matMul (Tables.ofCfg c) X A = .ok (matIdentity A.rows)) ∧
    (matInvert (Tables.ofCfg c) A = .error .singularMatrix ↔ ¬ ∃ X, IsInverse (Tables.ofCfg c) A X)

/-- 41_matrix.md R156. -/
def Obligations.MissqTestsSquareness : Prop :=
  (∀ ma : SrcId, Sys2Proof.encode (.missq ma) = BitVec.ofNat 32 (0x26 + ma.val * 0x1000)) ∧
  ∀ (s : State) (ma : SrcId), s.fatal = false →
    (s.coder = none → ma.val = 4 → exec (.missq ma) s = .next { s with err := 0x82, busy := false }) ∧
    ∀ A : Mat, SourceIs s ma A →
    (A.rows = A.cols → exec (.missq ma) s = .next { s with res0 := 1, err := 0, busy := false }) ∧
    (A.rows ≠ A.cols → exec (.missq ma) s = .next { s with res0 := 0, err := 0, busy := false })

/-! ### The builder -/

/-- 42_builder.md R190, R192 (1), (2): the builder answers the (k+m) x k matrix V times T, V the Vandermonde matrix of the points
and T a matrix that makes the top block the identity. -/
def Obligations.BuilderIsSystematicVandermonde : Prop :=
  ∀ (c : Cfg) (k m : Nat), c.WellFormed → 1 ≤ k → k + m ≤ 256 →
    ∃ C T : Mat, buildMatrix (Tables.ofCfg c) c.point k m = .ok C ∧ C.wf ∧ C.rows = k + m ∧ C.cols = k ∧
      (∀ r col, r < k + m → col < k → C.at r col =
        xorSum k fun j => gfMul (Tables.ofCfg c) (gfPowLoop (Tables.ofCfg c) (pointAt c.point r) j) (T.at j col)) ∧
      (∀ r col, r < k → col < k → C.at r col = if r = col then 1 else 0)

/-- 42_builder.md R192 (3): every choice of k rows of the built matrix is an invertible submatrix. -/
def Obligations.AnyRowsOfTheBuiltMatrixInvert : Prop :=
  ∀ (c : Cfg) (k m : Nat) (C : Mat) (rows : List Nat), c.WellFormed → buildMatrix (Tables.ofCfg c) c.point k m = .ok C →
    rows.length = k → rows.Nodup → (∀ r ∈ rows, r < k + m) →
    ∃ X, matInvert (Tables.ofCfg c) (Mat.ofFn k k fun i j => C.at (rows.getD i 0) j) = .ok X

/-- 42_builder.md R192 (5): the first k + m' rows of BuildMatrix(k, m) are BuildMatrix(k, m'). -/
def Obligations.BuiltRowsDependOnKAlone : Prop :=
  ∀ (c : Cfg) (k m m' : Nat) (C C' : Mat), m' ≤ m → buildMatrix (Tables.ofCfg c) c.point k m = .ok C →
    buildMatrix (Tables.ofCfg c) c.point k m' = .ok C' →
    C'.rows = k + m' ∧ C'.cols = k ∧ ∀ r col, r < k + m' → col < k → C'.at r col = C.at r col

/-- 42_builder.md R191. -/
def Obligations.MbuildStoresTheBuiltMatrix : Prop :=
  (∀ md : DstId, Sys2Proof.encode (.mbuild md) = BitVec.ofNat 32 (0x30 + md.val * 0x100)) ∧
  ∀ (s : State) (md : DstId), s.fatal = false →
    (s.romOfCfg → 1 ≤ s.arg0.toNat → s.arg0.toNat + s.arg1.toNat ≤ 256 →
      ∃ C : Mat, buildMatrix s.rom s.cfg.point s.arg0.toNat s.arg1.toNat = .ok C ∧
        exec (.mbuild md) s = .next { s with mats := s.mats.set md.val C, err := 0, busy := false }) ∧
    (s.arg0 = 0 ∨ s.arg0.toNat + s.arg1.toNat > 256 → exec (.mbuild md) s = .next { s with err := 5, busy := false })

/-! ### The coder -/

/-- 43_coder.md R210, R211: construction, its errors, and one coder per reset. -/
def Obligations.ConfigBuildsTheCoder : Prop :=
  Sys2Proof.encode .config = 0x00000040#32 ∧
  ∀ s : State, s.fatal = false →
    (∀ c, s.coder = some c → exec .config s = .next { s with err := 0x82, busy := false }) ∧
    (s.coder = none → s.arg0 = 0 ∨ s.arg1 = 0 ∨ s.arg0.toNat + s.arg1.toNat > 256 →
      exec .config s = .next { s with err := 6, busy := false }) ∧
    (s.coder = none → s.romOfCfg → 1 ≤ s.arg0.toNat → 1 ≤ s.arg1.toNat → s.arg0.toNat + s.arg1.toNat ≤ 256 →
      ∃ C : Mat, buildMatrix s.rom s.cfg.point s.arg0.toNat s.arg1.toNat = .ok C ∧
        exec .config s = .next { s with coder := some ⟨s.arg0, s.arg1, s.arg0 + s.arg1, C⟩, err := 0, busy := false })

/-- 43_coder.md R220, the errors of `ENCODE` in the order tested. -/
def Obligations.EncodeErrorsInOrder : Prop :=
  ∀ s : State, s.fatal = false →
    (s.coder = none → exec .encode s = .next { s with err := 0x82, busy := false }) ∧
    ∀ c, s.coder = some c →
      (s.nshards.toNat < c.n.toNat → exec .encode s = .next { s with err := 7, busy := false }) ∧
      (s.nshards.toNat > c.n.toNat → exec .encode s = .next { s with err := 8, busy := false }) ∧
      (s.nshards.toNat = c.n.toNat →
        ((∃ i < c.n.toNat, s.lenAt i = 0) → exec .encode s = .next { s with err := 9, busy := false }) ∧
        ((∀ i < c.n.toNat, s.lenAt i ≠ 0) →
          ((∃ i < c.n.toNat, s.lenAt i ≠ s.lenAt 0) → exec .encode s = .next { s with err := 10, busy := false }) ∧
          ((∀ i < c.n.toNat, s.lenAt i = s.lenAt 0) → s.lenAt 0 > s.cfg.lmax →
            exec .encode s = .next { s with err := 0x81, busy := false })))

/-- 43_coder.md R220, the effect of `ENCODE`: the parity bytes, and no other byte of `SH` and no other state. -/
def Obligations.EncodeWritesTheParity : Prop :=
  Sys2Proof.encode .encode = 0x00000041#32 ∧
  ∀ (s : State) (c : Coder) (L : Nat), s.fatal = false → s.hasCoder c → s.fullSet c L →
    ∃ m : Memory, exec .encode s = .next { s with sh := m, err := 0, busy := false } ∧
      (∀ i o, c.k.toNat ≤ i → i < c.n.toNat → o < L →
        Memory.read m (shKey i o) = some (xorSum c.k.toNat fun j => gfMul s.rom (c.cm.at i j) (s.shByte j o))) ∧
      (∀ a, (∀ i o, c.k.toNat ≤ i → i < c.n.toNat → o < L → a ≠ shKey i o) → Memory.read m a = Memory.read s.sh a)

/-- 43_coder.md R222 (2): re-encoding an encoded set changes nothing. -/
def Obligations.EncodeIsIdempotent : Prop :=
  ∀ s t : State, State.Inv s → exec .encode s = .next t → t.err = 0 → exec .encode t = .next t

/-- 43_coder.md R222 (4): after `ENCODE` all N shards are `CM` times the data shards. -/
def Obligations.EncodeLeavesACodeWord : Prop :=
  ∀ (s t : State) (c : Coder) (L : Nat), State.Inv s → s.fatal = false → s.coder = some c → s.fullSet c L →
    exec .encode s = .next t →
    t.err = 0 ∧ ∀ i o, i < c.n.toNat → o < L → t.shByte i o = codeByte s.rom c s.shByte i o

/-- 43_coder.md R222 (3): the parity of the bytewise xor of two data sets is the bytewise xor of their parities. -/
def Obligations.EncodeIsLinear : Prop :=
  ∀ (s₁ s₂ s₃ t₁ t₂ t₃ : State) (c : Coder) (L : Nat), State.Inv s₁ → State.Inv s₂ → State.Inv s₃ →
    (∀ s ∈ [s₁, s₂, s₃], s.fatal = false ∧ s.cfg = s₁.cfg ∧ s.coder = some c ∧ s.fullSet c L) →
    (∀ i o, i < c.k.toNat → o < L → s₃.shByte i o = s₁.shByte i o ^^^ s₂.shByte i o) →
    exec .encode s₁ = .next t₁ → exec .encode s₂ = .next t₂ → exec .encode s₃ = .next t₃ →
    ∀ i o, i < c.n.toNat → o < L → t₃.shByte i o = t₁.shByte i o ^^^ t₂.shByte i o

/-- 43_coder.md R230, the errors of `DECODE` in the order tested. -/
def Obligations.DecodeErrorsInOrder : Prop :=
  ∀ s : State, s.fatal = false →
    (s.coder = none → exec .decode s = .next { s with err := 0x82, busy := false }) ∧
    ∀ c P, s.coder = some c → P = (List.range c.n.toNat).filter (fun i => decide (s.lenAt i ≠ 0)) →
      (s.nshards.toNat < c.n.toNat → exec .decode s = .next { s with err := 7, busy := false }) ∧
      (s.nshards.toNat > c.n.toNat → exec .decode s = .next { s with err := 8, busy := false }) ∧
      (s.nshards.toNat = c.n.toNat →
        (P.length < c.k.toNat → exec .decode s = .next { s with err := 11, busy := false }) ∧
        (c.k.toNat ≤ P.length →
          ((∃ i ∈ P, ∃ j ∈ P, s.lenAt i ≠ s.lenAt j) → exec .decode s = .next { s with err := 10, busy := false }) ∧
          ((∀ i ∈ P, ∀ j ∈ P, s.lenAt i = s.lenAt j) → (∃ i ∈ P, s.lenAt i > s.cfg.lmax) →
            exec .decode s = .next { s with err := 0x81, busy := false })))

/-- 43_coder.md R230, the effect of `DECODE` on the present shards it selects (the first K of P): missing data slots are the inverse
of the selected rows times the selected bytes, missing parity slots the parity of the then complete data, each with length L;
present shards, other slots and all other state stay. With a singular selection `FATAL` is set and nothing is written. -/
def Obligations.DecodeRebuildsTheMissingSlots : Prop :=
  Sys2Proof.encode .decode = 0x00000042#32 ∧
  ∀ (s : State) (c : Coder) (L : Nat) (sel : List Nat) (S : Mat), s.fatal = false → s.hasCoder c → s.partialSet c L →
    sel = ((List.range c.n.toNat).filter (fun i => decide (s.lenAt i ≠ 0))).take c.k.toNat →
    S = (Mat.ofFn c.k.toNat c.k.toNat fun j i => c.cm.at (sel.getD j 0) i) →
    ((∃ d < c.k.toNat, s.lenAt d = 0) → matInvert s.rom S = .error .singularMatrix →
      exec .decode s = .next { s with err := 4, busy := false, fatal := true }) ∧
    (∀ I, (∀ d < c.k.toNat, s.lenAt d ≠ 0) ∨ matInvert s.rom S = .ok I →
      ∃ t : State, exec .decode s = .next t ∧ t = { s with sh := t.sh, len := t.len, err := 0, busy := false } ∧
        (∀ i < c.n.toNat, t.lenAt i = L) ∧ (∀ i, c.n.toNat ≤ i → t.lenAt i = s.lenAt i) ∧
        (∀ d o, d < c.k.toNat → s.lenAt d = 0 → o < L →
          t.shByte d o = xorSum c.k.toNat fun j => gfMul s.rom (I.at d j) (s.shByte (sel.getD j 0) o)) ∧
        (∀ i o, c.k.toNat ≤ i → i < c.n.toNat → s.lenAt i = 0 → o < L →
          t.shByte i o = xorSum c.k.toNat fun j => gfMul s.rom (c.cm.at i j) (t.shByte j o)) ∧
        (∀ a, (∀ i o, i < c.n.toNat → s.lenAt i = 0 → o < L → a ≠ shKey i o) → Memory.read t.sh a = Memory.read s.sh a))

/-- 43_coder.md R231 (1), for any code word: when at least K shards of a code word are present, `DECODE` leaves the whole code word. -/
def Obligations.DecodeCompletesACodeWord : Prop :=
  ∀ (s : State) (c : Coder) (L : Nat) (d : Nat → Nat → Byte), State.Inv s → s.fatal = false → s.coder = some c → s.partialSet c L →
    (∀ i o, i < c.n.toNat → s.lenAt i ≠ 0 → o < L → s.shByte i o = codeByte s.rom c d i o) →
    ∃ t, exec .decode s = .next t ∧ t.err = 0 ∧ t.fatal = false ∧
      ∀ i < c.n.toNat, t.lenAt i = L ∧ ∀ o < L, t.shByte i o = codeByte s.rom c d i o

/-- 43_coder.md R231 (1), the round trip: encode, erase at most M shards (their lengths set to 0, their bytes whatever they are), decode:
every byte of every shard is again what encoding left. A data byte never written is the free value of log entry 4, whatever it is. -/
def Obligations.EncodeEraseDecodeRoundTrip : Prop :=
  ∀ (s e u : State) (c : Coder) (L : Nat) (lost : List Nat), State.Inv s → s.fatal = false → s.coder = some c → s.fullSet c L →
    exec .encode s = .next e → lost.Nodup → lost.length ≤ c.m.toNat → (∀ i ∈ lost, i < c.n.toNat) →
    State.Inv u → u.fatal = false → u.cfg = e.cfg → u.coder = e.coder → u.nshards = e.nshards →
    (∀ i < c.n.toNat, u.lenAt i = if i ∈ lost then 0 else e.lenAt i) →
    (∀ i o, i < c.n.toNat → i ∉ lost → o < L → u.shByte i o = e.shByte i o) →
    ∃ t, exec .decode u = .next t ∧ t.err = 0 ∧ ∀ i < c.n.toNat, t.lenAt i = L ∧ ∀ o < L, t.shByte i o = e.shByte i o

/-- 43_coder.md R231 (2): with more than M shards erased `DECODE` reports `TooFewShardsGiven` and changes nothing. -/
def Obligations.TooManyErasuresAreReported : Prop :=
  ∀ (s : State) (c : Coder) (lost : List Nat), s.fatal = false → s.hasCoder c → s.nshards = c.n →
    lost.Nodup → (∀ i ∈ lost, i < c.n.toNat ∧ s.lenAt i = 0) → c.m.toNat < lost.length →
    exec .decode s = .next { s with err := 11, busy := false }

/-- 43_coder.md R231 (5): a second `DECODE` on its own result changes nothing. -/
def Obligations.DecodeIsIdempotent : Prop :=
  ∀ s t : State, State.Inv s → exec .decode s = .next t → t.err = 0 → exec .decode t = .next t

/-! ### Host operations -/

/-- 10_state.md R26: the bits of `STATUS`. -/
def Obligations.StatusBits : Prop :=
  ∀ s : State, ∃ v, s.readReg 1 = some v ∧ v.getLsbD 0 = s.busy ∧ v.getLsbD 1 = s.coder.isSome ∧ v.getLsbD 2 = s.fatal ∧
    ∀ i, 3 ≤ i → v.getLsbD i = false

/-- 20_memory.md R63, 10_state.md R38: all 32 bits written to a writable register are read back, and nothing else of the block changes:
no other register, no byte of `SH`, no matrix, not the coder, not the tables; a write to a read-only register is ignored. -/
def Obligations.RegisterWrites : Prop :=
  ∀ (s : State) (n : Nat) (v : Word) (rest : List HostOp), s.busy = false →
    ((4 ≤ n ∧ n ≤ 7) ∨ n = 0x00B ∨ (0x100 ≤ n ∧ n ≤ 0x1FF) → s.host = .writeReg n v :: .readReg n :: rest →
      ∃ t u, step s = .next t ∧ step t = .next u ∧ (∀ n', n' ≠ n → u.readReg n' = s.readReg n') ∧
        u = { s with arg0 := u.arg0, arg1 := u.arg1, arg2 := u.arg2, arg3 := u.arg3, nshards := u.nshards, len := u.len,
                     host := rest, replies := s.replies ++ [.reg v] }) ∧
    ((1 ≤ n ∧ n ≤ 3) ∨ (8 ≤ n ∧ n ≤ 0x00A) ∨ n = 0x00C ∨ (0x010 ≤ n ∧ n ≤ 0x017) → s.next (.writeReg n v) rest →
      step s = .next { s with host := rest })

/-- 20_memory.md R62: a shard byte written is read back; no other byte, no length and no other state changes. -/
def Obligations.ShardWrites : Prop :=
  ∀ (s : State) (i o : Nat) (v : Byte) (rest : List HostOp), s.busy = false → i ≤ 255 → o < s.cfg.lmax → s.cfg.lmax < 2 ^ 32 →
    s.host = .writeShard i o v :: .readShard i o :: rest →
    ∃ t u, step s = .next t ∧ step t = .next u ∧ u = { s with sh := t.sh, host := rest, replies := s.replies ++ [.byte v] } ∧
      ∀ i' o', o' < s.cfg.lmax → (i', o') ≠ (i, o) → t.shByte i' o' = s.shByte i' o'

/-- 20_memory.md R64: a matrix element written is read back; no dimension, no other element and no other state changes. -/
def Obligations.MatrixWrites : Prop :=
  ∀ (s : State) (b : Fin 4) (x : Nat) (v : Byte) (rest : List HostOp), s.busy = false → s.mats[b].wf →
    x < s.mats[b].rows * s.mats[b].cols → s.host = .writeMat b.val x v :: .readMat b.val x :: rest →
    ∃ t u X, step s = .next t ∧ step t = .next u ∧
      u = { s with mats := s.mats.set b.val X, host := rest, replies := s.replies ++ [.byte v] } ∧
      X.wf ∧ X.rows = s.mats[b].rows ∧ X.cols = s.mats[b].cols ∧ ∀ y, y ≠ x → X.e[y]? = s.mats[b].e[y]?

/-- 20_memory.md R65: the tables are read at the indices 1..255 and 0..254. -/
def Obligations.TableReads : Prop :=
  ∀ (s : State) (i : Nat) (rest : List HostOp), s.busy = false →
    (∀ v, s.next (.readLog (i + 1)) rest → s.rom.log[i]? = some v →
      step s = .next { s with host := rest, replies := s.replies ++ [.logEntry v] }) ∧
    (∀ v, s.next (.readExp i) rest → s.rom.exp[i]? = some v →
      step s = .next { s with host := rest, replies := s.replies ++ [.byte v] })

/-- 20_memory.md R62, R63, R64, R65, 10_state.md R38: while the block is idle a read returns what the state holds, and no read has a side effect
on the block. A shard byte never written is the free value of log entry 4; the list of replies is log entry 15. -/
def Obligations.ReadsChangeNothing : Prop :=
  ∀ (s : State) (op : HostOp) (rest : List HostOp), s.next op rest →
    (s.busy = false → ∀ r, s.ReadGives op r → step s = .next { s with host := rest, replies := s.replies ++ [r] }) ∧
    (∀ t, step s = .next t →
      (match op with
        | .readReg _ | .readShard _ _ | .readMat _ _ | .readLog _ | .readExp _ => True
        | .writeReg _ _ | .writeShard _ _ _ | .writeMat _ _ _ | .reset => False) →
      ∃ r, s.ReadGives op r ∧ t = { s with host := rest, replies := s.replies ++ [r] })

/-- 20_memory.md R61 and 93_implementation_defined.md U1: an access to a reserved location has no meaning: no next state.
The model's choices beyond R61's list: a shard slot above 255 (R62, log entry 20), a write of matrix id 4 while configured (R64, log entry 19),
matrix ids above 7 (R64) and `LOG` indices above 255 (R65) (log entry 7); `LOG[0]` is log entry 8. -/
def Obligations.ReservedAccessesHaveNoMeaning : Prop :=
  ∀ (s t : State) (op : HostOp) (rest : List HostOp), s.next op rest →
    (match op with
      | .readReg n | .writeReg n _ => (0x00D ≤ n ∧ n ≤ 0x00F) ∨ (0x018 ≤ n ∧ n ≤ 0x0FF) ∨ 0x1FF < n
      | .readShard i o | .writeShard i o _ => 255 < i ∨ s.cfg.lmax ≤ o
      | .readMat b x => 4 < b ∨ (b = 4 ∧ s.coder = none) ∨ (∃ c, b = 4 ∧ s.coder = some c ∧ c.cm.rows * c.cm.cols ≤ x) ∨
          ∃ h : b < 4, s.mats[b].rows * s.mats[b].cols ≤ x
      | .writeMat b x _ => 3 < b ∨ ∃ h : b < 4, s.mats[b].rows * s.mats[b].cols ≤ x
      | .readLog a => a = 0 ∨ 255 < a
      | .readExp i => 254 < i
      | .reset => False) →
    step s ≠ .next t

/-- 70_reset_and_hazards.md R296, 93_implementation_defined.md U2: while `BUSY = 1` the host may only read `STATUS` (or reset). -/
def Obligations.BusyAdmitsOnlyStatus : Prop :=
  ∀ (s : State) (op : HostOp) (rest : List HostOp), s.busy = true → s.next op rest →
    (op = .readReg 1 → step s = .next { s with host := rest, replies := s.replies ++ [.reg s.status] }) ∧
    (op ≠ .readReg 1 → op ≠ .reset → step s = .refused .hostWhileBusy)
end

