-- ==== Sys2Proof/Laws/State.lean ====
section
/-! SUPPORT. One lemma per field per update of State, true by rfl, so that no later proof unfolds a record update. -/

namespace Sys2Proof.Machine

variable (s : State)

/-! ### `State.setRes0` -/

@[simp] theorem State.setRes0_cfg (v : Word) : (s.setRes0 v).cfg = s.cfg := rfl
@[simp] theorem State.setRes0_rom (v : Word) : (s.setRes0 v).rom = s.rom := rfl
@[simp] theorem State.setRes0_cmd (v : Word) : (s.setRes0 v).cmd = s.cmd := rfl
@[simp] theorem State.setRes0_busy (v : Word) : (s.setRes0 v).busy = s.busy := rfl
@[simp] theorem State.setRes0_fatal (v : Word) : (s.setRes0 v).fatal = s.fatal := rfl
@[simp] theorem State.setRes0_err (v : Word) : (s.setRes0 v).err = s.err := rfl
@[simp] theorem State.setRes0_res0 (v : Word) : (s.setRes0 v).res0 = v := rfl
@[simp] theorem State.setRes0_arg0 (v : Word) : (s.setRes0 v).arg0 = s.arg0 := rfl
@[simp] theorem State.setRes0_arg1 (v : Word) : (s.setRes0 v).arg1 = s.arg1 := rfl
@[simp] theorem State.setRes0_arg2 (v : Word) : (s.setRes0 v).arg2 = s.arg2 := rfl
@[simp] theorem State.setRes0_arg3 (v : Word) : (s.setRes0 v).arg3 = s.arg3 := rfl
@[simp] theorem State.setRes0_coder (v : Word) : (s.setRes0 v).coder = s.coder := rfl
@[simp] theorem State.setRes0_nshards (v : Word) : (s.setRes0 v).nshards = s.nshards := rfl
@[simp] theorem State.setRes0_mats (v : Word) : (s.setRes0 v).mats = s.mats := rfl
@[simp] theorem State.setRes0_len (v : Word) : (s.setRes0 v).len = s.len := rfl
@[simp] theorem State.setRes0_sh (v : Word) : (s.setRes0 v).sh = s.sh := rfl
@[simp] theorem State.setRes0_epoch (v : Word) : (s.setRes0 v).epoch = s.epoch := rfl
@[simp] theorem State.setRes0_host (v : Word) : (s.setRes0 v).host = s.host := rfl
@[simp] theorem State.setRes0_replies (v : Word) : (s.setRes0 v).replies = s.replies := rfl

/-! ### `State.setMat` -/

@[simp] theorem State.setMat_cfg (d : DstId) (X : Mat) : (s.setMat d X).cfg = s.cfg := rfl
@[simp] theorem State.setMat_rom (d : DstId) (X : Mat) : (s.setMat d X).rom = s.rom := rfl
@[simp] theorem State.setMat_cmd (d : DstId) (X : Mat) : (s.setMat d X).cmd = s.cmd := rfl
@[simp] theorem State.setMat_busy (d : DstId) (X : Mat) : (s.setMat d X).busy = s.busy := rfl
@[simp] theorem State.setMat_fatal (d : DstId) (X : Mat) : (s.setMat d X).fatal = s.fatal := rfl
@[simp] theorem State.setMat_err (d : DstId) (X : Mat) : (s.setMat d X).err = s.err := rfl
@[simp] theorem State.setMat_res0 (d : DstId) (X : Mat) : (s.setMat d X).res0 = s.res0 := rfl
@[simp] theorem State.setMat_arg0 (d : DstId) (X : Mat) : (s.setMat d X).arg0 = s.arg0 := rfl
@[simp] theorem State.setMat_arg1 (d : DstId) (X : Mat) : (s.setMat d X).arg1 = s.arg1 := rfl
@[simp] theorem State.setMat_arg2 (d : DstId) (X : Mat) : (s.setMat d X).arg2 = s.arg2 := rfl
@[simp] theorem State.setMat_arg3 (d : DstId) (X : Mat) : (s.setMat d X).arg3 = s.arg3 := rfl
@[simp] theorem State.setMat_coder (d : DstId) (X : Mat) : (s.setMat d X).coder = s.coder := rfl
@[simp] theorem State.setMat_nshards (d : DstId) (X : Mat) : (s.setMat d X).nshards = s.nshards := rfl
@[simp] theorem State.setMat_mats (d : DstId) (X : Mat) : (s.setMat d X).mats = s.mats.set d X := rfl
@[simp] theorem State.setMat_len (d : DstId) (X : Mat) : (s.setMat d X).len = s.len := rfl
@[simp] theorem State.setMat_sh (d : DstId) (X : Mat) : (s.setMat d X).sh = s.sh := rfl
@[simp] theorem State.setMat_epoch (d : DstId) (X : Mat) : (s.setMat d X).epoch = s.epoch := rfl
@[simp] theorem State.setMat_host (d : DstId) (X : Mat) : (s.setMat d X).host = s.host := rfl
@[simp] theorem State.setMat_replies (d : DstId) (X : Mat) : (s.setMat d X).replies = s.replies := rfl

/-! ### `State.setLen` -/

@[simp] theorem State.setLen_cfg (i : Nat) (v : Word) : (s.setLen i v).cfg = s.cfg := rfl
@[simp] theorem State.setLen_rom (i : Nat) (v : Word) : (s.setLen i v).rom = s.rom := rfl
@[simp] theorem State.setLen_cmd (i : Nat) (v : Word) : (s.setLen i v).cmd = s.cmd := rfl
@[simp] theorem State.setLen_busy (i : Nat) (v : Word) : (s.setLen i v).busy = s.busy := rfl
@[simp] theorem State.setLen_fatal (i : Nat) (v : Word) : (s.setLen i v).fatal = s.fatal := rfl
@[simp] theorem State.setLen_err (i : Nat) (v : Word) : (s.setLen i v).err = s.err := rfl
@[simp] theorem State.setLen_res0 (i : Nat) (v : Word) : (s.setLen i v).res0 = s.res0 := rfl
@[simp] theorem State.setLen_arg0 (i : Nat) (v : Word) : (s.setLen i v).arg0 = s.arg0 := rfl
@[simp] theorem State.setLen_arg1 (i : Nat) (v : Word) : (s.setLen i v).arg1 = s.arg1 := rfl
@[simp] theorem State.setLen_arg2 (i : Nat) (v : Word) : (s.setLen i v).arg2 = s.arg2 := rfl
@[simp] theorem State.setLen_arg3 (i : Nat) (v : Word) : (s.setLen i v).arg3 = s.arg3 := rfl
@[simp] theorem State.setLen_coder (i : Nat) (v : Word) : (s.setLen i v).coder = s.coder := rfl
@[simp] theorem State.setLen_nshards (i : Nat) (v : Word) : (s.setLen i v).nshards = s.nshards := rfl
@[simp] theorem State.setLen_mats (i : Nat) (v : Word) : (s.setLen i v).mats = s.mats := rfl
@[simp] theorem State.setLen_len (i : Nat) (v : Word) : (s.setLen i v).len = s.len.setIfInBounds i v := rfl
@[simp] theorem State.setLen_sh (i : Nat) (v : Word) : (s.setLen i v).sh = s.sh := rfl
@[simp] theorem State.setLen_epoch (i : Nat) (v : Word) : (s.setLen i v).epoch = s.epoch := rfl
@[simp] theorem State.setLen_host (i : Nat) (v : Word) : (s.setLen i v).host = s.host := rfl
@[simp] theorem State.setLen_replies (i : Nat) (v : Word) : (s.setLen i v).replies = s.replies := rfl

/-! ### `State.setShByte` -/

@[simp] theorem State.setShByte_cfg (i o : Nat) (v : Byte) : (s.setShByte i o v).cfg = s.cfg := rfl
@[simp] theorem State.setShByte_rom (i o : Nat) (v : Byte) : (s.setShByte i o v).rom = s.rom := rfl
@[simp] theorem State.setShByte_cmd (i o : Nat) (v : Byte) : (s.setShByte i o v).cmd = s.cmd := rfl
@[simp] theorem State.setShByte_busy (i o : Nat) (v : Byte) : (s.setShByte i o v).busy = s.busy := rfl
@[simp] theorem State.setShByte_fatal (i o : Nat) (v : Byte) : (s.setShByte i o v).fatal = s.fatal := rfl
@[simp] theorem State.setShByte_err (i o : Nat) (v : Byte) : (s.setShByte i o v).err = s.err := rfl
@[simp] theorem State.setShByte_res0 (i o : Nat) (v : Byte) : (s.setShByte i o v).res0 = s.res0 := rfl
@[simp] theorem State.setShByte_arg0 (i o : Nat) (v : Byte) : (s.setShByte i o v).arg0 = s.arg0 := rfl
@[simp] theorem State.setShByte_arg1 (i o : Nat) (v : Byte) : (s.setShByte i o v).arg1 = s.arg1 := rfl
@[simp] theorem State.setShByte_arg2 (i o : Nat) (v : Byte) : (s.setShByte i o v).arg2 = s.arg2 := rfl
@[simp] theorem State.setShByte_arg3 (i o : Nat) (v : Byte) : (s.setShByte i o v).arg3 = s.arg3 := rfl
@[simp] theorem State.setShByte_coder (i o : Nat) (v : Byte) : (s.setShByte i o v).coder = s.coder := rfl
@[simp] theorem State.setShByte_nshards (i o : Nat) (v : Byte) : (s.setShByte i o v).nshards = s.nshards := rfl
@[simp] theorem State.setShByte_mats (i o : Nat) (v : Byte) : (s.setShByte i o v).mats = s.mats := rfl
@[simp] theorem State.setShByte_len (i o : Nat) (v : Byte) : (s.setShByte i o v).len = s.len := rfl
@[simp] theorem State.setShByte_sh (i o : Nat) (v : Byte) : (s.setShByte i o v).sh = Memory.write s.sh (shKey i o) v := rfl
@[simp] theorem State.setShByte_epoch (i o : Nat) (v : Byte) : (s.setShByte i o v).epoch = s.epoch := rfl
@[simp] theorem State.setShByte_host (i o : Nat) (v : Byte) : (s.setShByte i o v).host = s.host := rfl
@[simp] theorem State.setShByte_replies (i o : Nat) (v : Byte) : (s.setShByte i o v).replies = s.replies := rfl

/-! ### `State.fillSlots` -/

@[simp] theorem State.fillSlots_cfg (l : List Nat) (L : Nat) (f : Nat → Nat → Byte) : (s.fillSlots l L f).cfg = s.cfg := rfl
@[simp] theorem State.fillSlots_rom (l : List Nat) (L : Nat) (f : Nat → Nat → Byte) : (s.fillSlots l L f).rom = s.rom := rfl
@[simp] theorem State.fillSlots_cmd (l : List Nat) (L : Nat) (f : Nat → Nat → Byte) : (s.fillSlots l L f).cmd = s.cmd := rfl
@[simp] theorem State.fillSlots_busy (l : List Nat) (L : Nat) (f : Nat → Nat → Byte) : (s.fillSlots l L f).busy = s.busy := rfl
@[simp] theorem State.fillSlots_fatal (l : List Nat) (L : Nat) (f : Nat → Nat → Byte) : (s.fillSlots l L f).fatal = s.fatal := rfl
@[simp] theorem State.fillSlots_err (l : List Nat) (L : Nat) (f : Nat → Nat → Byte) : (s.fillSlots l L f).err = s.err := rfl
@[simp] theorem State.fillSlots_res0 (l : List Nat) (L : Nat) (f : Nat → Nat → Byte) : (s.fillSlots l L f).res0 = s.res0 := rfl
@[simp] theorem State.fillSlots_arg0 (l : List Nat) (L : Nat) (f : Nat → Nat → Byte) : (s.fillSlots l L f).arg0 = s.arg0 := rfl
@[simp] theorem State.fillSlots_arg1 (l : List Nat) (L : Nat) (f : Nat → Nat → Byte) : (s.fillSlots l L f).arg1 = s.arg1 := rfl
@[simp] theorem State.fillSlots_arg2 (l : List Nat) (L : Nat) (f : Nat → Nat → Byte) : (s.fillSlots l L f).arg2 = s.arg2 := rfl
@[simp] theorem State.fillSlots_arg3 (l : List Nat) (L : Nat) (f : Nat → Nat → Byte) : (s.fillSlots l L f).arg3 = s.arg3 := rfl
@[simp] theorem State.fillSlots_coder (l : List Nat) (L : Nat) (f : Nat → Nat → Byte) : (s.fillSlots l L f).coder = s.coder := rfl
@[simp] theorem State.fillSlots_nshards (l : List Nat) (L : Nat) (f : Nat → Nat → Byte) : (s.fillSlots l L f).nshards = s.nshards := rfl
@[simp] theorem State.fillSlots_mats (l : List Nat) (L : Nat) (f : Nat → Nat → Byte) : (s.fillSlots l L f).mats = s.mats := rfl
@[simp] theorem State.fillSlots_len (l : List Nat) (L : Nat) (f : Nat → Nat → Byte) : (s.fillSlots l L f).len = s.len := rfl
@[simp] theorem State.fillSlots_sh (l : List Nat) (L : Nat) (f : Nat → Nat → Byte) : (s.fillSlots l L f).sh = Memory.writeAll s.sh (l.flatMap fun i => (List.range L).map fun o => (shKey i o, f i o)) := rfl
@[simp] theorem State.fillSlots_epoch (l : List Nat) (L : Nat) (f : Nat → Nat → Byte) : (s.fillSlots l L f).epoch = s.epoch := rfl
@[simp] theorem State.fillSlots_host (l : List Nat) (L : Nat) (f : Nat → Nat → Byte) : (s.fillSlots l L f).host = s.host := rfl
@[simp] theorem State.fillSlots_replies (l : List Nat) (L : Nat) (f : Nat → Nat → Byte) : (s.fillSlots l L f).replies = s.replies := rfl

/-! ### `State.fail` -/

@[simp] theorem State.fail_cfg (e : Err) : (s.fail e).cfg = s.cfg := rfl
@[simp] theorem State.fail_rom (e : Err) : (s.fail e).rom = s.rom := rfl
@[simp] theorem State.fail_cmd (e : Err) : (s.fail e).cmd = s.cmd := rfl
@[simp] theorem State.fail_busy (e : Err) : (s.fail e).busy = false := rfl
@[simp] theorem State.fail_fatal (e : Err) : (s.fail e).fatal = s.fatal := rfl
@[simp] theorem State.fail_err (e : Err) : (s.fail e).err = e.code := rfl
@[simp] theorem State.fail_res0 (e : Err) : (s.fail e).res0 = s.res0 := rfl
@[simp] theorem State.fail_arg0 (e : Err) : (s.fail e).arg0 = s.arg0 := rfl
@[simp] theorem State.fail_arg1 (e : Err) : (s.fail e).arg1 = s.arg1 := rfl
@[simp] theorem State.fail_arg2 (e : Err) : (s.fail e).arg2 = s.arg2 := rfl
@[simp] theorem State.fail_arg3 (e : Err) : (s.fail e).arg3 = s.arg3 := rfl
@[simp] theorem State.fail_coder (e : Err) : (s.fail e).coder = s.coder := rfl
@[simp] theorem State.fail_nshards (e : Err) : (s.fail e).nshards = s.nshards := rfl
@[simp] theorem State.fail_mats (e : Err) : (s.fail e).mats = s.mats := rfl
@[simp] theorem State.fail_len (e : Err) : (s.fail e).len = s.len := rfl
@[simp] theorem State.fail_sh (e : Err) : (s.fail e).sh = s.sh := rfl
@[simp] theorem State.fail_epoch (e : Err) : (s.fail e).epoch = s.epoch := rfl
@[simp] theorem State.fail_host (e : Err) : (s.fail e).host = s.host := rfl
@[simp] theorem State.fail_replies (e : Err) : (s.fail e).replies = s.replies := rfl

/-! ### `State.succeed` -/

@[simp] theorem State.succeed_cfg : (s.succeed).cfg = s.cfg := rfl
@[simp] theorem State.succeed_rom : (s.succeed).rom = s.rom := rfl
@[simp] theorem State.succeed_cmd : (s.succeed).cmd = s.cmd := rfl
@[simp] theorem State.succeed_busy : (s.succeed).busy = false := rfl
@[simp] theorem State.succeed_fatal : (s.succeed).fatal = s.fatal := rfl
@[simp] theorem State.succeed_err : (s.succeed).err = 0 := rfl
@[simp] theorem State.succeed_res0 : (s.succeed).res0 = s.res0 := rfl
@[simp] theorem State.succeed_arg0 : (s.succeed).arg0 = s.arg0 := rfl
@[simp] theorem State.succeed_arg1 : (s.succeed).arg1 = s.arg1 := rfl
@[simp] theorem State.succeed_arg2 : (s.succeed).arg2 = s.arg2 := rfl
@[simp] theorem State.succeed_arg3 : (s.succeed).arg3 = s.arg3 := rfl
@[simp] theorem State.succeed_coder : (s.succeed).coder = s.coder := rfl
@[simp] theorem State.succeed_nshards : (s.succeed).nshards = s.nshards := rfl
@[simp] theorem State.succeed_mats : (s.succeed).mats = s.mats := rfl
@[simp] theorem State.succeed_len : (s.succeed).len = s.len := rfl
@[simp] theorem State.succeed_sh : (s.succeed).sh = s.sh := rfl
@[simp] theorem State.succeed_epoch : (s.succeed).epoch = s.epoch := rfl
@[simp] theorem State.succeed_host : (s.succeed).host = s.host := rfl
@[simp] theorem State.succeed_replies : (s.succeed).replies = s.replies := rfl

/-! ### `State.lock` -/

@[simp] theorem State.lock_cfg : (s.lock).cfg = s.cfg := rfl
@[simp] theorem State.lock_rom : (s.lock).rom = s.rom := rfl
@[simp] theorem State.lock_cmd : (s.lock).cmd = s.cmd := rfl
@[simp] theorem State.lock_busy : (s.lock).busy = s.busy := rfl
@[simp] theorem State.lock_fatal : (s.lock).fatal = true := rfl
@[simp] theorem State.lock_err : (s.lock).err = s.err := rfl
@[simp] theorem State.lock_res0 : (s.lock).res0 = s.res0 := rfl
@[simp] theorem State.lock_arg0 : (s.lock).arg0 = s.arg0 := rfl
@[simp] theorem State.lock_arg1 : (s.lock).arg1 = s.arg1 := rfl
@[simp] theorem State.lock_arg2 : (s.lock).arg2 = s.arg2 := rfl
@[simp] theorem State.lock_arg3 : (s.lock).arg3 = s.arg3 := rfl
@[simp] theorem State.lock_coder : (s.lock).coder = s.coder := rfl
@[simp] theorem State.lock_nshards : (s.lock).nshards = s.nshards := rfl
@[simp] theorem State.lock_mats : (s.lock).mats = s.mats := rfl
@[simp] theorem State.lock_len : (s.lock).len = s.len := rfl
@[simp] theorem State.lock_sh : (s.lock).sh = s.sh := rfl
@[simp] theorem State.lock_epoch : (s.lock).epoch = s.epoch := rfl
@[simp] theorem State.lock_host : (s.lock).host = s.host := rfl
@[simp] theorem State.lock_replies : (s.lock).replies = s.replies := rfl

/-! ### `State.reply` -/

@[simp] theorem State.reply_cfg (r : Reply) : (s.reply r).cfg = s.cfg := rfl
@[simp] theorem State.reply_rom (r : Reply) : (s.reply r).rom = s.rom := rfl
@[simp] theorem State.reply_cmd (r : Reply) : (s.reply r).cmd = s.cmd := rfl
@[simp] theorem State.reply_busy (r : Reply) : (s.reply r).busy = s.busy := rfl
@[simp] theorem State.reply_fatal (r : Reply) : (s.reply r).fatal = s.fatal := rfl
@[simp] theorem State.reply_err (r : Reply) : (s.reply r).err = s.err := rfl
@[simp] theorem State.reply_res0 (r : Reply) : (s.reply r).res0 = s.res0 := rfl
@[simp] theorem State.reply_arg0 (r : Reply) : (s.reply r).arg0 = s.arg0 := rfl
@[simp] theorem State.reply_arg1 (r : Reply) : (s.reply r).arg1 = s.arg1 := rfl
@[simp] theorem State.reply_arg2 (r : Reply) : (s.reply r).arg2 = s.arg2 := rfl
@[simp] theorem State.reply_arg3 (r : Reply) : (s.reply r).arg3 = s.arg3 := rfl
@[simp] theorem State.reply_coder (r : Reply) : (s.reply r).coder = s.coder := rfl
@[simp] theorem State.reply_nshards (r : Reply) : (s.reply r).nshards = s.nshards := rfl
@[simp] theorem State.reply_mats (r : Reply) : (s.reply r).mats = s.mats := rfl
@[simp] theorem State.reply_len (r : Reply) : (s.reply r).len = s.len := rfl
@[simp] theorem State.reply_sh (r : Reply) : (s.reply r).sh = s.sh := rfl
@[simp] theorem State.reply_epoch (r : Reply) : (s.reply r).epoch = s.epoch := rfl
@[simp] theorem State.reply_host (r : Reply) : (s.reply r).host = s.host := rfl
@[simp] theorem State.reply_replies (r : Reply) : (s.reply r).replies = s.replies ++ [r] := rfl

/-! ### `State.accept` -/

@[simp] theorem State.accept_cfg (w : Word) : (s.accept w).cfg = s.cfg := rfl
@[simp] theorem State.accept_rom (w : Word) : (s.accept w).rom = s.rom := rfl
@[simp] theorem State.accept_cmd (w : Word) : (s.accept w).cmd = w := rfl
@[simp] theorem State.accept_busy (w : Word) : (s.accept w).busy = true := rfl
@[simp] theorem State.accept_fatal (w : Word) : (s.accept w).fatal = s.fatal := rfl
@[simp] theorem State.accept_err (w : Word) : (s.accept w).err = s.err := rfl
@[simp] theorem State.accept_res0 (w : Word) : (s.accept w).res0 = s.res0 := rfl
@[simp] theorem State.accept_arg0 (w : Word) : (s.accept w).arg0 = s.arg0 := rfl
@[simp] theorem State.accept_arg1 (w : Word) : (s.accept w).arg1 = s.arg1 := rfl
@[simp] theorem State.accept_arg2 (w : Word) : (s.accept w).arg2 = s.arg2 := rfl
@[simp] theorem State.accept_arg3 (w : Word) : (s.accept w).arg3 = s.arg3 := rfl
@[simp] theorem State.accept_coder (w : Word) : (s.accept w).coder = s.coder := rfl
@[simp] theorem State.accept_nshards (w : Word) : (s.accept w).nshards = s.nshards := rfl
@[simp] theorem State.accept_mats (w : Word) : (s.accept w).mats = s.mats := rfl
@[simp] theorem State.accept_len (w : Word) : (s.accept w).len = s.len := rfl
@[simp] theorem State.accept_sh (w : Word) : (s.accept w).sh = s.sh := rfl
@[simp] theorem State.accept_epoch (w : Word) : (s.accept w).epoch = s.epoch := rfl
@[simp] theorem State.accept_host (w : Word) : (s.accept w).host = s.host := rfl
@[simp] theorem State.accept_replies (w : Word) : (s.accept w).replies = s.replies := rfl

/-! ### `State.resetEvent` -/

@[simp] theorem State.resetEvent_cfg : (s.resetEvent).cfg = s.cfg := by simp only [State.resetEvent, State.resetWith]
@[simp] theorem State.resetEvent_rom : (s.resetEvent).rom = (State.resetWith s.cfg).rom := rfl
@[simp] theorem State.resetEvent_cmd : (s.resetEvent).cmd = (State.resetWith s.cfg).cmd := rfl
@[simp] theorem State.resetEvent_busy : (s.resetEvent).busy = (State.resetWith s.cfg).busy := rfl
@[simp] theorem State.resetEvent_fatal : (s.resetEvent).fatal = (State.resetWith s.cfg).fatal := rfl
@[simp] theorem State.resetEvent_err : (s.resetEvent).err = (State.resetWith s.cfg).err := rfl
@[simp] theorem State.resetEvent_res0 : (s.resetEvent).res0 = (State.resetWith s.cfg).res0 := rfl
@[simp] theorem State.resetEvent_arg0 : (s.resetEvent).arg0 = (State.resetWith s.cfg).arg0 := rfl
@[simp] theorem State.resetEvent_arg1 : (s.resetEvent).arg1 = (State.resetWith s.cfg).arg1 := rfl
@[simp] theorem State.resetEvent_arg2 : (s.resetEvent).arg2 = (State.resetWith s.cfg).arg2 := rfl
@[simp] theorem State.resetEvent_arg3 : (s.resetEvent).arg3 = (State.resetWith s.cfg).arg3 := rfl
@[simp] theorem State.resetEvent_coder : (s.resetEvent).coder = (State.resetWith s.cfg).coder := rfl
@[simp] theorem State.resetEvent_nshards : (s.resetEvent).nshards = (State.resetWith s.cfg).nshards := rfl
@[simp] theorem State.resetEvent_mats : (s.resetEvent).mats = (State.resetWith s.cfg).mats := rfl
@[simp] theorem State.resetEvent_len : (s.resetEvent).len = (State.resetWith s.cfg).len := rfl
@[simp] theorem State.resetEvent_sh : (s.resetEvent).sh = (State.resetWith s.cfg).sh := rfl
@[simp] theorem State.resetEvent_epoch : (s.resetEvent).epoch = s.epoch + 1 := rfl
@[simp] theorem State.resetEvent_host : (s.resetEvent).host = s.host := by simp only [State.resetEvent, State.resetWith]
@[simp] theorem State.resetEvent_replies : (s.resetEvent).replies = s.replies := by simp only [State.resetEvent, State.resetWith]

/-! ### `State.issue` -/

@[simp] theorem State.issue_cfg (w : Word) : (s.issue w).cfg = s.cfg := rfl
@[simp] theorem State.issue_rom (w : Word) : (s.issue w).rom = s.rom := rfl
@[simp] theorem State.issue_cmd (w : Word) : (s.issue w).cmd = s.cmd := rfl
@[simp] theorem State.issue_busy (w : Word) : (s.issue w).busy = false := rfl
@[simp] theorem State.issue_fatal (w : Word) : (s.issue w).fatal = s.fatal := rfl
@[simp] theorem State.issue_err (w : Word) : (s.issue w).err = s.err := rfl
@[simp] theorem State.issue_res0 (w : Word) : (s.issue w).res0 = s.res0 := rfl
@[simp] theorem State.issue_arg0 (w : Word) : (s.issue w).arg0 = s.arg0 := rfl
@[simp] theorem State.issue_arg1 (w : Word) : (s.issue w).arg1 = s.arg1 := rfl
@[simp] theorem State.issue_arg2 (w : Word) : (s.issue w).arg2 = s.arg2 := rfl
@[simp] theorem State.issue_arg3 (w : Word) : (s.issue w).arg3 = s.arg3 := rfl
@[simp] theorem State.issue_coder (w : Word) : (s.issue w).coder = s.coder := rfl
@[simp] theorem State.issue_nshards (w : Word) : (s.issue w).nshards = s.nshards := rfl
@[simp] theorem State.issue_mats (w : Word) : (s.issue w).mats = s.mats := rfl
@[simp] theorem State.issue_len (w : Word) : (s.issue w).len = s.len := rfl
@[simp] theorem State.issue_sh (w : Word) : (s.issue w).sh = s.sh := rfl
@[simp] theorem State.issue_epoch (w : Word) : (s.issue w).epoch = s.epoch := rfl
@[simp] theorem State.issue_host (w : Word) : (s.issue w).host = .writeReg 0x000 w :: s.host := rfl
@[simp] theorem State.issue_replies (w : Word) : (s.issue w).replies = s.replies := rfl

/-! ### `State.setLens` -/

/-- `setLens` writes only `len`. -/
theorem State.setLens_eq (l : List Nat) (v : Word) :
    s.setLens l v = { s with len := l.foldl (fun u i => u.setIfInBounds i v) s.len } := by
  unfold State.setLens
  induction l generalizing s with
  | nil => rfl
  | cons i l ih => simp only [List.foldl_cons, ih]; rfl

@[simp] theorem State.setLens_cfg (l : List Nat) (v : Word) : (s.setLens l v).cfg = s.cfg := by rw [State.setLens_eq]
@[simp] theorem State.setLens_rom (l : List Nat) (v : Word) : (s.setLens l v).rom = s.rom := by rw [State.setLens_eq]
@[simp] theorem State.setLens_cmd (l : List Nat) (v : Word) : (s.setLens l v).cmd = s.cmd := by rw [State.setLens_eq]
@[simp] theorem State.setLens_busy (l : List Nat) (v : Word) : (s.setLens l v).busy = s.busy := by rw [State.setLens_eq]
@[simp] theorem State.setLens_fatal (l : List Nat) (v : Word) : (s.setLens l v).fatal = s.fatal := by rw [State.setLens_eq]
@[simp] theorem State.setLens_err (l : List Nat) (v : Word) : (s.setLens l v).err = s.err := by rw [State.setLens_eq]
@[simp] theorem State.setLens_res0 (l : List Nat) (v : Word) : (s.setLens l v).res0 = s.res0 := by rw [State.setLens_eq]
@[simp] theorem State.setLens_arg0 (l : List Nat) (v : Word) : (s.setLens l v).arg0 = s.arg0 := by rw [State.setLens_eq]
@[simp] theorem State.setLens_arg1 (l : List Nat) (v : Word) : (s.setLens l v).arg1 = s.arg1 := by rw [State.setLens_eq]
@[simp] theorem State.setLens_arg2 (l : List Nat) (v : Word) : (s.setLens l v).arg2 = s.arg2 := by rw [State.setLens_eq]
@[simp] theorem State.setLens_arg3 (l : List Nat) (v : Word) : (s.setLens l v).arg3 = s.arg3 := by rw [State.setLens_eq]
@[simp] theorem State.setLens_coder (l : List Nat) (v : Word) : (s.setLens l v).coder = s.coder := by rw [State.setLens_eq]
@[simp] theorem State.setLens_nshards (l : List Nat) (v : Word) : (s.setLens l v).nshards = s.nshards := by rw [State.setLens_eq]
@[simp] theorem State.setLens_mats (l : List Nat) (v : Word) : (s.setLens l v).mats = s.mats := by rw [State.setLens_eq]
@[simp] theorem State.setLens_len (l : List Nat) (v : Word) : (s.setLens l v).len = l.foldl (fun u i => u.setIfInBounds i v) s.len := by rw [State.setLens_eq]
@[simp] theorem State.setLens_sh (l : List Nat) (v : Word) : (s.setLens l v).sh = s.sh := by rw [State.setLens_eq]
@[simp] theorem State.setLens_epoch (l : List Nat) (v : Word) : (s.setLens l v).epoch = s.epoch := by rw [State.setLens_eq]
@[simp] theorem State.setLens_host (l : List Nat) (v : Word) : (s.setLens l v).host = s.host := by rw [State.setLens_eq]
@[simp] theorem State.setLens_replies (l : List Nat) (v : Word) : (s.setLens l v).replies = s.replies := by rw [State.setLens_eq]

/-- A slot that is not listed keeps its length. -/
theorem State.len_setLens_other {l : List Nat} (v : Word) {i : Fin 256} (h : i.val ∉ l) : (s.setLens l v).len[i] = s.len[i] := by
  induction l generalizing s with
  | nil => rfl
  | cons j l ih =>
    rw [List.mem_cons, not_or] at h
    refine (ih (s.setLen j v) h.2).trans ?_
    simp [State.setLen, Ne.symm h.1]

/-! ### The reset state -/

@[simp] theorem State.resetWith_cfg (c : Cfg) : (State.resetWith c).cfg = c := rfl
@[simp] theorem State.resetWith_rom (c : Cfg) : (State.resetWith c).rom = Tables.ofCfg c := rfl
@[simp] theorem State.resetWith_cmd (c : Cfg) : (State.resetWith c).cmd = 0 := rfl
@[simp] theorem State.resetWith_busy (c : Cfg) : (State.resetWith c).busy = false := rfl
@[simp] theorem State.resetWith_fatal (c : Cfg) : (State.resetWith c).fatal = false := rfl
@[simp] theorem State.resetWith_err (c : Cfg) : (State.resetWith c).err = 0 := rfl
@[simp] theorem State.resetWith_res0 (c : Cfg) : (State.resetWith c).res0 = 0 := rfl
@[simp] theorem State.resetWith_arg0 (c : Cfg) : (State.resetWith c).arg0 = 0 := rfl
@[simp] theorem State.resetWith_arg1 (c : Cfg) : (State.resetWith c).arg1 = 0 := rfl
@[simp] theorem State.resetWith_arg2 (c : Cfg) : (State.resetWith c).arg2 = 0 := rfl
@[simp] theorem State.resetWith_arg3 (c : Cfg) : (State.resetWith c).arg3 = 0 := rfl
@[simp] theorem State.resetWith_coder (c : Cfg) : (State.resetWith c).coder = none := rfl
@[simp] theorem State.resetWith_nshards (c : Cfg) : (State.resetWith c).nshards = 0 := rfl
@[simp] theorem State.resetWith_mats (c : Cfg) : (State.resetWith c).mats = Vector.replicate 4 ⟨0, 0, #[]⟩ := rfl
@[simp] theorem State.resetWith_len (c : Cfg) : (State.resetWith c).len = Vector.replicate 256 0 := rfl
@[simp] theorem State.resetWith_sh (c : Cfg) : (State.resetWith c).sh = [] := rfl
@[simp] theorem State.resetWith_epoch (c : Cfg) : (State.resetWith c).epoch = 0 := rfl
@[simp] theorem State.resetWith_host (c : Cfg) : (State.resetWith c).host = [] := rfl
@[simp] theorem State.resetWith_replies (c : Cfg) : (State.resetWith c).replies = [] := rfl

end Sys2Proof.Machine
end

