-- ==== Sys2Proof/Laws/Matrix.lean ====
section
/-! SUPPORT. The laws of matrix values: elements of a matrix given by a function, the shape of every result, and the sums. -/

namespace Sys2Proof.Machine

@[simp] theorem Mat.rows_ofFn (r c : Nat) (f : Nat → Nat → Byte) : (Mat.ofFn r c f).rows = r := rfl
@[simp] theorem Mat.cols_ofFn (r c : Nat) (f : Nat → Nat → Byte) : (Mat.ofFn r c f).cols = c := rfl

@[simp] theorem Mat.wf_ofFn (r c : Nat) (f : Nat → Nat → Byte) : (Mat.ofFn r c f).wf := by
  simp [Mat.wf, Mat.ofFn]

/-- A linear index below rows * cols. -/
theorem linear_lt {rows cols r c : Nat} (hr : r < rows) (hc : c < cols) : r * cols + c < rows * cols := by
  have h : r * cols + cols ≤ rows * cols := by
    have := Nat.mul_le_mul_right cols (Nat.succ_le_of_lt hr)
    simpa [Nat.succ_mul] using this
  omega

theorem linear_div {cols r c : Nat} (hc : c < cols) : (r * cols + c) / cols = r := by
  rw [Nat.add_comm, Nat.add_mul_div_right _ _ (by omega), Nat.div_eq_of_lt hc, Nat.zero_add]

theorem linear_mod {cols r c : Nat} (hc : c < cols) : (r * cols + c) % cols = c := by
  rw [Nat.add_comm, Nat.add_mul_mod_self_right, Nat.mod_eq_of_lt hc]

/-- The element of a matrix given by a function. -/
theorem Mat.at_ofFn {rows cols : Nat} (f : Nat → Nat → Byte) {r c : Nat} (hr : r < rows) (hc : c < cols) :
    (Mat.ofFn rows cols f).at r c = f r c := by
  have h := linear_lt hr hc
  simp [Mat.at, Mat.ofFn, h, linear_div hc, linear_mod hc]

/-- Two matrices of the same shape, both with all their elements, are equal when their elements are. -/
theorem Mat.ext_at {A B : Mat} (hA : A.wf) (hB : B.wf) (hr : A.rows = B.rows) (hc : A.cols = B.cols)
    (h : ∀ r c, r < A.rows → c < A.cols → A.at r c = B.at r c) : A = B := by
  obtain ⟨ra, ca, ea⟩ := A
  obtain ⟨rb, cb, eb⟩ := B
  simp only at hr hc
  subst hr hc
  simp only [Mat.wf] at hA hB
  congr 1
  refine Array.ext (hA.trans hB.symm) fun x hx hx' => ?_
  rw [hA] at hx
  have hpos : 0 < ca := Nat.pos_of_ne_zero fun e => by simp [e] at hx
  have hrow : x / ca < ra := Nat.div_lt_of_lt_mul (by rwa [Nat.mul_comm] at hx)
  have hcol : x % ca < ca := Nat.mod_lt _ hpos
  have := h (x / ca) (x % ca) hrow hcol
  simp only [Mat.at] at this
  rw [Nat.mul_comm, Nat.div_add_mod] at this
  simpa [Array.getD, hA, hB, hx] using this

/-- A matrix with all its elements is the matrix of its elements. -/
theorem Mat.ofFn_at {A : Mat} (h : A.wf) : Mat.ofFn A.rows A.cols A.at = A :=
  Mat.ext_at (Mat.wf_ofFn _ _ _) h rfl rfl fun _ _ hr hc => Mat.at_ofFn _ hr hc

theorem Mat.ofFn_congr {rows cols : Nat} {f g : Nat → Nat → Byte}
    (h : ∀ r c, r < rows → c < cols → f r c = g r c) : Mat.ofFn rows cols f = Mat.ofFn rows cols g :=
  Mat.ext_at (Mat.wf_ofFn _ _ _) (Mat.wf_ofFn _ _ _) rfl rfl fun r c hr hc => by
    simp only [Mat.rows_ofFn, Mat.cols_ofFn] at hr hc
    rw [Mat.at_ofFn f hr hc, Mat.at_ofFn g hr hc, h r c hr hc]

/-! ### Sums -/

@[simp] theorem xorSum_zero (f : Nat → Byte) : xorSum 0 f = 0 := rfl
theorem xorSum_succ (n : Nat) (f : Nat → Byte) : xorSum (n + 1) f = xorSum n f ^^^ f n := rfl

theorem xorSum_congr {n : Nat} {f g : Nat → Byte} (h : ∀ i < n, f i = g i) : xorSum n f = xorSum n g := by
  induction n with
  | zero => rfl
  | succ n ih => rw [xorSum_succ, xorSum_succ, ih fun i hi => h i (by omega), h n (by omega)]

theorem xorSum_const_zero (n : Nat) : xorSum n (fun _ => 0#8) = 0#8 := by
  induction n with
  | zero => rfl
  | succ n ih => simp [xorSum_succ, ih]

theorem xorSum_xor (n : Nat) (f g : Nat → Byte) :
    xorSum n (fun i => f i ^^^ g i) = xorSum n f ^^^ xorSum n g := by
  induction n with
  | zero => simp
  | succ n ih => simp only [xorSum_succ, ih]; ac_rfl

/-- A sum with one nonzero term. -/
theorem xorSum_single {n i : Nat} (hi : i < n) (f : Nat → Byte) (h : ∀ j < n, j ≠ i → f j = 0) :
    xorSum n f = f i := by
  induction n with
  | zero => omega
  | succ n ih =>
    rw [xorSum_succ]
    by_cases hn : i = n
    · subst hn
      rw [xorSum_congr (g := fun _ => 0#8) fun j hj => h j (by omega) (by omega), xorSum_const_zero]
      simp
    · rw [ih (by omega) fun j hj hji => h j (by omega) hji, h n (by omega) (Ne.symm hn)]
      simp

/-- Two sums exchanged. -/
theorem xorSum_comm (n m : Nat) (f : Nat → Nat → Byte) :
    xorSum n (fun i => xorSum m fun j => f i j) = xorSum m fun j => xorSum n fun i => f i j := by
  induction n with
  | zero => simp [xorSum_const_zero]
  | succ n ih => simp only [xorSum_succ, ih, xorSum_xor]

/-! ### What the matrix functions answer -/

@[simp] theorem matNew_rows (r c : Nat) : (matNew r c).rows = r := rfl
@[simp] theorem matNew_cols (r c : Nat) : (matNew r c).cols = c := rfl
@[simp] theorem matNew_wf (r c : Nat) : (matNew r c).wf := by simp [Mat.wf, matNew]

/-- Every element of `MatNew` is 0x00. -/
theorem matNew_at (rows cols r c : Nat) : (matNew rows cols).at r c = 0 := by
  simp only [Mat.at, matNew, Array.getD_eq_getD_getElem?]
  cases h : ((List.replicate (rows * cols) (0 : Byte)).toArray)[r * cols + c]? with
  | none => rfl
  | some v =>
    rw [List.getElem?_toArray, List.getElem?_replicate] at h
    split at h
    · exact (Option.some.inj h).symm
    · cases h

@[simp] theorem matIdentity_rows (n : Nat) : (matIdentity n).rows = n := rfl
@[simp] theorem matIdentity_cols (n : Nat) : (matIdentity n).cols = n := rfl
@[simp] theorem matIdentity_wf (n : Nat) : (matIdentity n).wf := Mat.wf_ofFn _ _ _

theorem matIdentity_at {n r c : Nat} (hr : r < n) (hc : c < n) :
    (matIdentity n).at r c = if r = c then 1 else 0 := Mat.at_ofFn _ hr hc

/-- `MatMul` answers exactly when the inner dimensions agree, with the product. -/
theorem matMul_ok {t : Tables} {A B X : Mat} (h : matMul t A B = .ok X) :
    A.cols = B.rows ∧ X = Mat.ofFn A.rows B.cols fun r c => xorSum A.cols fun i => gfMul t (A.at r i) (B.at i c) := by
  unfold matMul at h
  split at h
  · cases h
  · next hd => exact ⟨not_not.1 hd, (Except.ok.inj h).symm⟩

theorem matSub_ok {A X : Mat} {r0 r1 c0 c1 : Nat} (h : matSub A r0 r1 c0 c1 = .ok X) :
    (r0 ≤ r1 ∧ r1 ≤ A.rows ∧ c0 ≤ c1 ∧ c1 ≤ A.cols) ∧
      X = Mat.ofFn (r1 - r0) (c1 - c0) fun i j => A.at (r0 + i) (c0 + j) := by
  unfold matSub at h
  split at h
  · next hd => exact ⟨hd, (Except.ok.inj h).symm⟩
  · cases h

theorem matAugment_ok {A B X : Mat} (h : matAugment A B = .ok X) :
    A.rows = B.rows ∧
      X = Mat.ofFn A.rows (A.cols + B.cols) fun r c => if c < A.cols then A.at r c else B.at r (c - A.cols) := by
  unfold matAugment at h
  split at h
  · cases h
  · next hd => exact ⟨not_not.1 hd, (Except.ok.inj h).symm⟩

/-- The pivot that the search finds is a row from c on with a nonzero element in column c, and the least one. -/
theorem findPivot_some {W : Mat} {n c p : Nat} (h : findPivot W n c = some p) :
    p < n ∧ c ≤ p ∧ W.at p c ≠ 0 ∧ ∀ r, c ≤ r → r < p → W.at r c = 0 := by
  unfold findPivot at h
  rw [List.find?_range_eq_some] at h
  obtain ⟨h1, h2, h3⟩ := h
  simp only [Bool.and_eq_true, decide_eq_true_eq, bne_iff_ne] at h1
  refine ⟨List.mem_range.1 h2, h1.1, h1.2, fun r hcr hrp => ?_⟩
  have := h3 r hrp
  simpa [hcr] using this

/-- The search fails exactly when the column is zero from row c on. -/
theorem findPivot_none {W : Mat} {n c : Nat} (h : findPivot W n c = none) :
    ∀ r, c ≤ r → r < n → W.at r c = 0 := by
  unfold findPivot at h
  intro r hcr hrn
  have := List.find?_eq_none.1 h r (List.mem_range.2 hrn)
  simpa [hcr] using this

/-- A pass of the pipeline keeps the shape of the work matrix. -/
theorem invertPass_shape {t : Tables} {n c : Nat} {W X : Mat} (h : invertPass t n c W = .ok X) :
    X.rows = W.rows ∧ X.cols = W.cols := by
  unfold invertPass at h
  split at h
  · cases h
  · next p _ =>
    simp only at h
    split at h
    · cases h
    · cases h
      by_cases hp : p ≠ c <;> simp [eliminateColumn, scaleRow, swapRows, hp]

theorem invertPasses_shape {t : Tables} {n : Nat} {cs : List Nat} {W X : Mat}
    (h : invertPasses t n cs W = .ok X) : X.rows = W.rows ∧ X.cols = W.cols := by
  induction cs generalizing W with
  | nil => cases h; exact ⟨rfl, rfl⟩
  | cons c cs ih =>
    simp only [invertPasses] at h
    split at h
    · cases h
    · next W' hW =>
      have h1 := ih h
      have h2 := invertPass_shape hW
      exact ⟨h1.1.trans h2.1, h1.2.trans h2.2⟩

end Sys2Proof.Machine
end

