-- ==== Sys2Proof/Laws/Ops.lean ====
section
/-! SUPPORT. What the shared operations of a command can do, once each: its completion (60_exceptions.md R262), its operands, its sources and its destination. -/

namespace Sys2Proof.Machine

/-! ### Completion -/

theorem State.complete_ok (s t : State) : s.complete (.ok t) = t.succeed := rfl
theorem State.complete_error (s : State) (e : Err) : s.complete (.error e) = s.fail e := rfl

/-- Under the fatal lock a command completes with `BadState`. -/
theorem runCommand_fatal {s : State} (h : s.fatal = true) (r : Except Err State) :
    runCommand s r = .next (s.fail .badState) := by simp [runCommand, h]

/-- Without the lock a command completes as its rule says. -/
theorem runCommand_ready {s : State} (h : s.fatal = false) (r : Except Err State) :
    runCommand s r = .next (s.complete r) := by simp [runCommand, h]

/-- Everything `runCommand` can answer. -/
theorem runCommand_cases {s t : State} {r : Except Err State} (h : runCommand s r = .next t) :
    (∃ e, t = s.fail e) ∨ (s.fatal = false ∧ ∃ u, r = .ok u ∧ t = u.succeed) := by
  cases hf : s.fatal with
  | true => rw [runCommand_fatal hf] at h; cases h; exact .inl ⟨_, rfl⟩
  | false =>
    rw [runCommand_ready hf] at h
    cases h
    cases r with
    | error e => exact .inl ⟨e, rfl⟩
    | ok u => exact .inr ⟨rfl, u, rfl, rfl⟩

/-- `runCommand` always completes. -/
theorem runCommand_next (s : State) (r : Except Err State) : ∃ t, runCommand s r = .next t := by
  unfold runCommand; split <;> exact ⟨_, rfl⟩

theorem runLockingCommand_fatal {s : State} (h : s.fatal = true) (r : Except Err State) :
    runLockingCommand s r = .next (s.fail .badState) := by
  unfold runLockingCommand
  split
  · simp [h]
  · exact runCommand_fatal h r

theorem runLockingCommand_ok {s u : State} (h : s.fatal = false) :
    runLockingCommand s (.ok u) = .next u.succeed := runCommand_ready h _

theorem runLockingCommand_singular {s : State} (h : s.fatal = false) :
    runLockingCommand s (.error .singularMatrix) = .next (s.fail .singularMatrix).lock := by
  simp [runLockingCommand, h]

theorem runLockingCommand_error {s : State} (h : s.fatal = false) {e : Err} (he : e ≠ .singularMatrix) :
    runLockingCommand s (.error e) = .next (s.fail e) := by
  unfold runLockingCommand
  split
  · next h' => cases h'; exact absurd rfl he
  · exact runCommand_ready h _

/-- Everything `runLockingCommand` can answer. -/
theorem runLockingCommand_cases {s t : State} {r : Except Err State} (h : runLockingCommand s r = .next t) :
    (∃ e, t = s.fail e) ∨ (s.fatal = false ∧ r = .error .singularMatrix ∧ t = (s.fail .singularMatrix).lock) ∨
      (s.fatal = false ∧ ∃ u, r = .ok u ∧ t = u.succeed) := by
  cases hf : s.fatal with
  | true => rw [runLockingCommand_fatal hf] at h; cases h; exact .inl ⟨_, rfl⟩
  | false =>
    cases r with
    | ok u => rw [runLockingCommand_ok hf] at h; cases h; exact .inr (.inr ⟨rfl, u, rfl, rfl⟩)
    | error e =>
      by_cases he : e = .singularMatrix
      · subst he
        rw [runLockingCommand_singular hf] at h; cases h; exact .inr (.inl ⟨rfl, rfl, rfl⟩)
      · rw [runLockingCommand_error hf he] at h; cases h; exact .inl ⟨e, rfl⟩

theorem runLockingCommand_next (s : State) (r : Except Err State) : ∃ t, runLockingCommand s r = .next t := by
  unfold runLockingCommand
  split
  · split <;> exact ⟨_, rfl⟩
  · exact runCommand_next s _

/-! ### Rules of commands as values of Except -/

/-- A bind answers a state when its first part answers a value on which the second does. -/
theorem bind_ok {α β : Type} {x : Except Err α} {f : α → Except Err β} {b : β} (h : x >>= f = .ok b) :
    ∃ a, x = .ok a ∧ f a = .ok b := by
  cases x with
  | error e => cases h
  | ok a => exact ⟨a, rfl, h⟩

@[simp] theorem bind_ok_eq {α β : Type} (a : α) (f : α → Except Err β) : (Except.ok a >>= f) = f a := rfl
@[simp] theorem bind_error_eq {α β : Type} (e : Err) (f : α → Except Err β) :
    ((Except.error e : Except Err α) >>= f) = .error e := rfl

@[simp] theorem raiseIf_true (e : Err) : raiseIf true e = .error e := rfl
@[simp] theorem raiseIf_false (e : Err) : raiseIf false e = .ok () := rfl

theorem raiseIf_ok {b : Bool} {e : Err} {u : Unit} (h : raiseIf b e = .ok u) : b = false := by
  cases b with
  | false => rfl
  | true => cases h

/-! ### Operands -/

theorem fieldElement_ok {v : Word} (h : v.toNat ≤ 0xFF) : fieldElement v = .ok (v.setWidth 8) := by
  simp [fieldElement, Nat.not_lt.2 h]

theorem fieldElement_error {v : Word} (h : v.toNat > 0xFF) : fieldElement v = .error .operandRange := by
  simp [fieldElement, h]

/-- Everything a source field can give. -/
theorem State.src_ok {s : State} {id : SrcId} {A : Mat} (h : s.src id = .ok A) :
    (∃ b : Fin 4, b.val = id.val ∧ A = s.mats[b]) ∨ (id = 4 ∧ ∃ c, s.coder = some c ∧ A = c.cm) := by
  unfold State.src at h
  split at h
  · next hid => exact .inl ⟨⟨id.val, by omega⟩, rfl, (Except.ok.inj h).symm⟩
  · split at h
    · next h4 =>
      refine .inr ⟨Fin.ext h4, ?_⟩
      split at h
      · next c hc => exact ⟨c, hc, (Except.ok.inj h).symm⟩
      · cases h
    · cases h

theorem State.src_buffer (s : State) (b : Fin 4) : s.src ⟨b.val, by omega⟩ = .ok s.mats[b] := by
  have : b.val ≤ 3 := by omega
  simp [State.src, this]

theorem State.src_coder {s : State} {c : Coder} (h : s.coder = some c) : s.src 4 = .ok c.cm := by
  simp [State.src, h]

theorem State.src_unconfigured {s : State} (h : s.coder = none) : s.src 4 = .error .badState := by
  simp [State.src, h]

theorem State.source_ok {s : State} {ma : SrcId} {A : Mat} (h : s.source ma = .ok A) : s.src ma = .ok A := by
  unfold State.source at h
  split at h
  · exact h
  · cases h

theorem State.sources_ok {s : State} {ma mb : SrcId} {AB : Mat × Mat} (h : s.sources ma mb = .ok AB) :
    s.src ma = .ok AB.1 ∧ s.src mb = .ok AB.2 := by
  unfold State.sources at h
  split at h
  · split at h
    · next A B hA hB => cases h; exact ⟨hA, hB⟩
    · cases h
    · cases h
  · cases h

/-- Everything the destination can do. -/
theorem State.dst_ok {s t : State} {d : DstId} {X : Mat} (h : s.dst d X = .ok t) :
    X.rows ≤ 256 ∧ X.cols ≤ 512 ∧ t = s.setMat d X := by
  unfold State.dst at h
  split at h
  · cases h
  · next hd => exact ⟨by omega, by omega, (Except.ok.inj h).symm⟩

theorem State.dst_fits (s : State) (d : DstId) {X : Mat} (hr : X.rows ≤ 256) (hc : X.cols ≤ 512) :
    s.dst d X = .ok (s.setMat d X) := by
  have : ¬ (X.rows > 256 ∨ X.cols > 512) := by omega
  simp [State.dst, this]

theorem State.needCoder_ok {s : State} {c : Coder} (h : s.needCoder = .ok c) : s.coder = some c := by
  unfold State.needCoder at h
  split at h
  · next c' hc => cases h; exact hc
  · cases h

theorem State.checkCount_ok {s : State} {n : Nat} {u : Unit} (h : s.checkCount n = .ok u) : s.nshards.toNat = n := by
  unfold State.checkCount at h
  split at h
  · cases h
  · split at h
    · cases h
    · omega

/-- The length of a slot of the register file. -/
theorem State.lenAt_lt {s : State} {i : Nat} (h : i < 256) : s.lenAt i = (s.len[i]).toNat := by
  simp [State.lenAt, h]

/-- A length is below 2^32. -/
theorem State.lenAt_bound (s : State) (i : Nat) : s.lenAt i < 2 ^ 32 := by
  unfold State.lenAt
  split
  · exact BitVec.isLt _
  · decide

/-- `LEN` after the writes of a list of slots. -/
theorem State.lenAt_setLens (s : State) (l : List Nat) (v : Word) {i : Nat} (h : i < 256) :
    (s.setLens l v).lenAt i = if i ∈ l then v.toNat else s.lenAt i := by
  have key : ∀ (l : List Nat) (u : Vector Word 256),
      (l.foldl (fun u i => u.setIfInBounds i v) u)[i] = if i ∈ l then v else u[i] := by
    intro l
    induction l with
    | nil => intro u; simp
    | cons j l ih =>
      intro u
      rw [List.foldl_cons, ih]
      by_cases hil : i ∈ l
      · simp [hil]
      · by_cases hij : j = i
        · subst hij; simp [hil]
        · simp [hil, hij, Ne.symm hij]
  rw [State.lenAt_lt h, State.lenAt_lt h]
  simp only [State.setLens_len, key]
  split <;> rfl

end Sys2Proof.Machine
end

