-- ==== Sys2Proof/Laws/Coder.lean ====
section
/-! SUPPORT. What the builder, the pipeline and the rules of `ENCODE` and `DECODE` can answer, once each: the checks passed and the state written. -/

namespace Sys2Proof.Machine

theorem State.mem_present {s : State} {n i : Nat} : i ∈ s.present n ↔ i < n ∧ s.lenAt i ≠ 0 := by
  simp [State.present]

theorem State.mem_missing {s : State} {a n i : Nat} : i ∈ s.missing a n ↔ (a ≤ i ∧ i < a + n) ∧ s.lenAt i = 0 := by
  simp only [State.missing, List.mem_filter, List.mem_map, List.mem_range, beq_iff_eq]
  constructor
  · rintro ⟨⟨j, hj, rfl⟩, h⟩
    exact ⟨by omega, h⟩
  · rintro ⟨h1, h2⟩
    exact ⟨⟨i - a, by omega, by omega⟩, h2⟩

/-- The right half of the work matrix after all the passes. -/
theorem matInvert_ok {t : Tables} {A X : Mat} (h : matInvert t A = .ok X) :
    A.rows = A.cols ∧ ∃ W, invertPasses t A.rows (List.range A.rows)
      (Mat.ofFn A.rows (A.cols + A.rows) fun r c => if c < A.cols then A.at r c else (matIdentity A.rows).at r (c - A.cols)) = .ok W ∧
      X = Mat.ofFn A.rows A.rows fun i j => W.at i (A.rows + j) := by
  unfold matInvert at h
  split at h
  · cases h
  · next hs =>
    obtain ⟨W0, h0, h1⟩ := bind_ok h
    obtain ⟨W, hW, h2⟩ := bind_ok h1
    obtain ⟨-, rfl⟩ := matAugment_ok h0
    obtain ⟨-, rfl⟩ := matSub_ok h2
    refine ⟨not_not.1 hs, W, hW, ?_⟩
    have : 2 * A.rows - A.rows = A.rows := by omega
    simp [this]

/-- The builder's answer: within its bounds, V times the inverse of the top block of V. -/
theorem buildMatrix_ok {t : Tables} {p : Vector Byte 256} {k m : Nat} {C : Mat} (h : buildMatrix t p k m = .ok C) :
    1 ≤ k ∧ k + m ≤ 256 ∧ ∃ T, matInvert t (Mat.ofFn k k fun i j => (vandermonde t p (k + m) k).at i j) = .ok T ∧
      matMul t (vandermonde t p (k + m) k) T = .ok C := by
  unfold buildMatrix at h
  simp only at h
  split at h
  · cases h
  · next hb =>
    obtain ⟨top, htop, h1⟩ := bind_ok h
    obtain ⟨T, hT, h2⟩ := bind_ok h1
    obtain ⟨-, rfl⟩ := matSub_ok htop
    refine ⟨by omega, by omega, T, ?_, h2⟩
    simpa using hT

/-- The checks of `ENCODE` and what it writes. -/
theorem encodeBody_ok {s t : State} (h : encodeBody s = .ok t) :
    ∃ c, s.coder = some c ∧ s.nshards.toNat = c.n.toNat ∧ (∀ i < c.n.toNat, s.lenAt i ≠ 0) ∧
      (∀ i < c.n.toNat, s.lenAt i = s.lenAt 0) ∧ s.lenAt 0 ≤ s.cfg.lmax ∧
      t = s.fillParity c ((List.range c.m.toNat).map fun r => c.k.toNat + r) (s.lenAt 0) := by
  unfold encodeBody at h
  obtain ⟨c, hc, h⟩ := bind_ok h
  obtain ⟨_, h1, h⟩ := bind_ok h
  obtain ⟨_, h2, h⟩ := bind_ok h
  obtain ⟨_, h3, h⟩ := bind_ok h
  obtain ⟨_, h4, h⟩ := bind_ok h
  have h2 := raiseIf_ok h2
  have h3 := raiseIf_ok h3
  have h4 := raiseIf_ok h4
  simp only [List.any_eq_false, List.mem_range, beq_iff_eq, bne_iff_ne, ne_eq, not_not, decide_eq_false_iff_not, not_lt] at h2 h3 h4
  exact ⟨c, State.needCoder_ok hc, State.checkCount_ok h1, h2, h3, h4, (Except.ok.inj h).symm⟩

/-- When its checks pass `ENCODE` writes the parity. -/
theorem encodeBody_of {s : State} {c : Coder} (hc : s.coder = some c) (hn : s.nshards.toNat = c.n.toNat)
    (h0 : ∀ i < c.n.toNat, s.lenAt i ≠ 0) (hl : ∀ i < c.n.toNat, s.lenAt i = s.lenAt 0) (hm : s.lenAt 0 ≤ s.cfg.lmax) :
    encodeBody s = .ok (s.fillParity c ((List.range c.m.toNat).map fun r => c.k.toNat + r) (s.lenAt 0)) := by
  have e1 : s.needCoder = .ok c := by simp [State.needCoder, hc]
  have e2 : s.checkCount c.n.toNat = .ok () := by simp [State.checkCount, hn]
  have e3 : ((List.range c.n.toNat).any fun i => s.lenAt i == 0) = false := by
    simpa only [List.any_eq_false, List.mem_range, beq_iff_eq] using h0
  have e4 : ((List.range c.n.toNat).any fun i => s.lenAt i != s.lenAt 0) = false := by
    simpa only [List.any_eq_false, List.mem_range, bne_iff_ne, ne_eq, not_not] using hl
  have e5 : decide (s.lenAt 0 > s.cfg.lmax) = false := by simpa using hm
  unfold encodeBody
  rw [e1, bind_ok_eq]
  dsimp only
  rw [e2, bind_ok_eq, e3, raiseIf_false, bind_ok_eq]
  rw [e4, raiseIf_false, bind_ok_eq, e5]
  rfl

/-- What the data phase of `DECODE` can answer. -/
theorem recoverData_ok {s t : State} {c : Coder} {L : Nat} {v : Word} (h : recoverData s c L v = .ok t) :
    (s.missing 0 c.k.toNat = [] ∧ t = s) ∨ (s.missing 0 c.k.toNat ≠ [] ∧
      ∃ I, matInvert s.rom (selectedRows c ((s.present c.n.toNat).take c.k.toNat)) = .ok I ∧
        t = (s.fillSlots (s.missing 0 c.k.toNat) L (s.dataByte c.k.toNat I ((s.present c.n.toNat).take c.k.toNat))).setLens
          (s.missing 0 c.k.toNat) v) := by
  unfold recoverData at h
  simp only at h
  split at h
  · next hm => exact .inl ⟨hm, (Except.ok.inj h).symm⟩
  · next hm =>
    obtain ⟨I, hI, h⟩ := bind_ok h
    exact .inr ⟨hm, I, hI, (Except.ok.inj h).symm⟩

/-- The checks of `DECODE` and what it writes. -/
theorem decodeBody_ok {s t : State} (h : decodeBody s = .ok t) :
    ∃ c s1, s.coder = some c ∧ s.nshards.toNat = c.n.toNat ∧ c.k.toNat ≤ (s.present c.n.toNat).length ∧
      (∀ i ∈ s.present c.n.toNat, s.lenAt i = s.lenAt ((s.present c.n.toNat).getD 0 0)) ∧
      s.lenAt ((s.present c.n.toNat).getD 0 0) ≤ s.cfg.lmax ∧
      recoverData s c (s.lenAt ((s.present c.n.toNat).getD 0 0)) (BitVec.ofNat 32 (s.lenAt ((s.present c.n.toNat).getD 0 0))) = .ok s1 ∧
      t = (s1.fillParity c (s.missing c.k.toNat c.m.toNat) (s.lenAt ((s.present c.n.toNat).getD 0 0))).setLens
        (s.missing c.k.toNat c.m.toNat) (BitVec.ofNat 32 (s.lenAt ((s.present c.n.toNat).getD 0 0))) := by
  unfold decodeBody at h
  obtain ⟨c, hc, h⟩ := bind_ok h
  obtain ⟨_, h1, h⟩ := bind_ok h
  obtain ⟨_, h2, h⟩ := bind_ok h
  obtain ⟨_, h3, h⟩ := bind_ok h
  obtain ⟨_, h4, h⟩ := bind_ok h
  obtain ⟨s1, h5, h⟩ := bind_ok h
  have h2 := raiseIf_ok h2
  have h3 := raiseIf_ok h3
  have h4 := raiseIf_ok h4
  simp only [decide_eq_false_iff_not, not_lt] at h2 h4
  simp only [List.any_eq_false, bne_iff_ne, ne_eq, not_not] at h3
  exact ⟨c, s1, State.needCoder_ok hc, State.checkCount_ok h1, h2, h3, h4, h5, (Except.ok.inj h).symm⟩

/-- When the checks of `DECODE` pass, it answers as its data phase does. -/
theorem decodeBody_of {s : State} {c : Coder} {L : Nat} (hc : s.coder = some c) (hn : s.nshards.toNat = c.n.toNat)
    (hk : c.k.toNat ≤ (s.present c.n.toNat).length) (hL : s.lenAt ((s.present c.n.toNat).getD 0 0) = L)
    (hl : ∀ i ∈ s.present c.n.toNat, s.lenAt i = L) (hm : L ≤ s.cfg.lmax) :
    decodeBody s = match recoverData s c L (BitVec.ofNat 32 L) with
      | .error e => .error e
      | .ok s1 => .ok ((s1.fillParity c (s.missing c.k.toNat c.m.toNat) L).setLens (s.missing c.k.toNat c.m.toNat) (BitVec.ofNat 32 L)) := by
  subst hL
  have e1 : s.needCoder = .ok c := by simp [State.needCoder, hc]
  have e2 : s.checkCount c.n.toNat = .ok () := by simp [State.checkCount, hn]
  have e3 : decide ((s.present c.n.toNat).length < c.k.toNat) = false := by simpa using hk
  have e4 : ((s.present c.n.toNat).any fun i => s.lenAt i != s.lenAt ((s.present c.n.toNat).getD 0 0)) = false := by
    simpa only [List.any_eq_false, bne_iff_ne, ne_eq, not_not] using hl
  have e5 : decide (s.lenAt ((s.present c.n.toNat).getD 0 0) > s.cfg.lmax) = false := decide_eq_false (Nat.not_lt.2 hm)
  unfold decodeBody
  rw [e1, bind_ok_eq]
  dsimp only
  rw [e2, bind_ok_eq]
  rw [e3, raiseIf_false, bind_ok_eq]
  rw [e4, raiseIf_false, bind_ok_eq, e5, raiseIf_false, bind_ok_eq]
  cases recoverData s c (s.lenAt ((s.present c.n.toNat).getD 0 0)) (BitVec.ofNat 32 (s.lenAt ((s.present c.n.toNat).getD 0 0))) with
  | error e => rfl
  | ok s1 => rfl

end Sys2Proof.Machine
end

