-- ==== Sys2Proof/Laws/Field.lean ====
section
/-! SUPPORT. The field behind the bytes: the polynomial over GF(2) a bit vector stands for, `PolyMul` (40_gf_arith.md R128) as multiplication modulo `POLY`, and the laws of `PolyMul` and of the powers of `GEN` that follow. -/

namespace Sys2Proof

open Polynomial

/-! ### Bit vectors as polynomials over GF(2) -/

/-- The polynomial whose coefficient of X^i is bit i. -/
noncomputable def bvPoly {w : Nat} (v : BitVec w) : (ZMod 2)[X] :=
  ∑ i ∈ Finset.range w, if v.getLsbD i then X ^ i else 0

theorem bvPoly_coeff {w : Nat} (v : BitVec w) (n : Nat) :
    (bvPoly v).coeff n = if v.getLsbD n then 1 else 0 := by
  unfold bvPoly
  rw [finsetSum_coeff]
  by_cases hn : n < w
  · rw [Finset.sum_eq_single n]
    · split <;> simp
    · intro i _ hi
      split
      · simp [coeff_X_pow, Ne.symm hi]
      · simp
    · intro h; simp [hn] at h
  · rw [Finset.sum_eq_zero]
    · simp [BitVec.getLsbD_of_ge v n (by omega)]
    · intro i hi
      have : n ≠ i := by have := Finset.mem_range.1 hi; omega
      split
      · simp [coeff_X_pow, this]
      · simp

theorem bvPoly_xor {w : Nat} (u v : BitVec w) : bvPoly (u ^^^ v) = bvPoly u + bvPoly v := by
  ext n
  rw [coeff_add, bvPoly_coeff, bvPoly_coeff, bvPoly_coeff, BitVec.getLsbD_xor]
  cases u.getLsbD n <;> cases v.getLsbD n <;> simp
  decide

theorem bvPoly_zero {w : Nat} : bvPoly (0 : BitVec w) = 0 := by
  ext n; simp [bvPoly_coeff]

theorem bvPoly_injective {w : Nat} {u v : BitVec w} (h : bvPoly u = bvPoly v) : u = v := by
  refine BitVec.eq_of_getLsbD_eq fun i _ => ?_
  have := congrArg (fun p => p.coeff i) h
  simp only [bvPoly_coeff] at this
  cases hu : u.getLsbD i <;> cases hv : v.getLsbD i <;> simp_all

/-- Two bit vectors of any widths with the same bits stand for the same polynomial. -/
theorem bvPoly_congr {w w' : Nat} {u : BitVec w} {v : BitVec w'} (h : ∀ i, u.getLsbD i = v.getLsbD i) :
    bvPoly u = bvPoly v := by
  ext n; rw [bvPoly_coeff, bvPoly_coeff, h]

/-- A shift that loses no bit multiplies by a power of X. -/
theorem bvPoly_shift {w w' : Nat} (v : BitVec w) (k : Nat) (h : w + k ≤ w') :
    bvPoly (v.setWidth w' <<< k) = bvPoly v * X ^ k := by
  ext n
  rw [bvPoly_coeff, coeff_mul_X_pow', bvPoly_coeff, BitVec.getLsbD_shiftLeft, BitVec.getLsbD_setWidth]
  by_cases hk : k ≤ n
  · by_cases hn : n < w'
    · have h1 : n - k < w' := by omega
      simp [hk, hn, h1]
    · have : v.getLsbD (n - k) = false := BitVec.getLsbD_of_ge _ _ (by omega)
      simp [hk, hn, this]
  · simp [hk, Nat.lt_of_not_le hk]

theorem bvPoly_degree_lt {w : Nat} (v : BitVec w) : (bvPoly v).degree < w :=
  (degree_lt_iff_coeff_zero _ _).2 fun n hn => by
    rw [bvPoly_coeff, BitVec.getLsbD_of_ge v n hn]; rfl

/-! ### The loops of `PolyMul` -/

theorem clMul_foldl (a b : Byte) (l : List Nat) (hl : ∀ i ∈ l, i ≤ 7) (p : BitVec 15) :
    bvPoly (l.foldl (fun p i => if b.getLsbD i then p ^^^ (a.setWidth 15 <<< i) else p) p) =
      bvPoly p + (l.map fun i => if b.getLsbD i then bvPoly a * X ^ i else 0).sum := by
  induction l generalizing p with
  | nil => simp
  | cons i l ih =>
    rw [List.foldl_cons, ih (fun j hj => hl j (List.mem_cons_of_mem _ hj)), List.map_cons, List.sum_cons]
    split
    · rw [bvPoly_xor, bvPoly_shift a i (by have := hl i (by simp); omega), add_assoc]
    · rw [zero_add]

/-- The first loop of `PolyMul` is the product of polynomials over GF(2). -/
theorem bvPoly_clMul (a b : Byte) : bvPoly (clMul a b) = bvPoly a * bvPoly b := by
  unfold clMul
  rw [clMul_foldl a b _ (by decide), bvPoly_zero, zero_add]
  generalize bvPoly a = f
  simp only [bvPoly, Finset.sum_range_succ, Finset.sum_range_zero, List.map_cons, List.map_nil,
    List.sum_cons, List.sum_nil, mul_add, mul_ite, mul_zero, zero_add, add_zero, add_assoc]

theorem polyReduce_dvd (poly : BitVec 9) (l : List Nat) (hl : ∀ i ∈ l, 8 ≤ i ∧ i ≤ 14) (p : BitVec 15) :
    bvPoly poly ∣ bvPoly (l.foldl (fun p i => if p.getLsbD i then p ^^^ (poly.setWidth 15 <<< (i - 8)) else p) p) - bvPoly p := by
  induction l generalizing p with
  | nil => simp
  | cons i l ih =>
    rw [List.foldl_cons]
    have h := ih (fun j hj => hl j (List.mem_cons_of_mem _ hj))
      (if p.getLsbD i then p ^^^ (poly.setWidth 15 <<< (i - 8)) else p)
    have hi := hl i (by simp)
    have h2 : bvPoly poly ∣ bvPoly (if p.getLsbD i then p ^^^ (poly.setWidth 15 <<< (i - 8)) else p) - bvPoly p := by
      split
      · rw [bvPoly_xor, bvPoly_shift poly (i - 8) (by omega), add_sub_cancel_left]
        exact dvd_mul_right _ _
      · simp
    simpa using dvd_add h h2

/-- One step of the second loop clears bit i and leaves the bits above it clear. -/
theorem polyReduce_step {poly : BitVec 9} (hp : poly.getLsbD 8 = true) (p : BitVec 15) {i : Nat} (h8 : 8 ≤ i) (h14 : i ≤ 14)
    (h : ∀ j, i < j → p.getLsbD j = false) :
    ∀ j, i ≤ j → (if p.getLsbD i then p ^^^ (poly.setWidth 15 <<< (i - 8)) else p).getLsbD j = false := by
  intro j hj
  split
  · next hpi =>
    rw [BitVec.getLsbD_xor, BitVec.getLsbD_shiftLeft, BitVec.getLsbD_setWidth]
    rcases Nat.eq_or_lt_of_le hj with rfl | hlt
    · have e : i - (i - 8) = 8 := by omega
      have h1 : i < 15 := by omega
      have h2 : ¬ i < i - 8 := by omega
      rw [hpi, e, hp]
      simp [h1, h2]
    · have : poly.getLsbD (j - (i - 8)) = false := BitVec.getLsbD_of_ge _ _ (by omega)
      simp [h j hlt, this]
  · next hpi =>
    rcases Nat.eq_or_lt_of_le hj with rfl | hlt
    · simpa using hpi
    · exact h j hlt

/-- The second loop leaves a value below 256 ("now p < 256", R128). -/
theorem polyReduce_high {poly : BitVec 9} (hp : poly.getLsbD 8 = true) (p : BitVec 15) :
    ∀ j, 8 ≤ j → (polyReduce poly p).getLsbD j = false := by
  unfold polyReduce
  simp only [List.foldl_cons, List.foldl_nil]
  refine polyReduce_step hp _ (le_refl 8) (by decide) fun j hj => ?_
  refine polyReduce_step hp _ (i := 9) (by decide) (by decide) (fun j hj => ?_) j hj
  refine polyReduce_step hp _ (i := 10) (by decide) (by decide) (fun j hj => ?_) j hj
  refine polyReduce_step hp _ (i := 11) (by decide) (by decide) (fun j hj => ?_) j hj
  refine polyReduce_step hp _ (i := 12) (by decide) (by decide) (fun j hj => ?_) j hj
  refine polyReduce_step hp _ (i := 13) (by decide) (by decide) (fun j hj => ?_) j hj
  exact polyReduce_step hp _ (i := 14) (by decide) (by decide) (fun j hj => BitVec.getLsbD_of_ge _ _ (by omega)) j hj

/-- `PolyMul(a, b)` is the product of the polynomials a and b modulo `POLY`. -/
theorem bvPoly_polyMul {poly : BitVec 9} (hp : poly.getLsbD 8 = true) (a b : Byte) :
    bvPoly poly ∣ bvPoly (polyMul poly a b) - bvPoly a * bvPoly b := by
  have h1 : bvPoly (polyMul poly a b) = bvPoly (polyReduce poly (clMul a b)) := by
    refine bvPoly_congr fun i => ?_
    unfold polyMul
    rw [BitVec.getLsbD_setWidth]
    by_cases hi : i < 8
    · simp [hi]
    · simp [hi, polyReduce_high hp (clMul a b) i (by omega)]
  rw [h1, ← bvPoly_clMul]
  exact polyReduce_dvd poly _ (by decide) _

/-! ### The quotient ring -/

/-- The residue of a byte modulo `POLY`. -/
noncomputable def toRing (poly : BitVec 9) (a : Byte) : AdjoinRoot (bvPoly poly) := AdjoinRoot.mk (bvPoly poly) (bvPoly a)

theorem toRing_xor (poly : BitVec 9) (a b : Byte) : toRing poly (a ^^^ b) = toRing poly a + toRing poly b := by
  simp [toRing, bvPoly_xor]

theorem toRing_zero (poly : BitVec 9) : toRing poly 0 = 0 := by
  rw [toRing, bvPoly_zero, map_zero]

theorem toRing_one (poly : BitVec 9) : toRing poly 1 = 1 := by
  have : bvPoly (1 : Byte) = 1 := by
    ext n
    rw [bvPoly_coeff, coeff_one]
    by_cases hn : n = 0
    · subst hn; simp
    · simp [hn]
  rw [toRing, this, map_one]

theorem bvPoly_monic {poly : BitVec 9} (hp : poly.getLsbD 8 = true) : (bvPoly poly).Monic := by
  refine monic_of_degree_le 8 ?_ ?_
  · exact Order.lt_succ_iff.1 (bvPoly_degree_lt poly)
  · rw [bvPoly_coeff, hp]; rfl

theorem bvPoly_degree {poly : BitVec 9} (hp : poly.getLsbD 8 = true) : (bvPoly poly).degree = 8 := by
  refine le_antisymm (Order.lt_succ_iff.1 (bvPoly_degree_lt poly)) (le_degree_of_ne_zero ?_)
  rw [bvPoly_coeff, hp]; decide

/-- Different bytes have different residues. -/
theorem toRing_injective {poly : BitVec 9} (hp : poly.getLsbD 8 = true) {a b : Byte}
    (h : toRing poly a = toRing poly b) : a = b := by
  refine bvPoly_injective (sub_eq_zero.1 ?_)
  refine eq_zero_of_dvd_of_degree_lt (AdjoinRoot.mk_eq_mk.1 h) ?_
  rw [bvPoly_degree hp]
  exact lt_of_le_of_lt (degree_sub_le _ _) (max_lt (bvPoly_degree_lt a) (bvPoly_degree_lt b))

/-- `PolyMul` is multiplication of residues. -/
theorem toRing_polyMul {poly : BitVec 9} (hp : poly.getLsbD 8 = true) (a b : Byte) :
    toRing poly (polyMul poly a b) = toRing poly a * toRing poly b := by
  unfold toRing
  rw [← map_mul]
  exact AdjoinRoot.mk_eq_mk.2 (bvPoly_polyMul hp a b)

/-! ### The laws of `PolyMul` -/

section Laws

variable {poly : BitVec 9} (hp : poly.getLsbD 8 = true)
include hp

theorem polyMul_comm (a b : Byte) : polyMul poly a b = polyMul poly b a :=
  toRing_injective hp (by rw [toRing_polyMul hp, toRing_polyMul hp, mul_comm])

theorem polyMul_assoc (a b c : Byte) : polyMul poly (polyMul poly a b) c = polyMul poly a (polyMul poly b c) :=
  toRing_injective hp (by simp only [toRing_polyMul hp, mul_assoc])

theorem polyMul_xor (a b c : Byte) : polyMul poly a (b ^^^ c) = polyMul poly a b ^^^ polyMul poly a c :=
  toRing_injective hp (by simp only [toRing_polyMul hp, toRing_xor, mul_add])

theorem polyMul_one (a : Byte) : polyMul poly a 1 = a :=
  toRing_injective hp (by rw [toRing_polyMul hp, toRing_one, mul_one])

theorem polyMul_zero (a : Byte) : polyMul poly a 0 = 0 :=
  toRing_injective hp (by rw [toRing_polyMul hp, toRing_zero, mul_zero])

end Laws

/-! ### The powers of `GEN` -/

theorem toRing_genPow {c : Cfg} (h : c.poly.getLsbD 8 = true) (i : Nat) :
    toRing c.poly (c.genPow i) = toRing c.poly c.gen ^ i := by
  induction i with
  | zero => rw [Cfg.genPow, toRing_one, pow_zero]
  | succ i ih => rw [Cfg.genPow, toRing_polyMul h, ih, pow_succ]

theorem Cfg.genPow_add {c : Cfg} (h : c.poly.getLsbD 8 = true) (i j : Nat) :
    c.genPow (i + j) = polyMul c.poly (c.genPow i) (c.genPow j) :=
  toRing_injective h (by rw [toRing_polyMul h, toRing_genPow h, toRing_genPow h, toRing_genPow h, pow_add])

/-- The powers of `GEN` repeat with period 255. -/
theorem Cfg.genPow_mod {c : Cfg} (hd : c.poly.getLsbD 8 = true) (hg : c.GenPrimitive) (i : Nat) : c.genPow (i % 255) = c.genPow i := by
  refine toRing_injective hd ?_
  rw [toRing_genPow hd, toRing_genPow hd]
  have h1 : toRing c.poly c.gen ^ 255 = 1 := by
    rw [← toRing_genPow hd, hg.1, toRing_one]
  conv_rhs => rw [← Nat.mod_add_div i 255, pow_add, pow_mul, h1, one_pow, mul_one]

/-- The 255 powers are pairwise different. -/
theorem Cfg.genPow_injective {c : Cfg} (hd : c.poly.getLsbD 8 = true) (hg : c.GenPrimitive) {i j : Nat} (hi : i < 255) (hj : j < 255)
    (e : c.genPow i = c.genPow j) : i = j := by
  by_contra hne
  wlog hlt : i < j generalizing i j
  · exact this hj hi e.symm (Ne.symm hne) (by omega)
  refine hg.2 (j - i) (by omega) (by omega) ?_
  have e1 : c.genPow (i + (255 - i)) = c.genPow (j + (255 - i)) := by
    rw [Cfg.genPow_add hd, Cfg.genPow_add hd, e]
  have e2 : i + (255 - i) = 255 := by omega
  have e3 : (j + (255 - i)) % 255 = j - i := by omega
  rw [e2, hg.1, ← Cfg.genPow_mod hd hg (j + (255 - i)), e3] at e1
  exact e1.symm

/-- No power is 0. -/
theorem Cfg.genPow_ne_zero {c : Cfg} (hd : c.poly.getLsbD 8 = true) (hg : c.GenPrimitive) (i : Nat) : c.genPow i ≠ 0 := by
  intro e
  have h1 : c.genPow (i % 255 + (255 - i % 255)) = 0 := by
    rw [Cfg.genPow_add hd, Cfg.genPow_mod hd hg, e, polyMul_comm hd, polyMul_zero hd]
  have h2 : i % 255 + (255 - i % 255) = 255 := by omega
  rw [h2, hg.1] at h1
  exact absurd h1 (by decide)

/-- Every nonzero byte is a power of `GEN` below the 255th. -/
theorem Cfg.genPow_surjective {c : Cfg} (hd : c.poly.getLsbD 8 = true) (hg : c.GenPrimitive) {a : Byte} (ha : a ≠ 0) : ∃ i < 255, c.genPow i = a := by
  classical
  let S : Finset Byte := Finset.image c.genPow (Finset.range 255)
  have hcard : S.card = 255 := by
    rw [Finset.card_image_of_injOn, Finset.card_range]
    intro i hi j hj e
    exact Cfg.genPow_injective hd hg (by simpa using hi) (by simpa using hj) e
  by_contra hno
  have h0 : (0 : Byte) ∉ S := fun hm => by
    obtain ⟨i, _, e⟩ := Finset.mem_image.1 hm
    exact Cfg.genPow_ne_zero hd hg i e
  have haS : a ∉ S := fun hm => by
    obtain ⟨i, hi, e⟩ := Finset.mem_image.1 hm
    exact hno ⟨i, Finset.mem_range.1 hi, e⟩
  have h1 : (insert a (insert 0 S)).card = 257 := by
    rw [Finset.card_insert_of_notMem (by simpa using And.intro ha haS), Finset.card_insert_of_notMem h0, hcard]
  have h2 : Fintype.card Byte = 256 := by
    rw [Fintype.card_congr ⟨BitVec.toFin, BitVec.ofFin, fun _ => rfl, fun _ => rfl⟩]
    exact Fintype.card_fin _
  have h3 := Finset.card_le_univ (insert a (insert 0 S))
  omega

/-- A product of nonzero bytes is nonzero. -/
theorem polyMul_ne_zero {c : Cfg} (hd : c.poly.getLsbD 8 = true) (hg : c.GenPrimitive) {a b : Byte} (ha : a ≠ 0) (hb : b ≠ 0) :
    polyMul c.poly a b ≠ 0 := by
  obtain ⟨i, _, rfl⟩ := Cfg.genPow_surjective hd hg ha
  obtain ⟨j, _, rfl⟩ := Cfg.genPow_surjective hd hg hb
  rw [← Cfg.genPow_add hd]
  exact Cfg.genPow_ne_zero hd hg _

/-- A `GEN` whose powers reach all 255 nonzero bytes leaves `POLY` no factorisation. -/
theorem Cfg.irreducible_of_primitive {c : Cfg} (hd : c.poly.getLsbD 8 = true) (hg : c.GenPrimitive) : c.Irreducible := by
  intro a b ha hb e
  have h0 : ∀ x : Byte, 2 ≤ x.toNat → x ≠ 0 := fun x hx e => by subst e; exact absurd hx (by decide)
  refine polyMul_ne_zero hd hg (h0 a ha) (h0 b hb) (toRing_injective hd ?_)
  rw [toRing_polyMul hd, toRing_zero]
  unfold toRing
  rw [← map_mul, ← bvPoly_clMul, e]
  refine AdjoinRoot.mk_eq_zero.2 (dvd_of_eq (bvPoly_congr fun i => ?_))
  rw [BitVec.getLsbD_setWidth]
  by_cases hi : i < 15
  · simp [hi]
  · simp [hi, BitVec.getLsbD_of_ge c.poly i (by omega)]

/-! ### The tables -/

theorem Cfg.getElem_powers (c : Cfg) (n i : Nat) (x : Byte) (k : Nat) (hx : x = c.genPow k) (h : i < (c.powers n x).length) :
    (c.powers n x)[i] = c.genPow (k + i) := by
  induction n generalizing x k i with
  | zero => simp [Cfg.powers] at h
  | succ n ih =>
    cases i with
    | zero => simp [Cfg.powers, hx]
    | succ i =>
      simp only [Cfg.powers, List.getElem_cons_succ]
      rw [ih i _ (k + 1) (by rw [hx]; rfl)]
      congr 1; omega

/-- `EXP[i] = GEN^i` (R120). -/
theorem Tables.expAt_ofCfg (c : Cfg) (i : Nat) : (Tables.ofCfg c).expAt i = c.genPow (i % 255) := by
  have h : i % 255 < (c.powers 255 1).length := by rw [Cfg.length_powers]; exact Nat.mod_lt _ (by decide)
  have := Cfg.getElem_powers c 255 (i % 255) 1 0 rfl h
  rw [Nat.zero_add] at this
  rw [← this]
  rfl

theorem Cfg.logFrom_eq {c : Cfg} (h : c.WellFormed) {j : Nat} (hj : j < 255) (fuel i : Nat) (hij : i ≤ j) (hf : j < i + fuel) :
    c.logFrom (c.genPow j) fuel i (c.genPow i) = j := by
  induction fuel generalizing i with
  | zero => omega
  | succ fuel ih =>
    unfold Cfg.logFrom
    split
    · next e => exact Cfg.genPow_injective h.degree h.primitive (by omega) hj e
    · next e =>
      have hne : i ≠ j := fun e' => e (by rw [e'])
      exact ih (i + 1) (by omega) (by omega)

/-- `LOG` is the inverse map of `EXP` (R120). -/
theorem Tables.logAt_ofCfg {c : Cfg} (h : c.WellFormed) {i : Nat} (hi : i < 255) (h0 : c.genPow i ≠ 0) :
    (Tables.ofCfg c).logAt (c.genPow i) h0 = i := by
  unfold Tables.logAt Tables.ofCfg
  simp only [Vector.getElem_ofFn]
  have hpos : (c.genPow i).toNat ≠ 0 := fun e => h0 (BitVec.eq_of_toNat_eq (by simpa using e))
  have e : BitVec.ofNat 8 ((c.genPow i).toNat - 1 + 1) = c.genPow i := by
    rw [Nat.sub_add_cancel (by omega)]; simp
  rw [e]
  exact Cfg.logFrom_eq h hi 255 0 (by omega) (by omega)

end Sys2Proof
end

