-- ==== Sys2Proof/Laws/Memory.lean ====
section
/-! SUPPORT. The laws of the shard memory: read after write, the canonical form kept by every memory operation, and what a block of writes leaves. -/

namespace Sys2Proof.Machine

theorem Memory.read_write_same (m : Memory) (a : Nat) (v : Byte) :
    Memory.read (Memory.write m a v) a = some v := by
  induction m with
  | nil => simp [Memory.write, Memory.read]
  | cons x m ih =>
    obtain ⟨a', v'⟩ := x
    by_cases h1 : a < a'
    · simp [Memory.write, Memory.read, h1]
    · by_cases h2 : a = a'
      · simp [Memory.write, Memory.read, h2]
      · simp [Memory.write, Memory.read, h1, h2, ih]

theorem Memory.read_write_other (m : Memory) {a b : Nat} (v : Byte) (h : b ≠ a) :
    Memory.read (Memory.write m a v) b = Memory.read m b := by
  induction m with
  | nil => simp [Memory.write, Memory.read, h]
  | cons x m ih =>
    obtain ⟨a', v'⟩ := x
    by_cases h1 : a < a'
    · simp [Memory.write, Memory.read, h1, h]
    · by_cases h2 : a = a'
      · subst h2; simp [Memory.write, Memory.read, h]
      · by_cases h3 : b = a' <;> simp [Memory.write, Memory.read, h1, h2, h3, ih]

/-- What a read finds after one write. -/
theorem Memory.read_write (m : Memory) (a b : Nat) (v : Byte) :
    Memory.read (Memory.write m a v) b = if b = a then some v else Memory.read m b := by
  split
  · next h => subst h; exact Memory.read_write_same m b v
  · next h => exact Memory.read_write_other m v h

theorem Memory.mem_write {m : Memory} {a : Nat} {v : Byte} {x : Nat × Byte}
    (h : x ∈ Memory.write m a v) : x = (a, v) ∨ x ∈ m := by
  induction m with
  | nil => simpa [Memory.write] using h
  | cons y m ih =>
    obtain ⟨a', v'⟩ := y
    by_cases h1 : a < a'
    · simpa [Memory.write, h1] using h
    · by_cases h2 : a = a'
      · subst h2
        simp only [Memory.write, lt_irrefl, ↓reduceIte, List.mem_cons] at h
        exact h.imp_right (List.mem_cons_of_mem _)
      · simp only [Memory.write, h1, h2, ↓reduceIte, List.mem_cons] at h
        rcases h with h | h
        · exact .inr (by simp [h])
        · exact (ih h).imp_right (List.mem_cons_of_mem _)

/-- A write keeps the canonical form. -/
theorem Memory.write_wf {m : Memory} (h : Memory.wf m) (a : Nat) (v : Byte) :
    Memory.wf (Memory.write m a v) := by
  induction m with
  | nil => simp [Memory.write]
  | cons y m ih =>
    obtain ⟨a', v'⟩ := y
    obtain ⟨hy, hm⟩ := List.pairwise_cons.1 h
    by_cases h1 : a < a'
    · simp only [Memory.write, h1, ↓reduceIte]
      refine List.pairwise_cons.2 ⟨fun x hx => ?_, h⟩
      rcases List.mem_cons.1 hx with rfl | hx
      · exact h1
      · exact lt_trans h1 (hy x hx)
    · by_cases h2 : a = a'
      · subst h2
        simp only [Memory.write, lt_irrefl, ↓reduceIte]
        exact List.pairwise_cons.2 ⟨hy, hm⟩
      · simp only [Memory.write, h1, h2, ↓reduceIte]
        refine List.pairwise_cons.2 ⟨fun x hx => ?_, ih hm⟩
        rcases Memory.mem_write hx with rfl | hx
        · simp only; omega
        · exact hy x hx

/-- A block of writes keeps the canonical form. -/
theorem Memory.writeAll_wf {m : Memory} (h : Memory.wf m) (ws : List (Nat × Byte)) :
    Memory.wf (Memory.writeAll m ws) := by
  induction ws generalizing m with
  | nil => exact h
  | cons w ws ih => exact ih (Memory.write_wf h w.1 w.2)

theorem Memory.mem_writeAll {m : Memory} {ws : List (Nat × Byte)} {x : Nat × Byte}
    (h : x ∈ Memory.writeAll m ws) : x ∈ ws ∨ x ∈ m := by
  induction ws generalizing m with
  | nil => exact .inr h
  | cons w ws ih =>
    rcases ih h with h | h
    · exact .inl (List.mem_cons_of_mem _ h)
    · rcases Memory.mem_write h with rfl | h
      · exact .inl (by simp)
      · exact .inr h

/-- A block of writes leaves every key it does not name. -/
theorem Memory.read_writeAll_other (m : Memory) (ws : List (Nat × Byte)) (a : Nat)
    (h : ∀ w ∈ ws, w.1 ≠ a) : Memory.read (Memory.writeAll m ws) a = Memory.read m a := by
  induction ws generalizing m with
  | nil => rfl
  | cons w ws ih =>
    have h1 : a ≠ w.1 := fun e => h w (by simp) e.symm
    exact (ih _ fun x hx => h x (List.mem_cons_of_mem _ hx)).trans (Memory.read_write_other m w.2 h1)

/-- A block of writes in which the byte written at a key is a function g of the key: a key it names then reads g. -/
theorem Memory.read_writeAll_mem (m : Memory) (ws : List (Nat × Byte)) (g : Nat → Byte)
    (hg : ∀ w ∈ ws, w.2 = g w.1) {a : Nat} (ha : ∃ w ∈ ws, w.1 = a) :
    Memory.read (Memory.writeAll m ws) a = some (g a) := by
  induction ws generalizing m with
  | nil => simp at ha
  | cons w ws ih =>
    by_cases h : ∃ x ∈ ws, x.1 = a
    · exact ih _ (fun x hx => hg x (List.mem_cons_of_mem _ hx)) h
    · obtain ⟨x, hx, rfl⟩ := ha
      rcases List.mem_cons.1 hx with rfl | hx
      · have h' := Memory.read_writeAll_other (Memory.write m x.1 x.2) ws x.1
          (fun y hy e => h ⟨y, hy, e⟩)
        have h2 : Memory.writeAll m (x :: ws) = Memory.writeAll (Memory.write m x.1 x.2) ws := rfl
        rw [h2, h', Memory.read_write_same, hg x (by simp)]
      · exact absurd ⟨x, hx, rfl⟩ h

/-- Keys of different locations differ: offsets are below 2^32. -/
theorem shKey_inj {i o i' o' : Nat} (ho : o < 2 ^ 32) (ho' : o' < 2 ^ 32) :
    shKey i o = shKey i' o' ↔ i = i' ∧ o = o' := by
  unfold shKey; omega

theorem shKey_div {i o : Nat} (ho : o < 2 ^ 32) : shKey i o / 2 ^ 32 = i := by unfold shKey; omega

theorem shKey_mod {i o : Nat} (ho : o < 2 ^ 32) : shKey i o % 2 ^ 32 = o := by unfold shKey; omega

/-- `fillSlots` writes exactly the keys of its slots at offsets below L. -/
theorem State.read_fillSlots_other (s : State) (l : List Nat) (L : Nat) (f : Nat → Nat → Byte) (a : Nat)
    (h : ∀ i ∈ l, ∀ o < L, shKey i o ≠ a) :
    Memory.read (s.fillSlots l L f).sh a = Memory.read s.sh a := by
  refine Memory.read_writeAll_other _ _ _ fun w hw => ?_
  obtain ⟨i, hi, hw⟩ := List.mem_flatMap.1 hw
  obtain ⟨o, ho, rfl⟩ := List.mem_map.1 hw
  exact h i hi o (List.mem_range.1 ho)

theorem State.read_fillSlots_same (s : State) (l : List Nat) {L : Nat} (f : Nat → Nat → Byte)
    (hL : L ≤ 2 ^ 32) {i o : Nat} (hi : i ∈ l) (ho : o < L) :
    Memory.read (s.fillSlots l L f).sh (shKey i o) = some (f i o) := by
  have hd := shKey_div (i := i) (lt_of_lt_of_le ho hL)
  have hm := shKey_mod (i := i) (lt_of_lt_of_le ho hL)
  have key := Memory.read_writeAll_mem s.sh
    (l.flatMap fun i => (List.range L).map fun o => (shKey i o, f i o))
    (fun a => f (a / 2 ^ 32) (a % 2 ^ 32)) (a := shKey i o) ?_ ?_
  · rw [State.fillSlots_sh, key]; simp only [hd, hm]
  · intro w hw
    obtain ⟨i', _, hw⟩ := List.mem_flatMap.1 hw
    obtain ⟨o', ho', rfl⟩ := List.mem_map.1 hw
    have h' : o' < 2 ^ 32 := lt_of_lt_of_le (List.mem_range.1 ho') hL
    simp only [shKey_div h', shKey_mod h']
  · exact ⟨(shKey i o, f i o), List.mem_flatMap.2 ⟨i, hi, List.mem_map.2 ⟨o, List.mem_range.2 ho, rfl⟩⟩, rfl⟩

/-- The byte a slot holds after `fillSlots`: the new one in the slots filled, at offsets below L; else the old one. -/
theorem State.shByte_fillSlots (s : State) (l : List Nat) {L : Nat} (f : Nat → Nat → Byte)
    (hL : L ≤ 2 ^ 32) {i o : Nat} (ho : o < 2 ^ 32) :
    (s.fillSlots l L f).shByte i o = if i ∈ l ∧ o < L then f i o else s.shByte i o := by
  unfold State.shByte
  by_cases h : i ∈ l ∧ o < L
  · rw [if_pos h, State.read_fillSlots_same s l f hL h.1 h.2]
  · rw [if_neg h, State.read_fillSlots_other s l L f]
    · rfl
    · intro i' hi' o' ho' e
      obtain ⟨rfl, rfl⟩ := (shKey_inj (lt_of_lt_of_le ho' hL) ho).1 e
      exact h ⟨hi', ho'⟩

theorem State.fillSlots_wf {s : State} (h : Memory.wf s.sh) (l : List Nat) (L : Nat) (f : Nat → Nat → Byte) :
    Memory.wf (s.fillSlots l L f).sh := Memory.writeAll_wf h _

/-- The reset memory is in canonical form. -/
theorem reset_sh_wf : Memory.wf State.reset.sh := List.Pairwise.nil

end Sys2Proof.Machine
end

