-- ==== Sys2Proof/Laws/PerInstr.lean ====
section
/-! SUPPORT. Statements made for every constructor of Instr, one lemma each. EncodingShape: the encoded word of a command carries its opcode and has every reserved bit 0 (30_encoding.md R90). -/

namespace Sys2Proof.Laws.EncodingShape

/-- The word of i has the opcode of i in bits 7:0 and 0 in the bits 11:10, 15 and 31:19. -/
def Statement (i : Instr) : Prop := fieldOPC (encode i) = i.opcode ∧ encode i &&& reservedMask = 0

theorem nop : Statement .nop := ⟨by decide, by decide⟩
theorem gfadd : Statement .gfadd := ⟨by decide, by decide⟩
theorem gfmul : Statement .gfmul := ⟨by decide, by decide⟩
theorem gfdiv : Statement .gfdiv := ⟨by decide, by decide⟩
theorem gfinv : Statement .gfinv := ⟨by decide, by decide⟩
theorem gfpow : Statement .gfpow := ⟨by decide, by decide⟩
theorem mnew (md : DstId) : Statement (.mnew md) := by revert md; unfold Statement; decide +kernel
theorem mident (md : DstId) : Statement (.mident md) := by revert md; unfold Statement; decide +kernel
theorem mmul (md : DstId) (ma mb : SrcId) : Statement (.mmul md ma mb) := by revert md ma mb; unfold Statement; decide +kernel
theorem msub (md : DstId) (ma : SrcId) : Statement (.msub md ma) := by revert md ma; unfold Statement; decide +kernel
theorem maug (md : DstId) (ma mb : SrcId) : Statement (.maug md ma mb) := by revert md ma mb; unfold Statement; decide +kernel
theorem minv (md : DstId) (ma : SrcId) : Statement (.minv md ma) := by revert md ma; unfold Statement; decide +kernel
theorem missq (ma : SrcId) : Statement (.missq ma) := by revert ma; unfold Statement; decide +kernel
theorem mbuild (md : DstId) : Statement (.mbuild md) := by revert md; unfold Statement; decide +kernel
theorem config : Statement .config := ⟨by decide, by decide⟩
theorem encode : Statement .encode := ⟨by decide, by decide⟩
theorem decode : Statement .decode := ⟨by decide, by decide⟩

end Sys2Proof.Laws.EncodingShape
end

