-- ==== Sys2Proof/Machine/ProductUnits.lean ====
section
/-! DEFINITION. The two product units of the coder (43_coder.md R221). Neither is visible as a command; Laws/ProductUnits.lean shows that both compute the parity bytes of R220. -/

namespace Sys2Proof.Machine

/-- `MatVec(G, sel, o)`, the matrix-vector product unit: one byte offset at a time. -/
def State.matVec (s : State) (G : Mat) (sel : List Nat) (o : Nat) : List Byte :=
  (List.range G.rows).map fun r => xorSum sel.length fun j => gfMul s.rom (G.at r j) (s.shByte (sel.getD j 0) o)

/-- `ShardMac(acc, g, s, L)`, the shard XOR unit: one whole input shard at a time. -/
def State.shardMac (s : State) (acc : List Byte) (g : Byte) (slot L : Nat) : List Byte :=
  (List.range L).map fun o => acc.getD o 0 ^^^ gfMul s.rom g (s.shByte slot o)

/-- Parity row i by the second unit: from L zero bytes, one `ShardMac` for each of the K data slots. -/
def State.parityRow (s : State) (c : Coder) (i L : Nat) : List Byte :=
  (List.range c.k.toNat).foldl (fun acc j => s.shardMac acc (c.cm.at i j) j L) (List.replicate L 0)

end Sys2Proof.Machine
end

