-- ==== Sys2Proof/Laws/ProductUnits.lean ====
section
/-! SUPPORT. The two product units compute the parity bytes of 43_coder.md R220 (R221). -/

namespace Sys2Proof.Machine

/-- At every offset the first unit, on the generator submatrix and the data slots, gives the parity bytes. -/
theorem State.matVec_parity (s : State) {c : Coder} {G : Mat} {n : Nat} (hn : n = c.k.toNat + c.m.toNat)
    (hG : matSub c.cm c.k.toNat n 0 c.k.toNat = .ok G) (o : Nat) :
    s.matVec G (List.range c.k.toNat) o = (List.range c.m.toNat).map fun r => s.parityByte c (c.k.toNat + r) o := by
  obtain ⟨-, rfl⟩ := matSub_ok hG
  have hr : n - c.k.toNat = c.m.toNat := by omega
  simp only [State.matVec, Mat.rows_ofFn, hr, List.length_range]
  refine List.map_congr_left fun r h => xorSum_congr fun j hj => ?_
  rw [Mat.at_ofFn _ (by simpa using h) (by omega), Nat.zero_add]
  simp [List.getElem?_range hj, List.getD_eq_getElem?_getD]

theorem State.foldl_shardMac (s : State) (c : Coder) (i L n : Nat) :
    (List.range n).foldl (fun acc j => s.shardMac acc (c.cm.at i j) j L) (List.replicate L 0) =
      (List.range L).map fun o => xorSum n fun j => gfMul s.rom (c.cm.at i j) (s.shByte j o) := by
  induction n with
  | zero =>
    refine List.ext_getElem (by simp) fun o h1 h2 => ?_
    simp
  | succ n ih =>
    rw [List.range_succ, List.foldl_append, ih]
    simp only [List.foldl_cons, List.foldl_nil, State.shardMac]
    refine List.map_congr_left fun o h => ?_
    have ho : o < L := List.mem_range.1 h
    rw [xorSum_succ]
    simp [List.getD_eq_getElem?_getD, List.getElem?_map, List.getElem?_range ho]

/-- For every parity row the second unit gives the parity bytes. -/
theorem State.parityRow_eq (s : State) (c : Coder) (i L : Nat) :
    s.parityRow c i L = (List.range L).map (s.parityByte c i) := State.foldl_shardMac s c i L c.k.toNat

end Sys2Proof.Machine
end

