-- ==== Sys2Proof/Machine/Assembler.lean ====
section
/-! DEFINITION. The notation for host programs: a `cmd` line (30_encoding.md R99) and the pseudo-instructions (R100), as lists of host operations. Register numbers are those of 10_state.md R38. -/

namespace Sys2Proof.Machine

/-- The number of `ARG0`. -/
def regArg0 : Nat := 0x004
/-- The number of `ARG1`. -/
def regArg1 : Nat := 0x005
/-- The number of `ARG2`. -/
def regArg2 : Nat := 0x006
/-- The number of `ARG3`. -/
def regArg3 : Nat := 0x007
/-- The number of `LEN[i]`. -/
def regLen (i : Nat) : Nat := 0x100 + i

/-- `cmd i`: a write of the command's word to `CMD` (R99). -/
def asmCmd (i : Instr) : HostOp := .writeReg 0x000 (encode i)

/-- `gfop <MNEMONIC> a, b` for `GFADD`, `GFMUL`, `GFDIV`, `GFPOW`. -/
def asmGfop (i : Instr) (a b : Word) : List HostOp := [.writeReg regArg0 a, .writeReg regArg1 b, asmCmd i]

/-- `gfop GFINV a`. -/
def asmGfinv (a : Word) : List HostOp := [.writeReg regArg0 a, asmCmd .gfinv]

/-- `ldshard i: b0 b1 ...`: the bytes of a shard, then its length. -/
def asmLdshard (i : Nat) (bs : List Byte) : List HostOp :=
  (bs.zipIdx.map fun x => HostOp.writeShard i x.2 x.1) ++ [.writeReg (regLen i) (BitVec.ofNat 32 bs.length)]

/-- `buffer i, n`: a present shard whose contents are not set. -/
def asmBuffer (i : Nat) (n : Word) : List HostOp := [.writeReg (regLen i) n]

/-- `erase i`: shard i marked absent. -/
def asmErase (i : Nat) : List HostOp := [.writeReg (regLen i) 0]

/-- `mload Md, rows, cols: e0 e1 ...`: a zero matrix, then its nonzero elements. -/
def asmMload (md : DstId) (rows cols : Word) (es : List Byte) : List HostOp :=
  [.writeReg regArg0 rows, .writeReg regArg1 cols, asmCmd (.mnew md)] ++
    (es.zipIdx.filter fun x => x.1 != 0).map fun x => HostOp.writeMat md.val x.2 x.1

/-- `config k, m`. -/
def asmConfig (k m : Word) : List HostOp := [.writeReg regArg0 k, .writeReg regArg1 m, asmCmd .config]

/-- `mbuild Md, k, m`. -/
def asmMbuild (md : DstId) (k m : Word) : List HostOp := [.writeReg regArg0 k, .writeReg regArg1 m, asmCmd (.mbuild md)]

/-- `msub Md, Ma, r0, r1, c0, c1`. -/
def asmMsub (md : DstId) (ma : SrcId) (r0 r1 c0 c1 : Word) : List HostOp :=
  [.writeReg regArg0 r0, .writeReg regArg1 r1, .writeReg regArg2 c0, .writeReg regArg3 c1, asmCmd (.msub md ma)]

end Sys2Proof.Machine
end

