-- ==== Sys2Proof/Tests/Slice0.lean ====
section
/-! SUPPORT. Tests. Every expected value is printed in spec/95_test_vectors.md (its vector is named) or is a word written out from 30_encoding.md R90, R94; after them, for every statement with hypotheses, a state and operands that meet all of them. -/

section

set_option Elab.async false

namespace Sys2Proof.Machine

/-! ### Helpers -/

/-- A reset machine with the default parameters, its ROM written as the tables 95_test_vectors.md 2.1 prints. -/
def base : State := { State.resetWith Cfg.default with rom := printedTables }

/-- The matrix of the given elements. -/
def mat (r c : Nat) (e : List Byte) : Mat := ⟨r, c, e.toArray⟩

/-- The 2+2 coder of V4.3. -/
def coder22 : Coder := ⟨2, 2, 4, mat 4 2 [1, 0, 0, 1, 3, 2, 2, 3]⟩

/-- The first four lengths, the others 0. -/
def lens4 (a b c d : Word) : Vector Word 256 := ⟨(a :: b :: c :: d :: List.replicate 252 0).toArray, by simp only [List.size_toArray, List.length_cons, List.length_replicate]⟩

/-- The bytes of slot i, listed from offset 0. -/
def slot (i : Nat) (bs : List Byte) : Memory := bs.zipIdx.map fun x => (shKey i x.2, x.1)

/-- A 2+2 machine with the given shard bytes and the given lengths of slots 0..3. -/
def shards (sh : Memory) (len : Vector Word 256) : State := { base with coder := some coder22, nshards := 4, sh := sh, len := len }

/-- o is a next state with p. -/
def ran (o : Outcome) (p : State → Bool) : Bool :=
  match o with
  | .next t => p t
  | _ => false

/-- o is a refusal. -/
def refuses (o : Outcome) : Bool :=
  match o with
  | .refused _ => true
  | _ => false

/-- Slot i of t holds the bytes bs, all of them written. -/
def holds (t : State) (i : Nat) (bs : List Byte) : Bool :=
  (List.range bs.length).all fun o => Memory.read t.sh (shKey i o) == bs[o]?

/-- The decoder rejects w for the reason e. -/
def rejects (w : Word) (e : DecodeError) : Bool :=
  match Sys2Proof.decode w with
  | .ok _ => false
  | .error e' => e' == e

/-- The decoder accepts w as i. -/
def accepts (w : Word) (i : Instr) : Bool :=
  match Sys2Proof.decode w with
  | .ok i' => i' == i
  | .error _ => false

/-- The host operations ops, in order, on s with an empty list. -/
def hosts (s : State) (ops : List HostOp) : State := { s with host := ops }

/-! ### Well-formedness: each check refuses an ill-formed command -/

theorem test_wf_mmul_ma : (Instr.mmul 0 5 0).wellFormed = false := by decide
theorem test_wf_mmul_mb : (Instr.mmul 0 0 7).wellFormed = false := by decide
theorem test_wf_maug_ma : (Instr.maug 1 6 4).wellFormed = false := by decide
theorem test_wf_maug_mb : (Instr.maug 1 4 5).wellFormed = false := by decide
theorem test_wf_msub_ma : (Instr.msub 3 5).wellFormed = false := by decide
theorem test_wf_minv_ma : (Instr.minv 3 7).wellFormed = false := by decide
theorem test_wf_missq_ma : (Instr.missq 6).wellFormed = false := by decide
theorem test_wf_cm_is_legal : (Instr.mmul 3 4 4).wellFormed = true := by decide
/-- A parameter record whose generator is 1 is ill formed: `GEN^1 = 1` (00_scope.md R5). -/
theorem test_wf_generator_one : ¬ Cfg.GenPrimitive { Cfg.default with gen := 1 } :=
  fun h => absurd (by decide +kernel : Cfg.genPow { Cfg.default with gen := 1 } 1 = 1) (h.2 1 (by decide) (by decide))
/-- A reducible `POLY`, x^8 + x^2 = x (x^7 + x), is ill formed. -/
theorem test_wf_reducible_poly : ¬ Cfg.Irreducible { Cfg.default with poly := 0b100000100#9 } :=
  fun h => h 0b10#8 0b10000010#8 (by decide) (by decide) (by decide +kernel)

/-! ### Decoding, word by word: MB (18:16), MA (14:12), MD (9:8), OPC (7:0) -/

theorem test_dec_nop : accepts 0b0000000000000_000_0_000_00_00_00000000#32 .nop = true := by decide
theorem test_dec_gfadd : accepts 0b0000000000000_000_0_000_00_00_00010000#32 .gfadd = true := by decide
theorem test_dec_gfmul : accepts 0b0000000000000_000_0_000_00_00_00010001#32 .gfmul = true := by decide
theorem test_dec_gfdiv : accepts 0b0000000000000_000_0_000_00_00_00010010#32 .gfdiv = true := by decide
theorem test_dec_gfinv : accepts 0b0000000000000_000_0_000_00_00_00010011#32 .gfinv = true := by decide
theorem test_dec_gfpow : accepts 0b0000000000000_000_0_000_00_00_00010100#32 .gfpow = true := by decide
theorem test_dec_mnew : accepts 0b0000000000000_000_0_000_00_11_00100000#32 (.mnew 3) = true := by decide
theorem test_dec_mident : accepts 0b0000000000000_000_0_000_00_10_00100001#32 (.mident 2) = true := by decide
theorem test_dec_mmul : accepts 0b0000000000000_001_0_000_00_10_00100010#32 (.mmul 2 0 1) = true := by decide
theorem test_dec_mmul_cm : accepts 0b0000000000000_100_0_100_00_11_00100010#32 (.mmul 3 4 4) = true := by decide
theorem test_dec_msub : accepts 0b0000000000000_000_0_100_00_00_00100011#32 (.msub 0 4) = true := by decide
theorem test_dec_maug : accepts 0b0000000000000_011_0_010_00_01_00100100#32 (.maug 1 2 3) = true := by decide
theorem test_dec_minv : accepts 0b0000000000000_000_0_000_00_01_00100101#32 (.minv 1 0) = true := by decide
theorem test_dec_missq : accepts 0b0000000000000_000_0_011_00_00_00100110#32 (.missq 3) = true := by decide
theorem test_dec_mbuild : accepts 0b0000000000000_000_0_000_00_01_00110000#32 (.mbuild 1) = true := by decide
theorem test_dec_config : accepts 0b0000000000000_000_0_000_00_00_01000000#32 .config = true := by decide
theorem test_dec_encode : accepts 0b0000000000000_000_0_000_00_00_01000001#32 .encode = true := by decide
theorem test_dec_decode : accepts 0b0000000000000_000_0_000_00_00_01000010#32 .decode = true := by decide

/-- V7.14. -/
theorem test_dec_unassigned : ([0x01, 0x0F, 0x15, 0x27, 0x31, 0x43, 0xFF].all fun w => rejects w .unassignedOpcode) = true := by decide
/-- V7.15 to V7.18, V7.21. -/
theorem test_dec_unused_field : ([0x110, 0x1020, 0x10025, 0x126, 0x141].all fun w => rejects w .unusedField) = true := by decide
/-- V7.19. -/
theorem test_dec_reserved_id : ([0x5025, 0x70022].all fun w => rejects w .reservedMatrixId) = true := by decide
/-- V7.20. -/
theorem test_dec_reserved_bit : ([0x422, 0x8022, 0x80022, 0x80000000].all fun w => rejects w .reservedBit) = true := by decide

/-- The words of `cmd MMUL M2, M0, M1` and of the pseudo-instruction `msub M0, CM, 2, 4, 0, 2` (41_matrix.md R153). -/
theorem test_asm : asmCmd (.mmul 2 0 1) = .writeReg 0 0x00010222 ∧
    asmMsub 0 4 2 4 0 2 = [.writeReg 4 2, .writeReg 5 4, .writeReg 6 0, .writeReg 7 2, .writeReg 0 0x00004023] := by decide

/-! ### Commands, one step each -/

/-- V8.11. -/
theorem test_nop : ran (exec .nop { base with err := 1 }) (fun t => t.err == 0) = true := by decide
/-- V8.2. -/
theorem test_nop_locked : ran (exec .nop { base with fatal := true }) (fun t => t.err == 0x82 && t.fatal) = true := by decide
/-- V2.1. -/
theorem test_gfadd : ran (exec .gfadd { base with arg0 := 0x53, arg1 := 0xCA }) (fun t => t.res0 == 0x99 && t.err == 0) = true := by decide
/-- V2.42. -/
theorem test_gfadd_range : ran (exec .gfadd { base with arg0 := 0x100, res0 := 9 }) (fun t => t.res0 == 9 && t.err == 0x81) = true := by decide
/-- V2.4. -/
theorem test_gfmul : ran (exec .gfmul { base with arg0 := 0x53, arg1 := 0xCA }) (fun t => t.res0 == 0x8F && t.err == 0) = true := by decide +kernel
/-- V2.43. -/
theorem test_gfmul_range : ran (exec .gfmul { base with arg1 := 0xFFFFFFFF }) (fun t => t.err == 0x81) = true := by decide
/-- V2.17. -/
theorem test_gfdiv : ran (exec .gfdiv { base with arg0 := 0xCA, arg1 := 0x53 }) (fun t => t.res0 == 0xEC && t.err == 0) = true := by decide +kernel
/-- V2.13 and V2.15. -/
theorem test_gfdiv_zero : (ran (exec .gfdiv base) (fun t => t.res0 == 0 && t.err == 0) &&
    ran (exec .gfdiv { base with arg0 := 5, res0 := 1 }) (fun t => t.res0 == 1 && t.err == 1)) = true := by decide +kernel
/-- V2.25. -/
theorem test_gfinv : ran (exec .gfinv { base with arg0 := 0x53, arg1 := 0x100 }) (fun t => t.res0 == 0x8C && t.err == 0) = true := by decide +kernel
/-- V2.45. -/
theorem test_gfinv_zero : ran (exec .gfinv { base with arg1 := 0x100 }) (fun t => t.err == 1) = true := by decide +kernel
/-- V2.39. -/
theorem test_gfpow : ran (exec .gfpow { base with arg0 := 5, arg1 := 254 }) (fun t => t.res0 == 0xA7 && t.err == 0) = true := by decide +kernel
/-- V2.29, V2.30 and V2.41. -/
theorem test_gfpow_ends : (ran (exec .gfpow base) (fun t => t.res0 == 1) && ran (exec .gfpow { base with arg1 := 1 }) (fun t => t.res0 == 0) &&
    ran (exec .gfpow { base with arg0 := 2, arg1 := 0xFFFFFFFF }) (fun t => t.res0 == 1)) = true := by decide +kernel
/-- V9.12. -/
theorem test_mnew : ran (exec (.mnew 0) { base with arg0 := 1, arg1 := 2 }) (fun t => t.mats[0] == mat 1 2 [0, 0] && t.err == 0) = true := by decide +kernel
/-- V3.26. -/
theorem test_mnew_range : (ran (exec (.mnew 0) { base with arg0 := 257 }) (fun t => t.err == 0x81) &&
    ran (exec (.mnew 0) { base with arg1 := 513 }) (fun t => t.err == 0x81)) = true := by decide +kernel
/-- The identity of size 2 (41_matrix.md R151). -/
theorem test_mident : ran (exec (.mident 2) { base with arg0 := 2 }) (fun t => t.mats[2] == mat 2 2 [1, 0, 0, 1] && t.err == 0) = true := by decide +kernel
/-- V3.26. -/
theorem test_mident_range : ran (exec (.mident 2) { base with arg0 := 257 }) (fun t => t.err == 0x81) = true := by decide +kernel
/-- V3.2, the destination being a source. -/
theorem test_mmul : ran (exec (.mmul 0 1 0) ((base.setMat 0 (mat 2 2 [1, 2, 3, 4])).setMat 1 (mat 2 2 [5, 6, 7, 8])))
    (fun t => t.mats[0] == mat 2 2 [0x0F, 0x12, 0x1F, 0x2E] && t.err == 0) = true := by decide +kernel
/-- V8.5 and V7.6. -/
theorem test_mmul_cm : (ran (exec (.mmul 1 0 4) (base.setMat 0 (mat 2 3 [0, 0, 0, 0, 0, 0]))) (fun t => t.err == 0x82) &&
    ran (exec (.mmul 3 4 4) { base with coder := some coder22 }) (fun t => t.err == 2)) = true := by decide +kernel
/-- V3.9. -/
theorem test_msub : ran (exec (.msub 3 0) (({ base with arg1 := 2, arg2 := 1, arg3 := 2 }).setMat 0 (mat 2 2 [1, 2, 3, 4])))
    (fun t => t.mats[3] == mat 2 1 [2, 4] && t.err == 0) = true := by decide +kernel
/-- V3.11. -/
theorem test_msub_range : (ran (exec (.msub 3 0) (({ base with arg1 := 3, arg3 := 2 }).setMat 0 (mat 2 2 [1, 2, 3, 4]))) (fun t => t.err == 0x81) &&
    ran (exec (.msub 3 0) (({ base with arg0 := 2, arg1 := 1, arg3 := 2 }).setMat 0 (mat 2 2 [1, 2, 3, 4]))) (fun t => t.err == 0x81)) = true := by decide +kernel
/-- V3.12. -/
theorem test_maug : ran (exec (.maug 2 0 1) ((base.setMat 0 (mat 2 2 [1, 2, 3, 4])).setMat 1 (mat 2 2 [1, 0, 0, 1])))
    (fun t => t.mats[2] == mat 2 4 [1, 2, 1, 0, 3, 4, 0, 1] && t.err == 0) = true := by decide +kernel
/-- V3.14 and V8.9. -/
theorem test_maug_errors : (ran (exec (.maug 2 0 1) ((base.setMat 0 (matNew 1 300)).setMat 1 (matNew 1 300))) (fun t => t.err == 0x81) &&
    ran (exec (.maug 2 0 1) ((base.setMat 0 (matNew 2 300)).setMat 1 (matNew 3 300))) (fun t => t.err == 2)) = true := by decide +kernel
/-- V3.18. -/
theorem test_minv : ran (exec (.minv 1 0) (base.setMat 0 (mat 3 3 [0, 0, 1, 2, 0, 0, 0, 3, 4])))
    (fun t => t.mats[1] == mat 3 3 [0, 0x8E, 0, 0xF7, 0, 0xF4, 1, 0, 0] && t.err == 0) = true := by decide +kernel
/-- V3.19 and V8.8: `MINV` sets no `FATAL`. -/
theorem test_minv_errors : (ran (exec (.minv 1 0) (base.setMat 0 (mat 2 2 [1, 2, 2, 4]))) (fun t => t.err == 4 && !t.fatal) &&
    ran (exec (.minv 1 0) (base.setMat 0 (mat 2 3 [0, 0, 0, 0, 0, 0]))) (fun t => t.err == 3)) = true := by decide +kernel
/-- V3.25 and V9.13. -/
theorem test_missq : (ran (exec (.missq 4) { base with coder := some coder22, res0 := 9 }) (fun t => t.res0 == 0 && t.err == 0) &&
    ran (exec (.missq 0) base) (fun t => t.res0 == 1 && t.err == 0)) = true := by decide +kernel
/-- V8.4. -/
theorem test_missq_unconfigured : ran (exec (.missq 4) base) (fun t => t.err == 0x82) = true := by decide
/-- V4.4. -/
theorem test_mbuild : ran (exec (.mbuild 1) { base with arg0 := 3, arg1 := 2 })
    (fun t => t.mats[1] == mat 5 3 [1, 0, 0, 0, 1, 0, 0, 0, 1, 1, 1, 1, 0xF, 8, 6] && t.err == 0 && t.coder == none) = true := by decide +kernel
/-- V4.10 and V4.12. -/
theorem test_mbuild_errors : (ran (exec (.mbuild 1) { base with arg0 := 200, arg1 := 57 }) (fun t => t.err == 5) &&
    ran (exec (.mbuild 1) { base with arg0 := 0xFFFFFFFF, arg1 := 1 }) (fun t => t.err == 5)) = true := by decide +kernel
/-- V6.1. -/
theorem test_config : ran (exec .config { base with arg0 := 2, arg1 := 2 })
    (fun t => t.coder == some coder22 && t.status == 2 && t.err == 0) = true := by decide +kernel
/-- V6.4, V6.7 and V6.9. -/
theorem test_config_errors : (ran (exec .config { base with arg0 := 2 }) (fun t => t.err == 6 && t.status == 0) &&
    ran (exec .config { base with arg0 := 0xFFFFFFFF, arg1 := 1 }) (fun t => t.err == 6) &&
    ran (exec .config { base with coder := some coder22 }) (fun t => t.err == 0x82)) = true := by decide +kernel
/-- V5.1. -/
theorem test_encode : ran (exec .encode (shards (slot 0 [0, 1, 2] ++ slot 1 [3, 4, 5]) (lens4 3 3 3 3)))
    (fun t => holds t 2 [6, 0xB, 0xC] && holds t 3 [5, 0xE, 0xB] && holds t 1 [3, 4, 5] && t.err == 0) = true := by decide +kernel
/-- V5.22, V5.20 and V5.25. -/
theorem test_encode_errors : (ran (exec .encode (shards [] (lens4 3 0 3 2))) (fun t => t.err == 9 && t.sh == []) &&
    ran (exec .encode (shards [] (lens4 3 3 3 2))) (fun t => t.err == 10) &&
    ran (exec .encode (shards [] (lens4 65537 65537 65537 65537))) (fun t => t.err == 0x81)) = true := by decide +kernel
/-- V5.3. -/
theorem test_decode : ran (exec .decode (shards (slot 0 [0, 1, 2] ++ slot 3 [5, 0xE, 0xB]) (lens4 3 0 0 3)))
    (fun t => holds t 1 [3, 4, 5] && holds t 2 [6, 0xB, 0xC] && t.len[1] == 3 && t.len[2] == 3 && t.err == 0) = true := by decide +kernel
/-- V5.8 (the selection is observable), and V5.26. -/
theorem test_decode_selection : (ran (exec .decode (shards (slot 1 [3, 4, 5] ++ slot 2 [7, 0xB, 0xC] ++ slot 3 [5, 0xE, 0xB]) (lens4 0 3 3 3)))
    (fun t => holds t 0 [0xF4, 1, 2] && t.err == 0) &&
    ran (exec .decode (shards [] (lens4 65537 0 0 0))) (fun t => t.err == 11 && !t.fatal)) = true := by decide +kernel

/-! ### Host operations, one step each -/

/-- V9.7: a write to a read-only register is ignored. -/
theorem test_write_read_only : ran (step (hosts base [.writeReg 8 5])) (fun t => t.readReg 8 == some 0) = true := by decide +kernel
/-- V9.9. -/
theorem test_write_arg2 : ran (step (hosts base [.writeReg 6 0xDEADBEEF])) (fun t => t.readReg 6 == some 0xDEADBEEF) = true := by decide +kernel
/-- V9.10: shard bytes and `LEN` are independent. -/
theorem test_write_shard : ran (step (hosts base [.writeShard 5 0 0x7E])) (fun t => t.shByte 5 0 == 0x7E && t.readReg 0x105 == some 0) = true := by decide +kernel
/-- V9.11. -/
theorem test_write_len : ran (step (hosts base [.writeReg 0x105 0xFFFFFFFF])) (fun t => t.len[5] == 0xFFFFFFFF) = true := by decide +kernel
/-- V9.6 and the spot checks of 2.1. -/
theorem test_read_tables : (ran (step (hosts base [.readExp 254])) (fun t => t.replies == [.byte 0x8E]) &&
    ran (step (hosts base [.readLog 0x53])) (fun t => t.replies == [.logEntry 206])) = true := by decide +kernel
/-- V9.12. -/
theorem test_write_mat : ran (step (hosts (base.setMat 0 (mat 1 2 [0, 0])) [.writeMat 0 1 0x33])) (fun t => t.mats[0] == mat 1 2 [0, 0x33]) = true := by decide +kernel
/-- V8.1: `BadState` before `IllegalCommand`; and V8.3. -/
theorem test_illegal_word : (ran (step (hosts { base with fatal := true } [.writeReg 0 0xFF])) (fun t => t.err == 0x82 && t.cmd == 0xFF) &&
    ran (step (hosts base [.writeReg 0 0x5026])) (fun t => t.err == 0x80 && t.cmd == 0x5026)) = true := by decide +kernel
/-- Reserved accesses are refused (93_implementation_defined.md U1), and any access but a read of `STATUS` while `BUSY = 1` (U2). -/
theorem test_refusals : ([HostOp.readReg 0xD, .writeReg 0x200 0, .readShard 256 0, .writeShard 0 65536 0, .readMat 4 0, .writeMat 4 0 0,
    .readMat 0 0, .readLog 256, .readExp 255].all (fun op => refuses (step (hosts base [op]))) &&
    refuses (step (hosts { base with busy := true } [.readReg 2])) &&
    ran (step (hosts { base with busy := true } [.readReg 1])) (fun t => t.replies == [.reg 1])) = true := by decide +kernel
/-- The fetch word of `GFADD` runs as the first command after reset. -/
theorem test_fetch : ran (step (State.reset.withFetchWord 32 0x10)) (fun t => t.cmd == 0x10 && t.err == 0 && !t.busy) = true := by decide +kernel

/-! ### Witnesses: states and operands that meet the hypotheses of the statements -/

theorem base_romOfCfg : base.romOfCfg := ⟨default_wellFormed, ofCfg_default.symm⟩

theorem coder22_built : buildMatrix printedTables Cfg.default.point 2 2 = .ok coder22.cm := by decide +kernel

theorem coder22_ok : coder22.Ok printedTables Cfg.default.point :=
  ⟨by decide, by decide, by decide, by decide, coder22_built⟩

/-- The states of V5 meet the invariant. -/
theorem shards_inv {s : State} (hc : s.cfg = Cfg.default) (hr : s.rom = printedTables) (hb : s.busy = false)
    (hm : s.mats = base.mats) (hk : s.coder = some coder22) (hw : Memory.wf s.sh)
    (hs : ∀ w ∈ s.sh, w.1 / 2 ^ 32 ≤ 255 ∧ w.1 % 2 ^ 32 < 65536) (he : s.err = 0) (h0 : s.res0 = 0) : State.Inv s where
  cfgOk := hc ▸ default_wellFormed
  romOk := by rw [hr, hc, ofCfg_default]
  idle := hb
  matsOk := by
    rw [hm]
    intro b
    have : base.mats[b] = ⟨0, 0, #[]⟩ := by revert b; decide +kernel
    rw [this]; decide
  coderOk := by
    rw [hk, hr, hc]
    intro c h
    rw [← Option.some.inj h]
    exact coder22_ok
  shOk := hw
  shRange := by rw [hc]; exact hs
  errOk := by rw [he]; decide
  res0Ok := by rw [h0]; decide

/-- V5.1: a full set. -/
def full : State := shards (slot 0 [0, 1, 2] ++ slot 1 [3, 4, 5]) (lens4 3 3 3 3)
/-- V5.3: two of four present. -/
def part : State := shards (slot 0 [0, 1, 2] ++ slot 3 [5, 0xE, 0xB]) (lens4 3 0 0 3)
/-- V5.4: both data shards absent. -/
def lost : State := shards (slot 2 [6, 0xB, 0xC] ++ slot 3 [5, 0xE, 0xB]) (lens4 0 0 3 3)

theorem full_inv : State.Inv full :=
  shards_inv rfl rfl rfl rfl rfl (by decide +kernel) (by decide +kernel) rfl rfl
theorem part_inv : State.Inv part :=
  shards_inv rfl rfl rfl rfl rfl (by decide +kernel) (by decide +kernel) rfl rfl
theorem lost_inv : State.Inv lost :=
  shards_inv rfl rfl rfl rfl rfl (by decide +kernel) (by decide +kernel) rfl rfl

theorem test_hyp_fullSet : full.hasCoder coder22 ∧ full.fullSet coder22 3 :=
  ⟨⟨rfl, by decide, by decide, by decide, by decide⟩, by decide +kernel, by decide +kernel, by decide, by decide +kernel, by decide +kernel⟩
theorem test_hyp_partialSet : (part.hasCoder coder22 ∧ part.partialSet coder22 3) ∧ lost.partialSet coder22 3 := by
  refine ⟨⟨⟨rfl, by decide, by decide, by decide, by decide⟩, ?_⟩, ?_⟩ <;>
    exact ⟨by decide +kernel, by decide +kernel, by decide +kernel, by decide, by decide +kernel, by decide +kernel⟩

/-! Encoding and the start of a command -/

theorem test_hyp_DecodeEncodeRoundTrip : (Instr.maug 3 4 4).wellFormed = true := by decide
theorem test_hyp_AcceptedWordIsItsEncoding : Sys2Proof.decode 0x44322#32 = .ok (.mmul 3 4 4) := rfl
theorem test_hyp_StepRunsTheDecodedCommand : (hosts base [.writeReg 0 0x42]).busy = false ∧
    (hosts base [.writeReg 0 0x42]).next (.writeReg 0 0x42) [] ∧ Sys2Proof.decode 0x42#32 = .ok .decode := ⟨rfl, rfl, rfl⟩
theorem test_hyp_EveryCommandWordCompletes : (hosts base [.writeReg 0 0xFFFFFFFF]).busy = false ∧
    (hosts base [.writeReg 0 0xFFFFFFFF]).next (.writeReg 0 0xFFFFFFFF) [] := ⟨rfl, rfl⟩
theorem test_hyp_IllegalWordCompletes : (hosts base [.writeReg 0 0x43]).busy = false ∧ (hosts base [.writeReg 0 0x43]).fatal = false ∧
    (hosts base [.writeReg 0 0x43]).next (.writeReg 0 0x43) [] ∧ IllegalWord 0x43 := ⟨rfl, rfl, rfl, .inl (by decide)⟩
/-- Each clause of `IllegalWord` at a word of V7.14 to V7.20 or at the end of its range. -/
theorem test_hyp_IllegalWord : IllegalWord 0xFF ∧ IllegalWord 0x422 ∧ IllegalWord 0x822 ∧ IllegalWord 0x8022 ∧ IllegalWord 0x80022 ∧
    IllegalWord 0x80000000 ∧ IllegalWord 0x110 ∧ IllegalWord 0x1020 ∧ IllegalWord 0x10025 ∧ IllegalWord 0x5025 ∧ IllegalWord 0x50022 :=
  ⟨.inl (by decide), .inr (.inl (by decide)), .inr (.inr (.inl (by decide))), .inr (.inr (.inr (.inl (by decide)))),
    .inr (.inr (.inr (.inr (.inl ⟨19, by decide⟩)))), .inr (.inr (.inr (.inr (.inl ⟨31, by decide⟩)))),
    .inr (.inr (.inr (.inr (.inr (.inl (by decide)))))), .inr (.inr (.inr (.inr (.inr (.inr (.inl (by decide))))))),
    .inr (.inr (.inr (.inr (.inr (.inr (.inr (.inl (by decide)))))))), .inr (.inr (.inr (.inr (.inr (.inr (.inr (.inr (.inl (by decide))))))))),
    .inr (.inr (.inr (.inr (.inr (.inr (.inr (.inr (.inr (by decide)))))))))⟩
theorem test_hyp_FatalLockRefusesEveryWord : (hosts { base with fatal := true } [.writeReg 0 0xFF]).busy = false ∧
    (hosts { base with fatal := true } [.writeReg 0 0xFF]).fatal = true ∧
    (hosts { base with fatal := true } [.writeReg 0 0xFF]).next (.writeReg 0 0xFF) [] := ⟨rfl, rfl, rfl⟩

/-! Completion, frames, reset, the invariant -/

/-- An error completion, and the one of `DECODE` that locks: a selection of rows 2, 3 of a matrix in which they are equal. -/
theorem test_hyp_ErrorCompletionChangesNothingElse :
    ran (exec .gfdiv { base with arg0 := 5 }) (fun t => t.err != 0) = true ∧
    ran (exec .decode { lost with coder := some { coder22 with cm := mat 4 2 [1, 0, 0, 1, 1, 1, 1, 1] } })
      (fun t => t.err == 4 && t.fatal) = true := by decide +kernel
/-- Every command answers a next state. -/
theorem test_hyp_CommandsChangeOnlyTheirDestination : ([Instr.nop, .gfadd, .gfmul, .gfdiv, .gfinv, .gfpow, .mnew 3, .mident 3, .mmul 3 4 4,
    .msub 3 4, .maug 3 4 4, .minv 3 4, .missq 4, .mbuild 3, .config, .encode, .decode].all fun i =>
      ran (exec i { part with arg1 := 1, arg3 := 1 }) fun t => !t.busy) = true ∧ ran (exec .encode full) (fun t => t.err == 0) = true := by decide +kernel
/-- Keys and slots outside those that `ENCODE` of `full` and `DECODE` of `part` write: a data slot, offset L of a parity slot; slots 0 and 4. -/
theorem test_hyp_frameKeys : (∀ r < 2, ∀ o < full.lenAt 0, shKey 1 2 ≠ shKey (2 + r) o ∧ shKey 2 3 ≠ shKey (2 + r) o) ∧ full.lenAt 0 = 3 ∧
    part.decodeLen coder22 = 3 ∧ (∀ i, part.decodeFills coder22 i ↔ i = 1 ∨ i = 2) := by
  have h1 : part.missing 0 2 = [1] := by decide +kernel
  have h2 : part.missing 2 2 = [2] := by decide +kernel
  refine ⟨by decide +kernel, by decide +kernel, by decide +kernel, fun i => ?_⟩
  have e : part.decodeFills coder22 i ↔ i ∈ part.missing 0 2 ∨ i ∈ part.missing 2 2 := Iff.rfl
  rw [e, h1, h2]
  simp
theorem test_hyp_ResetMeetsTheInvariant : Cfg.default.WellFormed := default_wellFormed
theorem test_hyp_UnconfiguredSourceIsBadState : base.fatal = false ∧ base.coder = none ∧ (4 : SrcId).val ≤ 4 ∧ (0 : SrcId).val ≤ 4 :=
  ⟨rfl, rfl, by decide, by decide⟩
theorem test_hyp_ResetFromAnyState : (hosts { base with busy := true, fatal := true } [.reset]).next .reset [] := rfl
theorem test_hyp_OnlyResetUnlocksOrUnconfigures : ∃ t, step (hosts { part with fatal := true } [.writeReg 0 0x40]) = .next t ∧
    (∀ rest, (hosts { part with fatal := true } [.writeReg 0 0x40]).host ≠ .reset :: rest) ∧ part.coder = some coder22 :=
  ⟨_, rfl, (fun _ h => nomatch h), rfl⟩
theorem test_hyp_ParametersAndTablesAreConstant : (∃ t, step (hosts base [.reset]) = .next t) ∧ base.rom = Tables.ofCfg base.cfg :=
  ⟨⟨_, rfl⟩, ofCfg_default.symm⟩
theorem test_hyp_StepKeepsTheInvariant : State.Inv part ∧ ∃ t, step part = .next t := ⟨part_inv, _, rfl⟩
theorem test_hyp_FatalIsUnreachable : State.Inv part ∧ State.good part = true := ⟨part_inv, rfl⟩

/-! Field commands: each clause at the ends of its range -/

theorem test_hyp_NopClearsErr : base.fatal = false ∧ ({ base with fatal := true } : State).fatal = true := ⟨rfl, rfl⟩
theorem test_hyp_GfaddIsXor : base.fatal = false ∧ (0xFF : Word).toNat ≤ 0xFF ∧ (0x100 : Word).toNat > 0xFF := ⟨rfl, by decide, by decide⟩
/-- The two table entries and the product's (V2.6), for `GFMUL` and `GFDIV` (V2.21). -/
theorem test_hyp_GfmulByTables : base.rom.log[0xFF - 1]? = some 175 ∧ base.rom.exp[(175 + 175) % 255]? = some 0xE2 ∧
    base.rom.log[1 - 1]? = some 0 ∧ base.rom.exp[(0 + 0) % 255]? = some 1 := by decide +kernel
theorem test_hyp_GfdivByTables : base.rom.log[1 - 1]? = some 0 ∧ base.rom.log[0xFF - 1]? = some 175 ∧
    base.rom.exp[(((0 : Int) - 175) % 255).toNat]? = some 0xFD := by decide +kernel
theorem test_hyp_GfinvByTables : base.fatal = false ∧ base.romOfCfg ∧ (0 : Word) = 0 ∧ (0x100 : Word).toNat > 0xFF ∧ base.rom.log[0xFF - 1]? = some 175 ∧
    base.rom.exp[(255 - 175) % 255]? = some 0xFD := ⟨rfl, base_romOfCfg, rfl, by decide, by decide +kernel, by decide +kernel⟩
theorem test_hyp_GfpowIsRepeatedMultiplication : ({ base with arg0 := 0xFF, arg1 := 0xFFFFFFFF } : State).romOfCfg ∧
    ({ base with arg0 := 0xFF, arg1 := 0xFFFFFFFF } : State).fatal = false ∧ (0xFF : Word).toNat ≤ 0xFF := ⟨base_romOfCfg, rfl, by decide⟩
theorem test_hyp_GfmulIsThePolynomialProduct : ({ base with arg0 := 0xFF, arg1 := 0xFF } : State).romOfCfg ∧
    ({ base with arg0 := 0xFF, arg1 := 0xFF } : State).fatal = false ∧ (0xFF : Word).toNat ≤ 0xFF := ⟨base_romOfCfg, rfl, by decide⟩
/-- For `TablesAreInverse`, `SourceFieldLaws`, `FurtherFieldLaws`: the default parameters, table entries at both ends, and a nonzero byte. -/
theorem test_hyp_fieldLaws : Cfg.default.WellFormed ∧ (Tables.ofCfg Cfg.default).exp[0]? = some 1 ∧ (Tables.ofCfg Cfg.default).exp[254]? = some 0x8E ∧
    (Tables.ofCfg Cfg.default).exp[253]? = some 0x47 ∧ (Tables.ofCfg Cfg.default).log[0xFF - 1]? = some 175 ∧ (0xFF : Byte) ≠ 0 := by
  rw [ofCfg_default]
  exact ⟨default_wellFormed, by decide +kernel, by decide +kernel, by decide +kernel, by decide +kernel, by decide⟩

/-! Matrix commands -/

theorem test_hyp_MnewZeroFills : base.fatal = false ∧ (256 : Word).toNat ≤ 256 ∧ (512 : Word).toNat ≤ 512 ∧ (257 : Word).toNat > 256 ∧
    (513 : Word).toNat > 512 := ⟨rfl, by decide, by decide, by decide, by decide⟩
theorem test_hyp_MidentBuildsTheIdentity : base.fatal = false ∧ (256 : Word).toNat ≤ 256 ∧ (257 : Word).toNat > 256 := ⟨rfl, by decide, by decide⟩
/-- Both forms of a source. -/
theorem test_hyp_SourceIs : SourceIs base 3 base.mats[3] ∧ SourceIs part 4 coder22.cm := ⟨.inl ⟨3, rfl, rfl⟩, .inr ⟨rfl, coder22, rfl, rfl⟩⟩
/-- `CM` times the 2 x 2 identity, and `CM` times itself. -/
theorem test_hyp_MmulIsTheProduct : (part.setMat 0 (matIdentity 2)).fatal = false ∧ SourceIs (part.setMat 0 (matIdentity 2)) 4 coder22.cm ∧
    SourceIs (part.setMat 0 (matIdentity 2)) 0 (matIdentity 2) ∧ coder22.cm.cols = (matIdentity 2).rows ∧ coder22.cm.cols ≠ coder22.cm.rows ∧
    coder22.cm.rows ≤ 256 ∧ (matIdentity 2).cols ≤ 512 :=
  ⟨rfl, .inr ⟨rfl, coder22, rfl, rfl⟩, .inl ⟨0, rfl, rfl⟩, rfl, by decide, by decide, by decide⟩
/-- The whole of `CM`, an empty range at its end, and each way to leave it. -/
theorem test_hyp_MsubExtractsTheRange : part.fatal = false ∧ SourceIs part 4 coder22.cm ∧ coder22.cm.rows ≤ 256 ∧ coder22.cm.cols ≤ 512 ∧
    ((0 : Word).toNat ≤ (4 : Word).toNat ∧ (4 : Word).toNat ≤ coder22.cm.rows ∧ (2 : Word).toNat ≤ coder22.cm.cols) ∧
    (1 : Word).toNat > (0 : Word).toNat ∧ (5 : Word).toNat > coder22.cm.rows ∧ (3 : Word).toNat > coder22.cm.cols :=
  ⟨rfl, .inr ⟨rfl, coder22, rfl, rfl⟩, by decide, by decide, by decide, by decide, by decide, by decide⟩
theorem test_hyp_MaugConcatenates : SourceIs (base.setMat 1 (matNew 1 256)) 1 (matNew 1 256) ∧ (matNew 1 256).rows ≤ 256 ∧
    (matNew 1 256).cols + (matNew 1 256).cols ≤ 512 ∧ (matNew 1 257).cols + (matNew 1 256).cols > 512 ∧
    SourceIs (base.setMat 1 (matNew 1 257)) 1 (matNew 1 257) ∧ SourceIs (base.setMat 1 (matNew 1 257)) 0 ⟨0, 0, #[]⟩ ∧ (matNew 1 257).rows ≠ 0 :=
  ⟨.inl ⟨1, rfl, rfl⟩, by decide, by decide, by decide, .inl ⟨1, rfl, rfl⟩, .inl ⟨0, rfl, rfl⟩, by decide⟩
/-- V3.24: a matrix that is its own inverse. -/
theorem self_inverse : IsInverse printedTables (mat 2 2 [3, 2, 2, 3]) (mat 2 2 [3, 2, 2, 3]) :=
  ⟨by decide, rfl, rfl, by decide +kernel, by decide +kernel⟩
/-- The zero matrix of size 1 has no inverse. -/
theorem zero_singular : ¬ ∃ X, IsInverse printedTables (mat 1 1 [0]) X := by
  rintro ⟨X, -, -, -, h, -⟩
  unfold matMul at h
  split at h
  · cases h
  · have h1 := congrArg (fun A => A.at 0 0) (Except.ok.inj h)
    have hc : X.cols = 1 := congrArg Mat.cols (Except.ok.inj h)
    have h2 : (Mat.ofFn (mat 1 1 [0]).rows X.cols fun r c => xorSum (mat 1 1 [0]).cols fun i => gfMul printedTables ((mat 1 1 [0]).at r i) (X.at i c)).at 0 0 = 0 := by
      rw [hc]
      simp [Mat.at, Mat.ofFn, mat, xorSum, gfMul]
    rw [h2] at h1
    exact absurd h1 (by decide)
theorem test_hyp_MinvLeavesTheInverse : (base.setMat 0 (mat 2 2 [3, 2, 2, 3])).fatal = false ∧ (base.setMat 0 (mat 2 2 [3, 2, 2, 3])).romOfCfg ∧
    SourceIs (base.setMat 0 (mat 2 2 [3, 2, 2, 3])) 0 (mat 2 2 [3, 2, 2, 3]) ∧ (mat 2 2 [3, 2, 2, 3]).wf ∧
    IsInverse (base.setMat 0 (mat 2 2 [3, 2, 2, 3])).rom (mat 2 2 [3, 2, 2, 3]) (mat 2 2 [3, 2, 2, 3]) ∧
    SourceIs part 4 coder22.cm ∧ coder22.cm.wf ∧ coder22.cm.rows ≠ coder22.cm.cols ∧
    SourceIs (base.setMat 0 (mat 1 1 [0])) 0 (mat 1 1 [0]) ∧ (mat 1 1 [0]).wf ∧ ¬ ∃ X, IsInverse (base.setMat 0 (mat 1 1 [0])).rom (mat 1 1 [0]) X :=
  ⟨rfl, base_romOfCfg, .inl ⟨0, rfl, rfl⟩, by decide, self_inverse, .inr ⟨rfl, coder22, rfl, rfl⟩, by decide, by decide, .inl ⟨0, rfl, rfl⟩,
    by decide, zero_singular⟩
theorem test_hyp_PipelineInverts : Cfg.default.WellFormed ∧ (mat 2 2 [3, 2, 2, 3]).wf ∧ (mat 2 2 [3, 2, 2, 3]).rows = (mat 2 2 [3, 2, 2, 3]).cols ∧
    matInvert (Tables.ofCfg Cfg.default) (mat 2 2 [3, 2, 2, 3]) = .ok (mat 2 2 [3, 2, 2, 3]) := by
  rw [ofCfg_default]
  exact ⟨default_wellFormed, by decide, rfl, by decide +kernel⟩
theorem test_hyp_MissqTestsSquareness : SourceIs base 0 ⟨0, 0, #[]⟩ ∧ SourceIs part 4 coder22.cm ∧ coder22.cm.rows ≠ coder22.cm.cols :=
  ⟨.inl ⟨0, rfl, rfl⟩, .inr ⟨rfl, coder22, rfl, rfl⟩, by decide⟩

/-! Builder and coder -/

/-- The largest and the smallest geometries. -/
theorem test_hyp_BuilderIsSystematicVandermonde : Cfg.default.WellFormed ∧ 1 ≤ 256 ∧ 256 + 0 ≤ 256 ∧ 1 + 255 ≤ 256 :=
  ⟨default_wellFormed, by decide, by decide, by decide⟩
theorem test_hyp_AnyRowsOfTheBuiltMatrixInvert : Cfg.default.WellFormed ∧
    buildMatrix (Tables.ofCfg Cfg.default) Cfg.default.point 2 2 = .ok coder22.cm ∧ [3, 0].length = 2 ∧ [3, 0].Nodup ∧ ∀ r ∈ [3, 0], r < 2 + 2 := by
  rw [ofCfg_default]
  exact ⟨default_wellFormed, coder22_built, rfl, by decide, by decide⟩
/-- V4.2 and V4.3. -/
theorem test_hyp_BuiltRowsDependOnKAlone : 1 ≤ 2 ∧ buildMatrix (Tables.ofCfg Cfg.default) Cfg.default.point 2 2 = .ok coder22.cm ∧
    buildMatrix (Tables.ofCfg Cfg.default) Cfg.default.point 2 1 = .ok (mat 3 2 [1, 0, 0, 1, 3, 2]) := by
  rw [ofCfg_default]
  exact ⟨by decide, coder22_built, by decide +kernel⟩
theorem test_hyp_MbuildStoresTheBuiltMatrix : base.romOfCfg ∧ base.fatal = false ∧ 1 ≤ (1 : Word).toNat ∧ (1 : Word).toNat + (255 : Word).toNat ≤ 256 ∧
    (1 : Word).toNat + (256 : Word).toNat > 256 := ⟨base_romOfCfg, rfl, by decide, by decide, by decide⟩
theorem test_hyp_ConfigBuildsTheCoder : base.fatal = false ∧ base.coder = none ∧ base.romOfCfg ∧ 1 ≤ (1 : Word).toNat ∧
    (1 : Word).toNat + (255 : Word).toNat ≤ 256 ∧ (1 : Word).toNat + (256 : Word).toNat > 256 ∧ part.coder = some coder22 :=
  ⟨rfl, rfl, base_romOfCfg, by decide, by decide, by decide, rfl⟩
/-- V5.20, V5.22, V5.24, V5.25: each error of `ENCODE`, at the boundary. -/
theorem test_hyp_EncodeErrorsInOrder : base.coder = none ∧ full.coder = some coder22 ∧ (3 : Word).toNat < coder22.n.toNat ∧ (5 : Word).toNat > coder22.n.toNat ∧
    (∃ i < 4, (shards [] (lens4 3 0 3 2)).lenAt i = 0) ∧
    ((∀ i < 4, (shards [] (lens4 3 3 3 2)).lenAt i ≠ 0) ∧ ∃ i < 4, (shards [] (lens4 3 3 3 2)).lenAt i ≠ (shards [] (lens4 3 3 3 2)).lenAt 0) ∧
    (∀ i < 4, (shards [] (lens4 65537 65537 65537 65537)).lenAt i = 65537) ∧ 65537 > full.cfg.lmax := by
  refine ⟨rfl, rfl, ?_⟩; decide +kernel
theorem test_hyp_EncodeWritesTheParity : full.fatal = false ∧ full.hasCoder coder22 ∧ full.fullSet coder22 3 := ⟨rfl, test_hyp_fullSet⟩
theorem test_hyp_EncodeIsIdempotent : State.Inv full ∧ ran (exec .encode full) (fun t => t.err == 0) = true := ⟨full_inv, by decide +kernel⟩
theorem test_hyp_EncodeLeavesACodeWord : State.Inv full ∧ full.fatal = false ∧ full.coder = some coder22 ∧ full.fullSet coder22 3 ∧
    ran (exec .encode full) (fun _ => true) = true := ⟨full_inv, rfl, rfl, test_hyp_fullSet.2, by decide +kernel⟩
/-- V5.9: the data of `full`, the data [FF,10,00], [01,02,80], and their xor. -/
theorem test_hyp_EncodeIsLinear : ∃ s₂ s₃ : State, State.Inv s₂ ∧ State.Inv s₃ ∧
    (∀ s ∈ [full, s₂, s₃], s.fatal = false ∧ s.cfg = full.cfg ∧ s.coder = some coder22 ∧ s.fullSet coder22 3 ∧ ran (exec .encode s) (fun t => t.err == 0) = true) ∧
    (∀ i o, i < 2 → o < 3 → s₃.shByte i o = full.shByte i o ^^^ s₂.shByte i o) := by
  have hs : ∀ s : State, s.nshards = 4 → s.cfg = Cfg.default → (∀ i < 4, s.lenAt i = 3) → s.fullSet coder22 3 := fun s hn hc hl =>
    ⟨by rw [hn]; rfl, hl, by decide, by rw [hc]; decide, by rw [hc]; decide⟩
  refine ⟨shards (slot 0 [0xFF, 0x10, 0] ++ slot 1 [1, 2, 0x80]) (lens4 3 3 3 3), shards (slot 0 [0xFF, 0x11, 2] ++ slot 1 [2, 6, 0x85]) (lens4 3 3 3 3),
    shards_inv rfl rfl rfl rfl rfl (by decide +kernel) (by decide +kernel) rfl rfl,
    shards_inv rfl rfl rfl rfl rfl (by decide +kernel) (by decide +kernel) rfl rfl, ?_, ?_⟩
  · intro s h
    simp only [List.mem_cons, List.not_mem_nil, or_false] at h
    rcases h with rfl | rfl | rfl <;> exact ⟨rfl, rfl, rfl, hs _ rfl rfl (by decide +kernel), by decide +kernel⟩
  · intro i o hi ho
    have h : ∀ i < 2, ∀ o < 3, (shards (slot 0 [0xFF, 0x11, 2] ++ slot 1 [2, 6, 0x85]) (lens4 3 3 3 3)).shByte i o =
        full.shByte i o ^^^ (shards (slot 0 [0xFF, 0x10, 0] ++ slot 1 [1, 2, 0x80]) (lens4 3 3 3 3)).shByte i o := by decide +kernel
    exact h i hi o ho
/-- V5.18, V5.19, and one present shard too long among K present (43_coder.md R230). -/
theorem test_hyp_DecodeErrorsInOrder : base.coder = none ∧ part.coder = some coder22 ∧ (3 : Word).toNat < coder22.n.toNat ∧ (5 : Word).toNat > coder22.n.toNat ∧
    ((List.range 4).filter fun i => decide ((shards [] (lens4 3 0 0 0)).lenAt i ≠ 0)).length < 2 ∧
    ((List.range 4).filter fun i => decide ((shards [] (lens4 3 0 0 2)).lenAt i ≠ 0)) = [0, 3] ∧
    ((List.range 4).filter fun i => decide ((shards [] (lens4 65537 0 0 65537)).lenAt i ≠ 0)) = [0, 3] ∧
    (shards [] (lens4 3 0 0 2)).lenAt 0 ≠ (shards [] (lens4 3 0 0 2)).lenAt 3 ∧
    (shards [] (lens4 65537 0 0 65537)).lenAt 0 = (shards [] (lens4 65537 0 0 65537)).lenAt 3 ∧ (shards [] (lens4 65537 0 0 65537)).lenAt 0 > part.cfg.lmax := by
  refine ⟨rfl, rfl, ?_⟩; decide +kernel
/-- V5.3, whose selection inverts (a data slot is missing), and a matrix whose selection is singular. -/
theorem test_hyp_DecodeRebuildsTheMissingSlots : part.fatal = false ∧ part.hasCoder coder22 ∧ part.partialSet coder22 3 ∧
    ((List.range 4).filter (fun i => decide (part.lenAt i ≠ 0))).take 2 = [0, 3] ∧ part.lenAt 1 = 0 ∧
    matInvert part.rom (Mat.ofFn 2 2 fun j i => coder22.cm.at ([0, 3].getD j 0) i) = .ok (mat 2 2 [1, 0, 0xF5, 0xF4]) ∧
    matInvert part.rom (Mat.ofFn 2 2 fun j i => (mat 4 2 [1, 0, 0, 1, 3, 2, 1, 0]).at ([0, 3].getD j 0) i) = .error .singularMatrix :=
  ⟨rfl, test_hyp_partialSet.1.1, test_hyp_partialSet.1.2, by decide +kernel, by decide +kernel, by decide +kernel, by decide +kernel⟩
/-- V5.3: slots 0 and 3 are bytes of the code word of the data [00,01,02], [03,04,05]. -/
theorem test_hyp_DecodeCompletesACodeWord : State.Inv part ∧ part.fatal = false ∧ part.coder = some coder22 ∧ part.partialSet coder22 3 ∧
    (∀ i < 4, part.lenAt i ≠ 0 → ∀ o < 3, part.shByte i o = codeByte part.rom coder22 (fun j o => BitVec.ofNat 8 (3 * j + o)) i o) :=
  ⟨part_inv, rfl, rfl, test_hyp_partialSet.1.2, by decide +kernel⟩
/-- P3: `full` is encoded, slots 1 and 2 are lost. -/
theorem test_hyp_EncodeEraseDecodeRoundTrip : State.Inv full ∧ State.Inv part ∧ full.fullSet coder22 3 ∧ [1, 2].Nodup ∧
    [1, 2].length ≤ coder22.m.toNat ∧ (∀ i ∈ [1, 2], i < coder22.n.toNat) ∧
    ran (exec .encode full) (fun e => part.coder == e.coder && part.nshards == e.nshards &&
      ((List.range 4).all fun i => part.lenAt i == if i ∈ [1, 2] then 0 else e.lenAt i) &&
      ([0, 3].all fun i => (List.range 3).all fun o => part.shByte i o == e.shByte i o)) = true :=
  ⟨full_inv, part_inv, test_hyp_fullSet.2, by decide, by decide, by decide, by decide +kernel⟩
theorem test_hyp_TooManyErasuresAreReported : (shards [] (lens4 3 0 0 0)).hasCoder coder22 ∧ (shards [] (lens4 3 0 0 0)).nshards = coder22.n ∧
    [1, 2, 3].Nodup ∧ (∀ i ∈ [1, 2, 3], i < coder22.n.toNat ∧ (shards [] (lens4 3 0 0 0)).lenAt i = 0) ∧ coder22.m.toNat < [1, 2, 3].length :=
  ⟨⟨rfl, by decide, by decide, by decide, by decide⟩, rfl, by decide, by decide +kernel, by decide⟩
theorem test_hyp_DecodeIsIdempotent : State.Inv lost ∧ ran (exec .decode lost) (fun t => t.err == 0) = true := ⟨lost_inv, by decide +kernel⟩

/-! Host operations -/

/-- Each class of register at the ends of its range. -/
theorem test_hyp_RegisterWrites : ([4, 7, 0xB, 0x100, 0x1FF].all fun n => ran (step (hosts base [.writeReg n 0xDEADBEEF, .readReg n]))
      fun t => ran (step t) fun u => u.replies == [.reg 0xDEADBEEF]) = true ∧
    ([1, 3, 8, 0xA, 0xC, 0x10, 0x17].all fun n => ran (step (hosts base [.writeReg n 7])) fun t => t.host == []) = true := by decide +kernel
theorem test_hyp_ShardWrites : (hosts base [.writeShard 255 65535 7, .readShard 255 65535]).busy = false ∧ 65535 < base.cfg.lmax ∧ base.cfg.lmax < 2 ^ 32 :=
  ⟨rfl, by decide, by decide⟩
theorem test_hyp_MatrixWrites : (base.setMat 3 (mat 1 2 [0, 0])).busy = false ∧ (base.setMat 3 (mat 1 2 [0, 0])).mats[3].wf ∧
    1 < (base.setMat 3 (mat 1 2 [0, 0])).mats[3].rows * (base.setMat 3 (mat 1 2 [0, 0])).mats[3].cols := by decide +kernel
theorem test_hyp_TableReads : base.rom.log[0]? = some 0 ∧ base.rom.log[254]? = some 175 ∧ base.rom.exp[0]? = some 1 ∧ base.rom.exp[254]? = some 0x8E := by
  decide +kernel
/-- Each read at the ends of its range: the state gives a value. -/
theorem test_hyp_ReadGives : part.ReadGives (.readReg 0x008) (.reg 2) ∧ base.ReadGives (.readReg 0x00A) (.reg 0) ∧
    part.ReadGives (.readReg 0x1FF) (.reg 0) ∧ part.ReadGives (.readShard 3 2) (.byte 0xB) ∧ part.ReadGives (.readMat 4 7) (.byte 3) ∧
    part.ReadGives (.readLog 255) (.logEntry 175) ∧ part.ReadGives (.readExp 254) (.byte 0x8E) :=
  ⟨⟨2, .inr (.inr (.inr (.inr (.inr (.inr (.inr (.inr (.inl ⟨coder22, rfl, .inl ⟨rfl, rfl⟩⟩)))))))), rfl⟩,
    ⟨0, .inr (.inr (.inr (.inr (.inr (.inr (.inr (.inr (.inr (.inl ⟨rfl, by decide, by decide, rfl⟩))))))))), rfl⟩,
    ⟨0, .inr (.inr (.inr (.inr (.inr (.inr (.inr (.inr (.inr (.inr (.inr (.inr (.inr ⟨255, rfl, by decide +kernel⟩)))))))))))), rfl⟩,
    ⟨by decide, by decide, by decide +kernel⟩, ⟨4, coder22.cm, rfl, .inr ⟨rfl, coder22, rfl, rfl⟩, by decide, by decide +kernel⟩,
    ⟨by decide, 175, by decide +kernel, rfl⟩, ⟨0x8E, by decide +kernel, rfl⟩⟩
theorem test_hyp_ReadsChangeNothing : ([HostOp.readReg 0x1FF, .readShard 255 65535, .readMat 4 7, .readLog 255, .readExp 254].all fun op =>
    ran (step (hosts part [op])) fun t => t.replies.length == 1) = true := by decide +kernel
/-- The reserved locations at the ends of each range; their neighbours are accepted. -/
theorem test_hyp_ReservedAccessesHaveNoMeaning : ([0xD, 0xF, 0x18, 0xFF, 0x200].all fun n =>
      refuses (step (hosts base [.readReg n])) && refuses (step (hosts base [.writeReg n 0]))) = true ∧
    ([0, 0xC, 0x10, 0x17, 0x100, 0x1FF].all fun n => ran (step (hosts base [.readReg n])) fun _ => true) = true ∧
    ([HostOp.readMat 5 0, .readMat 4 8, .readMat 3 0, .writeMat 4 0 0, .writeMat 0 0 0].all fun op => refuses (step (hosts part [op]))) = true ∧
    step (hosts base [.readLog 0]) = .refused .logOfZero := by
  refine ⟨by decide +kernel, by decide +kernel, by decide +kernel, rfl⟩
theorem test_hyp_BusyAdmitsOnlyStatus : (hosts { base with busy := true } [.readReg 1]).busy = true ∧
    (hosts { base with busy := true } [.readReg 1]).next (.readReg 1) [] := ⟨rfl, rfl⟩

end Sys2Proof.Machine

end
end

section
/-! SUPPORT. What a step can do, once: the state a command's rule writes, the outcomes of a command, and the outcomes of a host operation
(60_exceptions.md R262, R263, R268; 20_memory.md R62 to R65; 30_encoding.md R92). Invariants and frames follow from `step_cases`,
`hostStep_cases` and `exec_cases`. -/

namespace Sys2Proof.Machine

/-! ### Host operations -/

/-- A host operation that needs `BUSY = 0` answers only then. -/
theorem whenIdle_next {s t : State} {r : Outcome} (h : whenIdle s r = .next t) : s.busy = false ∧ r = .next t := by
  unfold whenIdle at h
  split at h
  · cases h
  · next hb => exact ⟨Bool.eq_false_iff.2 hb, h⟩

theorem hostReadReg_next {s t : State} {n : Nat} (h : hostReadReg s n = .next t) :
    ∃ v, s.readReg n = some v ∧ t = s.reply (.reg v) := by
  unfold hostReadReg at h
  split at h
  · next v hv => cases h; exact ⟨v, hv, rfl⟩
  · cases h

theorem hostReadShard_next {s t : State} {i o : Nat} (h : hostReadShard s i o = .next t) :
    s.shardExists i o ∧ t = s.reply (.byte (s.shByte i o)) := by
  unfold hostReadShard at h
  split at h
  · next he => cases h; exact ⟨he, rfl⟩
  · cases h

theorem hostReadMat_next {s t : State} {b x : Nat} (h : hostReadMat s b x = .next t) :
    ∃ (id : SrcId) (A : Mat), id.val = b ∧ s.src id = .ok A ∧ x < A.rows * A.cols ∧ t = s.reply (.byte (A.e.getD x 0)) := by
  unfold hostReadMat at h
  split at h
  · split at h
    · next A hA =>
      split at h
      · next hx => cases h; exact ⟨_, A, rfl, hA, hx, rfl⟩
      · cases h
    · cases h
  · cases h

theorem hostReadLog_next {s t : State} {a : Nat} (h : hostReadLog s a = .next t) :
    1 ≤ a ∧ ∃ v, s.rom.log[a - 1]? = some v ∧ t = s.reply (.logEntry v) := by
  unfold hostReadLog at h
  split at h
  · cases h
  · split at h
    · next h0 h1 => cases h; exact ⟨by omega, _, Vector.getElem?_eq_getElem _, rfl⟩
    · cases h

theorem hostReadExp_next {s t : State} {i : Nat} (h : hostReadExp s i = .next t) :
    ∃ v, s.rom.exp[i]? = some v ∧ t = s.reply (.byte v) := by
  unfold hostReadExp at h
  split at h
  · cases h; exact ⟨_, Vector.getElem?_eq_getElem _, rfl⟩
  · cases h

theorem hostWriteReg_next {s t : State} {n : Nat} {v : Word} (h : hostWriteReg s n v = .next t) :
    (n = 0 ∧ startCommand s v = .next t) ∨ (n ≠ 0 ∧ s.writeReg n v = some t) := by
  unfold hostWriteReg at h
  split at h
  · next hn => exact .inl ⟨hn, h⟩
  · next hn =>
    split at h
    · next u hu => cases h; exact .inr ⟨hn, hu⟩
    · cases h

/-- A register write other than to `CMD` changes no more than the writable registers (10_state.md R38). -/
theorem State.writeReg_frame {s t : State} {n : Nat} {v : Word} (h : s.writeReg n v = some t) :
    t = { s with arg0 := t.arg0, arg1 := t.arg1, arg2 := t.arg2, arg3 := t.arg3, nshards := t.nshards, len := t.len } := by
  unfold State.writeReg at h
  repeat' split at h
  all_goals cases h <;> rfl

theorem hostWriteShard_next {s t : State} {i o : Nat} {v : Byte} (h : hostWriteShard s i o v = .next t) :
    s.shardExists i o ∧ t = s.setShByte i o v := by
  unfold hostWriteShard at h
  split at h
  · next he => cases h; exact ⟨he, rfl⟩
  · cases h

theorem hostWriteMat_next {s t : State} {b x : Nat} {v : Byte} (h : hostWriteMat s b x v = .next t) :
    ∃ d : DstId, d.val = b ∧ x < s.mats[d].rows * s.mats[d].cols ∧
      t = s.setMat d { s.mats[d] with e := s.mats[d].e.setIfInBounds x v } := by
  unfold hostWriteMat at h
  split at h
  · next hb =>
    dsimp only at h
    split at h
    · next hx => cases h; exact ⟨⟨b, hb⟩, rfl, hx, rfl⟩
    · cases h
  · cases h

/-- What a host operation that answers t has done to s: a read has only given a reply, a write has written its location,
a write to `CMD` has run the command, reset has put every field at its reset value. -/
def HostWrites (op : HostOp) (s t : State) : Prop :=
  match op with
  | .readReg n => ∃ v, s.readReg n = some v ∧ t = s.reply (.reg v)
  | .writeReg n v => (n = 0 ∧ startCommand s v = .next t) ∨ (n ≠ 0 ∧ s.writeReg n v = some t)
  | .readShard i o => s.shardExists i o ∧ t = s.reply (.byte (s.shByte i o))
  | .writeShard i o v => s.shardExists i o ∧ t = s.setShByte i o v
  | .readMat b x => ∃ (id : SrcId) (A : Mat), id.val = b ∧ s.src id = .ok A ∧ x < A.rows * A.cols ∧ t = s.reply (.byte (A.e.getD x 0))
  | .writeMat b x v => ∃ d : DstId, d.val = b ∧ x < s.mats[d].rows * s.mats[d].cols ∧
      t = s.setMat d { s.mats[d] with e := s.mats[d].e.setIfInBounds x v }
  | .readLog a => 1 ≤ a ∧ ∃ v, s.rom.log[a - 1]? = some v ∧ t = s.reply (.logEntry v)
  | .readExp i => ∃ v, s.rom.exp[i]? = some v ∧ t = s.reply (.byte v)
  | .reset => t = s.resetEvent

/-- Everything a host operation can do; all but a read of `STATUS` and reset only while `BUSY = 0` (70_reset_and_hazards.md R296). -/
theorem hostStep_cases {op : HostOp} {s t : State} (h : hostStep op s = .next t) :
    HostWrites op s t ∧ (s.busy = false ∨ op = .readReg 1 ∨ op = .reset) := by
  cases op with
  | readReg n =>
    simp only [hostStep] at h
    split at h
    · next hn => exact ⟨hostReadReg_next h, .inr (.inl (by rw [hn]))⟩
    · exact (whenIdle_next h).symm.imp hostReadReg_next .inl
  | writeReg n v => exact (whenIdle_next h).symm.imp hostWriteReg_next .inl
  | readShard i o => exact (whenIdle_next h).symm.imp hostReadShard_next .inl
  | writeShard i o v => exact (whenIdle_next h).symm.imp hostWriteShard_next .inl
  | readMat b x => exact (whenIdle_next h).symm.imp hostReadMat_next .inl
  | writeMat b x v => exact (whenIdle_next h).symm.imp hostWriteMat_next .inl
  | readLog a => exact (whenIdle_next h).symm.imp hostReadLog_next .inl
  | readExp i => exact (whenIdle_next h).symm.imp hostReadExp_next .inl
  | reset => cases h; exact ⟨rfl, .inr (.inr rfl)⟩

/-- Everything a step can do: nothing when the host's list is empty, else the first operation of the list, taken from it. -/
theorem step_cases {s t : State} (h : step s = .next t) :
    (s.host = [] ∧ t = s) ∨ ∃ op rest, s.host = op :: rest ∧ HostWrites op { s with host := rest } t ∧
      (s.busy = false ∨ op = .readReg 1 ∨ op = .reset) := by
  unfold step runNext at h
  split at h
  · next h0 => cases h; exact .inl ⟨h0, rfl⟩
  · next op rest h0 => exact .inr ⟨op, rest, h0, hostStep_cases h⟩

/-! ### Commands -/

/-- The start of a command answers as an error completion, or as the decoded command does. -/
theorem startCommand_cases {s t : State} {w : Word} (h : startCommand s w = .next t) :
    (∃ e, t = (s.accept w).fail e) ∨ ∃ i, decode w = .ok i ∧ exec i (s.accept w) = .next t := by
  unfold startCommand at h
  split at h
  · next i hi => exact .inr ⟨i, hi, h⟩
  · obtain he | ⟨-, u, hu, -⟩ := runCommand_cases h
    · exact .inl he
    · cases hu

/-- u is a state that the rule of command i can write from s, before the completion. -/
def CommandWrites (i : Instr) (s u : State) : Prop :=
  match i with
  | .nop => u = s
  | .gfadd | .gfmul | .gfdiv | .gfinv | .gfpow | .missq _ => ∃ v : Word, v.toNat ≤ 0xFF ∧ u = s.setRes0 v
  | .mnew md | .mident md | .mmul md _ _ | .msub md _ | .maug md _ _ | .minv md _ | .mbuild md =>
    ∃ X : Mat, X.wf ∧ X.rows ≤ 256 ∧ X.cols ≤ 512 ∧ u = s.setMat md X
  | .config => s.coder = none ∧ ∃ c : Coder, c.Ok s.rom s.cfg.point ∧ u = { s with coder := some c }
  | .encode => encodeBody s = .ok u
  | .decode => decodeBody s = .ok u

/-- How a command can end: in an error completion, in the fatal lock of `DECODE`, or successfully with what its rule writes. -/
def CommandEnds (i : Instr) (s t : State) : Prop :=
  (∃ e, t = s.fail e) ∨
  (s.fatal = false ∧ i = .decode ∧ decodeBody s = .error .singularMatrix ∧ t = (s.fail .singularMatrix).lock) ∨
  (s.fatal = false ∧ ∃ u, CommandWrites i s u ∧ t = u.succeed)

theorem runCommand_ends {i : Instr} {s t : State} {r : Except Err State} (h : runCommand s r = .next t)
    (hr : ∀ u, r = .ok u → CommandWrites i s u) : CommandEnds i s t := by
  obtain he | ⟨hf, u, hu, rfl⟩ := runCommand_cases h
  · exact .inl he
  · exact .inr (.inr ⟨hf, u, hr u hu, rfl⟩)

/-- A byte as a register value fits `RES0` (10_state.md R38). -/
theorem zext32_toNat_le (b : Byte) : (zext32 b).toNat ≤ 0xFF := by
  rw [BitVec.toNat_setWidth]
  omega

/-- A rule that ends in a write of `RES0` with a byte. -/
theorem setRes0_writes {s u : State} {b : Byte} (h : Except.ok (ε := Err) (s.setRes0 (zext32 b)) = .ok u) :
    ∃ v : Word, v.toNat ≤ 0xFF ∧ u = s.setRes0 v :=
  ⟨_, zext32_toNat_le b, (Except.ok.inj h).symm⟩

/-- A rule that ends in the destination's write. -/
theorem dst_writes {s u : State} {md : DstId} {X : Mat} (hX : X.wf) (h : s.dst md X = .ok u) :
    ∃ X : Mat, X.wf ∧ X.rows ≤ 256 ∧ X.cols ≤ 512 ∧ u = s.setMat md X := by
  obtain ⟨hr, hc, rfl⟩ := State.dst_ok h
  exact ⟨X, hX, hr, hc, rfl⟩

theorem matMul_wf {t : Tables} {A B X : Mat} (h : matMul t A B = .ok X) : X.wf := by
  obtain ⟨-, rfl⟩ := matMul_ok h
  exact Mat.wf_ofFn _ _ _

theorem matSub_wf {A X : Mat} {r0 r1 c0 c1 : Nat} (h : matSub A r0 r1 c0 c1 = .ok X) : X.wf := by
  obtain ⟨-, rfl⟩ := matSub_ok h
  exact Mat.wf_ofFn _ _ _

theorem matAugment_wf {A B X : Mat} (h : matAugment A B = .ok X) : X.wf := by
  obtain ⟨-, rfl⟩ := matAugment_ok h
  exact Mat.wf_ofFn _ _ _

theorem matInvert_wf {t : Tables} {A X : Mat} (h : matInvert t A = .ok X) : X.wf := by
  obtain ⟨-, W, -, rfl⟩ := matInvert_ok h
  exact Mat.wf_ofFn _ _ _

theorem buildMatrix_wf {t : Tables} {p : Vector Byte 256} {k m : Nat} {C : Mat} (h : buildMatrix t p k m = .ok C) : C.wf := by
  obtain ⟨-, -, T, -, hC⟩ := buildMatrix_ok h
  exact matMul_wf hC

/-- The coder that `CONFIG` builds (43_coder.md R210). -/
theorem execConfig_ends {s t : State} (h : execConfig s = .next t) : CommandEnds .config s t := by
  refine runCommand_ends h fun u hu => ?_
  obtain ⟨_, h1, hu⟩ := bind_ok hu
  obtain ⟨_, h2, hu⟩ := bind_ok hu
  obtain ⟨C, hC, hu⟩ := bind_ok hu
  have hnone : s.coder = none := by simpa [State.configured] using raiseIf_ok h1
  have hrange : ¬ (s.arg0.toNat < 1 ∨ s.arg1.toNat < 1 ∨ s.arg0.toNat + s.arg1.toNat > 256) :=
    of_decide_eq_false (raiseIf_ok h2)
  have hn : (BitVec.ofNat 32 (s.arg0.toNat + s.arg1.toNat)).toNat = s.arg0.toNat + s.arg1.toNat := by
    rw [BitVec.toNat_ofNat]
    omega
  have hok : Coder.Ok s.rom s.cfg.point ⟨s.arg0, s.arg1, BitVec.ofNat 32 (s.arg0.toNat + s.arg1.toNat), C⟩ :=
    { kPos := by dsimp only; omega, mPos := by dsimp only; omega, total := by dsimp only; omega, sum := hn, built := hC }
  exact ⟨hnone, _, hok, (Except.ok.inj hu).symm⟩

/-- `DECODE` alone can end in the fatal lock (60_exceptions.md R268). -/
theorem execDecode_ends {s t : State} (h : execDecode s = .next t) : CommandEnds .decode s t := by
  obtain he | ⟨hf, hs, rfl⟩ | ⟨hf, u, hu, rfl⟩ := runLockingCommand_cases h
  · exact .inl he
  · exact .inr (.inl ⟨hf, rfl, hs, rfl⟩)
  · exact .inr (.inr ⟨hf, u, hu, rfl⟩)

/-- Everything a command can do. -/
theorem exec_cases {i : Instr} {s t : State} (h : exec i s = .next t) : CommandEnds i s t := by
  cases i with
  | nop => exact runCommand_ends h fun u hu => (Except.ok.inj hu).symm
  | gfadd | gfmul =>
    refine runCommand_ends h fun u hu => ?_
    obtain ⟨a, -, hu⟩ := bind_ok hu
    obtain ⟨b, -, hu⟩ := bind_ok hu
    exact setRes0_writes hu
  | gfdiv =>
    refine runCommand_ends h fun u hu => ?_
    obtain ⟨a, -, hu⟩ := bind_ok hu
    obtain ⟨b, -, hu⟩ := bind_ok hu
    obtain ⟨q, -, hu⟩ := bind_ok hu
    exact setRes0_writes hu
  | gfinv =>
    refine runCommand_ends h fun u hu => ?_
    obtain ⟨a, -, hu⟩ := bind_ok hu
    obtain ⟨q, -, hu⟩ := bind_ok hu
    exact setRes0_writes hu
  | gfpow =>
    refine runCommand_ends h fun u hu => ?_
    obtain ⟨a, -, hu⟩ := bind_ok hu
    exact setRes0_writes hu
  | mnew md =>
    refine runCommand_ends h fun u hu => ?_
    obtain ⟨_, -, hu⟩ := bind_ok hu
    exact dst_writes (matNew_wf _ _) hu
  | mident md =>
    refine runCommand_ends h fun u hu => ?_
    obtain ⟨_, -, hu⟩ := bind_ok hu
    exact dst_writes (matIdentity_wf _) hu
  | mmul md ma mb =>
    refine runCommand_ends h fun u hu => ?_
    obtain ⟨AB, -, hu⟩ := bind_ok hu
    obtain ⟨X, hX, hu⟩ := bind_ok hu
    exact dst_writes (matMul_wf hX) hu
  | msub md ma =>
    refine runCommand_ends h fun u hu => ?_
    obtain ⟨A, -, hu⟩ := bind_ok hu
    obtain ⟨X, hX, hu⟩ := bind_ok hu
    exact dst_writes (matSub_wf hX) hu
  | maug md ma mb =>
    refine runCommand_ends h fun u hu => ?_
    obtain ⟨AB, -, hu⟩ := bind_ok hu
    obtain ⟨X, hX, hu⟩ := bind_ok hu
    exact dst_writes (matAugment_wf hX) hu
  | minv md ma =>
    refine runCommand_ends h fun u hu => ?_
    obtain ⟨A, -, hu⟩ := bind_ok hu
    obtain ⟨X, hX, hu⟩ := bind_ok hu
    exact dst_writes (matInvert_wf hX) hu
  | missq ma =>
    refine runCommand_ends h fun u hu => ?_
    obtain ⟨A, -, hu⟩ := bind_ok hu
    exact ⟨_, by split <;> decide, (Except.ok.inj hu).symm⟩
  | mbuild md =>
    refine runCommand_ends h fun u hu => ?_
    obtain ⟨X, hX, hu⟩ := bind_ok hu
    exact dst_writes (buildMatrix_wf hX) hu
  | config => exact execConfig_ends h
  | encode => exact runCommand_ends h fun u hu => hu
  | decode => exact execDecode_ends h

end Sys2Proof.Machine
end

section
/-! SUPPORT. Settles 00_scope.md: the parameters and the tables are constant (R6; 10_state.md R23). -/

namespace Sys2Proof.Machine

/-- t has the parameters and the tables of s. -/
def SameParams (s t : State) : Prop := t.cfg = s.cfg ∧ t.rom = s.rom

theorem recoverData_sameParams {s t : State} {c : Coder} {L : Nat} {v : Word} (h : recoverData s c L v = .ok t) : SameParams s t := by
  obtain ⟨-, rfl⟩ | ⟨-, I, -, rfl⟩ := recoverData_ok h
  · exact ⟨rfl, rfl⟩
  · simp [SameParams]

theorem decodeBody_sameParams {s t : State} (h : decodeBody s = .ok t) : SameParams s t := by
  obtain ⟨c, s1, -, -, -, -, -, hs1, rfl⟩ := decodeBody_ok h
  obtain ⟨hcfg, hrom⟩ := recoverData_sameParams hs1
  simp [SameParams, State.fillParity, hcfg, hrom]

/-- No rule of a command writes the parameters or the tables. -/
theorem CommandWrites.sameParams {i : Instr} {s u : State} (h : CommandWrites i s u) : SameParams s u := by
  cases i with
  | nop => cases h; exact ⟨rfl, rfl⟩
  | gfadd | gfmul | gfdiv | gfinv | gfpow | missq => obtain ⟨v, -, rfl⟩ := h; exact ⟨rfl, rfl⟩
  | mnew | mident | mmul | msub | maug | minv | mbuild => obtain ⟨X, -, -, -, rfl⟩ := h; exact ⟨rfl, rfl⟩
  | config => obtain ⟨-, c, -, rfl⟩ := h; exact ⟨rfl, rfl⟩
  | encode => obtain ⟨c, -, -, -, -, -, rfl⟩ := encodeBody_ok h; exact ⟨rfl, rfl⟩
  | decode => exact decodeBody_sameParams h

theorem exec_sameParams {i : Instr} {s t : State} (h : exec i s = .next t) : SameParams s t := by
  obtain ⟨e, rfl⟩ | ⟨-, -, -, rfl⟩ | ⟨-, u, hu, rfl⟩ := exec_cases h
  · exact ⟨rfl, rfl⟩
  · exact ⟨rfl, rfl⟩
  · exact hu.sameParams

theorem startCommand_sameParams {s t : State} {w : Word} (h : startCommand s w = .next t) : SameParams s t := by
  obtain ⟨e, rfl⟩ | ⟨i, -, hi⟩ := startCommand_cases h
  · exact ⟨rfl, rfl⟩
  · obtain ⟨hcfg, hrom⟩ := exec_sameParams hi
    exact ⟨hcfg, hrom⟩

theorem writeReg_sameParams {s t : State} {n : Nat} {v : Word} (h : s.writeReg n v = some t) : SameParams s t := by
  rw [State.writeReg_frame h]
  exact ⟨rfl, rfl⟩

/-- A host operation keeps the parameters and the tables, but that reset computes the tables again from the parameters. -/
theorem HostWrites.params {op : HostOp} {s t : State} (h : HostWrites op s t) :
    SameParams s t ∨ (op = .reset ∧ t = s.resetEvent) := by
  cases op with
  | readReg n => obtain ⟨v, -, rfl⟩ := h; exact .inl ⟨rfl, rfl⟩
  | writeReg n v =>
    obtain ⟨-, h⟩ | ⟨-, h⟩ := h
    · exact .inl (startCommand_sameParams h)
    · exact .inl (writeReg_sameParams h)
  | readShard i o => obtain ⟨-, rfl⟩ := h; exact .inl ⟨rfl, rfl⟩
  | writeShard i o v => obtain ⟨-, rfl⟩ := h; exact .inl ⟨rfl, rfl⟩
  | readMat b x => obtain ⟨id, A, -, -, -, rfl⟩ := h; exact .inl ⟨rfl, rfl⟩
  | writeMat b x v => obtain ⟨d, -, -, rfl⟩ := h; exact .inl ⟨rfl, rfl⟩
  | readLog a => obtain ⟨-, v, -, rfl⟩ := h; exact .inl ⟨rfl, rfl⟩
  | readExp i => obtain ⟨v, -, rfl⟩ := h; exact .inl ⟨rfl, rfl⟩
  | reset => exact .inr ⟨rfl, h⟩

/-- Settles O15: every step but reset keeps both fields, and reset computes the tables from the parameters it keeps. -/
theorem parametersAndTablesAreConstant : Obligations.ParametersAndTablesAreConstant := by
  intro s t h
  obtain ⟨-, rfl⟩ | ⟨op, rest, -, hw, -⟩ := step_cases h
  · exact ⟨rfl, fun _ => rfl⟩
  · obtain ⟨hcfg, hrom⟩ | ⟨-, rfl⟩ := hw.params
    · exact ⟨hcfg, fun _ => hrom⟩
    · exact ⟨State.resetEvent_cfg _, fun hrom => hrom.symm⟩

end Sys2Proof.Machine
end

section
/-! SUPPORT. Settles 10_state.md: what the host reads in every register after reset (R40) and the bits of `STATUS` (R26). -/

namespace Sys2Proof.Machine

/-! ### Registers -/

theorem State.readReg_mrows (s : State) (b : Fin 4) : s.readReg (0x010 + b.val) = some (BitVec.ofNat 32 s.mats[b].rows) := by
  have hb := b.isLt
  simp (disch := omega) only [State.readReg, if_neg, dif_pos, Nat.add_sub_cancel_left, Fin.getElem_fin]

theorem State.readReg_mcols (s : State) (b : Fin 4) : s.readReg (0x014 + b.val) = some (BitVec.ofNat 32 s.mats[b].cols) := by
  have hb := b.isLt
  simp (disch := omega) only [State.readReg, if_neg, dif_neg, dif_pos, Nat.add_sub_cancel_left, Fin.getElem_fin]

theorem State.readReg_len (s : State) (i : Fin 256) : s.readReg (0x100 + i.val) = some s.len[i] := by
  have hi := i.isLt
  simp (disch := omega) only [State.readReg, if_neg, dif_neg, dif_pos, Nat.add_sub_cancel_left, Fin.getElem_fin]

/-- A register number outside the table of 10_state.md R38 reads as nothing. -/
theorem State.readReg_reserved (s : State) {n : Nat} (h0 : 0x00C < n) (h1 : n < 0x010 ∨ 0x017 < n)
    (h2 : n < 0x100 ∨ 0x1FF < n) : s.readReg n = none := by
  simp (disch := omega) only [State.readReg, if_neg, dif_neg]

/-- The registers below `LMAXR` are 0 after reset (10_state.md R40). -/
theorem readReg_resetWith_low (c : Cfg) : ∀ n < 0x00C, (State.resetWith c).readReg n = some 0
  | 0, _ | 1, _ | 2, _ | 3, _ | 4, _ | 5, _ | 6, _ | 7, _ | 8, _ | 9, _ | 10, _ | 11, _ => rfl
  | n + 12, h => absurd h (by omega)

theorem resetWith_mats_getElem (c : Cfg) (b : Fin 4) : (State.resetWith c).mats[b] = ⟨0, 0, #[]⟩ :=
  Vector.getElem_replicate _

/-- Every register as the host reads it after reset (10_state.md R40). -/
theorem readReg_resetWith (c : Cfg) (n : Nat) : (State.resetWith c).readReg n =
    if n = 0x00C then some (BitVec.ofNat 32 c.lmax)
    else if n ≤ 0x00B ∨ (0x010 ≤ n ∧ n ≤ 0x017) ∨ (0x100 ≤ n ∧ n ≤ 0x1FF) then some 0
    else none := by
  split
  · next hn => subst hn; rfl
  · next hn =>
    split
    · next h =>
      obtain h | ⟨h1, h2⟩ | ⟨h1, h2⟩ := h
      · exact readReg_resetWith_low c n (by omega)
      · obtain h3 | h3 := Nat.lt_or_ge n 0x014
        · have hr := (State.resetWith c).readReg_mrows ⟨n - 0x010, by omega⟩
          rwa [resetWith_mats_getElem, Nat.add_sub_cancel' h1] at hr
        · have hr := (State.resetWith c).readReg_mcols ⟨n - 0x014, by omega⟩
          rwa [resetWith_mats_getElem, Nat.add_sub_cancel' h3] at hr
      · have hr := (State.resetWith c).readReg_len ⟨n - 0x100, by omega⟩
        rw [Nat.add_sub_cancel' h1] at hr
        exact hr.trans (congrArg some (Vector.getElem_replicate _))
    · exact State.readReg_reserved _ (by omega) (by omega) (by omega)

/-- Settles O12: the registers are read class by class, the other fields are those of `State.resetWith`. -/
theorem resetLeavesTheTable : Obligations.ResetLeavesTheTable := fun c =>
  ⟨readReg_resetWith c, resetWith_mats_getElem c, rfl, rfl, fun _ => rfl⟩

theorem State.getLsbD_status (s : State) {i : Nat} (hi : i < 32) : s.status.getLsbD i =
    (s.busy.toNat + s.configured.toNat * 2 + s.fatal.toNat * 4).testBit i := by
  simp only [State.status, BitVec.getLsbD_ofNat, hi, decide_true, Bool.true_and]

/-- The number with the binary digits a, b, c. -/
theorem testBit_three_digits : ∀ a b c : Bool, (a.toNat + b.toNat * 2 + c.toNat * 4).testBit 0 = a ∧
    (a.toNat + b.toNat * 2 + c.toNat * 4).testBit 1 = b ∧ (a.toNat + b.toNat * 2 + c.toNat * 4).testBit 2 = c := by
  decide

/-- Bits 31:3 of `STATUS` are zero (10_state.md R26). -/
theorem State.getLsbD_status_high (s : State) {i : Nat} (hi : 3 ≤ i) : s.status.getLsbD i = false := by
  obtain h | h := Nat.lt_or_ge i 32
  · have hlt : s.busy.toNat + s.configured.toNat * 2 + s.fatal.toNat * 4 < 2 ^ 3 := by
      have h0 := s.busy.toNat_lt
      have h1 := s.configured.toNat_lt
      have h2 := s.fatal.toNat_lt
      omega
    rw [State.getLsbD_status s h]
    exact Nat.testBit_lt_two_pow (hlt.trans_le (Nat.pow_le_pow_right (by decide) hi))
  · exact BitVec.getLsbD_of_ge _ _ h

/-- Settles O53: register 1 reads `STATUS`, the number with the binary digits `BUSY`, `CONFIGURED`, `FATAL`. -/
theorem statusBits : Obligations.StatusBits := by
  intro s
  obtain ⟨h0, h1, h2⟩ := testBit_three_digits s.busy s.configured s.fatal
  refine ⟨s.status, rfl, ?_, ?_, ?_, fun i hi => s.getLsbD_status_high hi⟩
  · rw [State.getLsbD_status s (by decide), h0]
  · rw [State.getLsbD_status s (by decide), h1]; rfl
  · rw [State.getLsbD_status s (by decide), h2]

end Sys2Proof.Machine
end

section
/-! SUPPORT. Settles 10_state.md: the invariant of the machine holds at reset (R40) and is kept by every host operation and every command. -/

namespace Sys2Proof.Machine

/-! ### The reset state -/

theorem zero_mem_legalCodes : (0 : Word) ∈ legalCodes := by decide

/-- Every error has a completion code (60_exceptions.md R260). -/
theorem Err.code_mem_legalCodes (e : Err) : e.code ∈ legalCodes := by cases e <;> decide

theorem resetWith_inv {c : Cfg} (h : c.WellFormed) : (State.resetWith c).Inv where
  cfgOk := h
  romOk := rfl
  idle := rfl
  matsOk b := by rw [resetWith_mats_getElem]; decide
  coderOk _ hc := by cases hc
  shOk := List.Pairwise.nil
  shRange _ hw := by cases hw
  errOk := zero_mem_legalCodes
  res0Ok := Nat.zero_le _

/-- Settles O16: every field of the reset state meets its clause, and the default parameters are well formed. -/
theorem resetMeetsTheInvariant : Obligations.ResetMeetsTheInvariant :=
  ⟨fun _ => resetWith_inv, resetWith_inv default_wellFormed⟩

/-- Reset in any state leaves the invariant, since it keeps the parameters (00_scope.md R6). -/
theorem State.Inv.resetEvent {s : State} (h : s.Inv) : s.resetEvent.Inv := by
  have h0 := resetWith_inv h.cfgOk
  exact { h0 with
    cfgOk := by rw [State.resetEvent_cfg]; exact h.cfgOk
    romOk := by rw [State.resetEvent_rom, State.resetEvent_cfg, State.resetWith_rom]
    coderOk := fun _ hc => by cases hc
    shRange := fun _ hw => by cases hw }

/-! ### The invariant while a command runs -/

/-- s meets the invariant but for `BUSY`, as it does between the acceptance of a command and its completion (30_encoding.md R92). -/
def State.InvRunning (s : State) : Prop := State.Inv { s with busy := false }

namespace State.InvRunning

variable {s : State}

theorem fail (h : s.InvRunning) (e : Err) : (s.fail e).Inv :=
  { h with errOk := e.code_mem_legalCodes }

theorem lock (h : s.InvRunning) (e : Err) : (s.fail e).lock.Inv :=
  { h.fail e with }

theorem succeed (h : s.InvRunning) : s.succeed.Inv :=
  { h with errOk := zero_mem_legalCodes }

theorem setRes0 (h : s.InvRunning) {v : Word} (hv : v.toNat ≤ 0xFF) : (s.setRes0 v).InvRunning :=
  { h with res0Ok := hv }

theorem setLens (h : s.InvRunning) (l : List Nat) (v : Word) : (s.setLens l v).InvRunning := by
  rw [State.setLens_eq]
  exact { h with }

/-- A buffer takes a complete matrix within its capacity. -/
theorem setMat (h : s.InvRunning) (d : DstId) {X : Mat} (hX : X.wf ∧ X.rows ≤ 256 ∧ X.cols ≤ 512) :
    (s.setMat d X).InvRunning := by
  refine { h with matsOk := fun b => ?_ }
  by_cases hb : b = d
  · subst hb; simpa using hX
  · have hne : d.val ≠ b.val := fun e => hb (Fin.ext e.symm)
    simpa [hne] using h.matsOk b

/-- Writing all L bytes of some slots, within the depth of a slot. -/
theorem fillSlots (h : s.InvRunning) {l : List Nat} {L : Nat} (f : Nat → Nat → Byte) (hl : ∀ i ∈ l, i ≤ 255)
    (hL : L ≤ s.cfg.lmax) : (s.fillSlots l L f).InvRunning := by
  refine { h with shOk := State.fillSlots_wf h.shOk l L f, shRange := fun w hw => ?_ }
  obtain hw | hw := Memory.mem_writeAll hw
  · obtain ⟨i, hi, hw⟩ := List.mem_flatMap.1 hw
    obtain ⟨o, ho, rfl⟩ := List.mem_map.1 hw
    have ho : o < s.cfg.lmax := (List.mem_range.1 ho).trans_le hL
    have ho32 : o < 2 ^ 32 := ho.trans h.cfgOk.lmaxBound
    rw [shKey_div ho32, shKey_mod ho32]
    exact ⟨hl i hi, ho⟩
  · exact h.shRange w hw

end State.InvRunning

theorem State.Inv.running {s : State} (h : s.Inv) : s.InvRunning := { h with idle := rfl }

theorem State.Inv.accept {s : State} (h : s.Inv) (w : Word) : (s.accept w).InvRunning := { h with idle := rfl }

/-- An idle state that meets the invariant but for `BUSY` meets it. -/
theorem State.InvRunning.inv {s : State} (h : s.InvRunning) (hb : s.busy = false) : s.Inv := { h with idle := hb }

/-! ### Commands -/

/-- `ENCODE` writes the slots K + r, r < M, which exist. -/
theorem encodeBody_invRunning {s t : State} (hs : s.InvRunning) (h : encodeBody s = .ok t) : t.InvRunning := by
  obtain ⟨c, hc, -, -, -, hL, rfl⟩ := encodeBody_ok h
  have htotal := (hs.coderOk c hc).total
  refine hs.fillSlots _ (fun i hi => ?_) hL
  obtain ⟨r, hr, rfl⟩ := List.mem_map.1 hi
  rw [List.mem_range] at hr
  omega

/-- The data phase of `DECODE` writes absent slots below K. -/
theorem recoverData_invRunning {s t : State} {c : Coder} {L : Nat} {v : Word} (hs : s.InvRunning)
    (hk : c.k.toNat ≤ 256) (hL : L ≤ s.cfg.lmax) (h : recoverData s c L v = .ok t) : t.InvRunning := by
  obtain ⟨-, rfl⟩ | ⟨-, I, -, rfl⟩ := recoverData_ok h
  · exact hs
  · refine (hs.fillSlots _ (fun i hi => ?_) hL).setLens _ _
    obtain ⟨hi, -⟩ := State.mem_missing.1 hi
    omega

/-- `DECODE` writes absent slots below N = K + M. -/
theorem decodeBody_invRunning {s t : State} (hs : s.InvRunning) (h : decodeBody s = .ok t) : t.InvRunning := by
  obtain ⟨c, s1, hc, -, -, -, hL, h1, rfl⟩ := decodeBody_ok h
  have htotal := (hs.coderOk c hc).total
  have hs1 := recoverData_invRunning hs (by omega) hL h1
  obtain ⟨hcfg, -⟩ := recoverData_sameParams h1
  refine (hs1.fillSlots _ (fun i hi => ?_) (hcfg ▸ hL)).setLens _ _
  obtain ⟨hi, -⟩ := State.mem_missing.1 hi
  omega

/-- What the rule of a command writes keeps the invariant. -/
theorem CommandWrites.invRunning {i : Instr} {s u : State} (hs : s.InvRunning) (h : CommandWrites i s u) : u.InvRunning := by
  cases i with
  | nop => cases h; exact hs
  | gfadd | gfmul | gfdiv | gfinv | gfpow | missq => obtain ⟨v, hv, rfl⟩ := h; exact hs.setRes0 hv
  | mnew md | mident md | mmul md | msub md | maug md | minv md | mbuild md =>
    obtain ⟨X, hX, hr, hc, rfl⟩ := h
    exact hs.setMat md ⟨hX, hr, hc⟩
  | config =>
    obtain ⟨-, c, hc, rfl⟩ := h
    exact { hs with coderOk := fun c' hc' => Option.some.inj hc' ▸ hc }
  | encode => exact encodeBody_invRunning hs h
  | decode => exact decodeBody_invRunning hs h

theorem exec_inv {i : Instr} {s t : State} (hs : s.InvRunning) (h : exec i s = .next t) : t.Inv := by
  obtain ⟨e, rfl⟩ | ⟨-, -, -, rfl⟩ | ⟨-, u, hu, rfl⟩ := exec_cases h
  · exact hs.fail e
  · exact hs.lock _
  · exact (hu.invRunning hs).succeed

theorem startCommand_inv {s t : State} {w : Word} (hs : s.Inv) (h : startCommand s w = .next t) : t.Inv := by
  obtain ⟨e, rfl⟩ | ⟨i, -, hi⟩ := startCommand_cases h
  · exact (hs.accept w).fail e
  · exact exec_inv (hs.accept w) hi

/-! ### Host operations -/

theorem State.Inv.withHost {s : State} (h : s.Inv) (ops : List HostOp) : State.Inv { s with host := ops } := { h with }

theorem State.Inv.reply {s : State} (h : s.Inv) (r : Reply) : (s.reply r).Inv := { h with }

theorem writeReg_inv {s t : State} {n : Nat} {v : Word} (hs : s.Inv) (h : s.writeReg n v = some t) : t.Inv := by
  rw [State.writeReg_frame h]
  exact { hs with }

/-- A host write of a byte that exists (20_memory.md R62). -/
theorem State.Inv.setShByte {s : State} (h : s.Inv) {i o : Nat} (v : Byte) (he : s.shardExists i o) : (s.setShByte i o v).Inv := by
  obtain ⟨hi, ho⟩ := he
  refine { h with shOk := Memory.write_wf h.shOk _ _, shRange := fun w hw => ?_ }
  obtain rfl | hw := Memory.mem_write hw
  · have ho32 : o < 2 ^ 32 := ho.trans h.cfgOk.lmaxBound
    rw [shKey_div ho32, shKey_mod ho32]
    exact ⟨hi, ho⟩
  · exact h.shRange w hw

/-- A host write of a matrix element changes neither the dimensions nor the number of elements (20_memory.md R64). -/
theorem State.Inv.setMatElement {s : State} (h : s.Inv) (d : DstId) (x : Nat) (v : Byte) :
    (s.setMat d { s.mats[d] with e := s.mats[d].e.setIfInBounds x v }).Inv := by
  obtain ⟨hwf, hr, hc⟩ := h.matsOk d
  exact (h.running.setMat d (X := ⟨_, _, _⟩) ⟨Array.size_setIfInBounds.trans hwf, hr, hc⟩).inv h.idle

/-- Every host operation keeps the invariant. -/
theorem HostWrites.inv {op : HostOp} {s t : State} (hs : s.Inv) (h : HostWrites op s t) : t.Inv := by
  cases op with
  | readReg n => obtain ⟨v, -, rfl⟩ := h; exact hs.reply _
  | writeReg n v =>
    obtain ⟨-, h⟩ | ⟨-, h⟩ := h
    · exact startCommand_inv hs h
    · exact writeReg_inv hs h
  | readShard i o => obtain ⟨-, rfl⟩ := h; exact hs.reply _
  | writeShard i o v => obtain ⟨he, rfl⟩ := h; exact hs.setShByte v he
  | readMat b x => obtain ⟨id, A, -, -, -, rfl⟩ := h; exact hs.reply _
  | writeMat b x v => obtain ⟨d, -, -, rfl⟩ := h; exact hs.setMatElement d x v
  | readLog a => obtain ⟨-, v, -, rfl⟩ := h; exact hs.reply _
  | readExp i => obtain ⟨v, -, rfl⟩ := h; exact hs.reply _
  | reset => cases h; exact hs.resetEvent

/-- Settles O17: taking an operation from the host's list keeps the invariant, and so does performing it. -/
theorem stepKeepsTheInvariant : Obligations.StepKeepsTheInvariant := by
  intro s t hs h
  obtain ⟨-, rfl⟩ | ⟨op, rest, -, hw, -⟩ := step_cases h
  · exact hs
  · exact hw.inv (hs.withHost rest)

end Sys2Proof.Machine
end

section
/-! SUPPORT. Settles 10_state.md: the frame of every command (R24, R27, R29, R30, R34, R36). -/

namespace Sys2Proof.Machine

/-! ### Writes of shard slots -/

/-- t is s but for bytes of `SH` at offsets below L of the given slots, and the `LEN` of those slots. -/
structure WritesOnlySlots (s t : State) (slots : Nat → Prop) (L : Nat) : Prop where
  state : t = { s with sh := t.sh, len := t.len }
  bytes : ∀ a, (∀ i o, slots i → o < L → a ≠ shKey i o) → Memory.read t.sh a = Memory.read s.sh a
  lens : ∀ i : Fin 256, ¬ slots i.val → t.len[i] = s.len[i]

namespace WritesOnlySlots

variable {s t u : State} {slots : Nat → Prop} {L : Nat}

theorem refl (s : State) (slots : Nat → Prop) (L : Nat) : WritesOnlySlots s s slots L := ⟨rfl, fun _ _ => rfl, fun _ _ => rfl⟩

theorem trans (h : WritesOnlySlots s t slots L) (h' : WritesOnlySlots t u slots L) : WritesOnlySlots s u slots L where
  state := h'.state.trans (by rw [h.state])
  bytes a ha := (h'.bytes a ha).trans (h.bytes a ha)
  lens i hi := (h'.lens i hi).trans (h.lens i hi)

end WritesOnlySlots

theorem writesOnlySlots_fill (s : State) {slots : Nat → Prop} {l : List Nat} (hl : ∀ i ∈ l, slots i) (L : Nat)
    (f : Nat → Nat → Byte) (v : Word) : WritesOnlySlots s ((s.fillSlots l L f).setLens l v) slots L where
  state := by rw [State.setLens_eq]; rfl
  bytes a ha := by
    rw [State.setLens_sh]
    exact State.read_fillSlots_other s l L f a fun i hi o ho => (ha i o (hl i hi) ho).symm
  lens i hi := State.len_setLens_other _ v fun hmem => hi (hl i hmem)

/-! ### `DECODE` -/

theorem recoverData_writesOnlySlots {s t : State} {c : Coder} {L : Nat} {v : Word} (h : recoverData s c L v = .ok t) :
    WritesOnlySlots s t (s.decodeFills c) L := by
  obtain ⟨-, rfl⟩ | ⟨-, I, -, rfl⟩ := recoverData_ok h
  · exact .refl _ _ _
  · exact writesOnlySlots_fill s (fun _ => .inl) _ _ _

/-- Both phases of `DECODE` write slots that it fills (43_coder.md R230). -/
theorem decodeBody_writesOnlySlots {s t : State} (h : decodeBody s = .ok t) :
    ∃ c, s.coder = some c ∧ WritesOnlySlots s t (s.decodeFills c) (s.decodeLen c) := by
  obtain ⟨c, s1, hc, -, -, -, -, h1, rfl⟩ := decodeBody_ok h
  exact ⟨c, hc, (recoverData_writesOnlySlots h1).trans (writesOnlySlots_fill s1 (fun _ => .inr) _ _ _)⟩

/-! ### `ENCODE` -/

/-- `ENCODE` writes the parity slots K + r, r < M, below `LEN[0]` (43_coder.md R220). -/
theorem encodeBody_frame {s t : State} (h : encodeBody s = .ok t) : t = { s with sh := t.sh } ∧
    ∃ c, s.coder = some c ∧ ∀ a, (∀ r o, r < c.m.toNat → o < s.lenAt 0 → a ≠ shKey (c.k.toNat + r) o) →
      Memory.read t.sh a = Memory.read s.sh a := by
  obtain ⟨c, hc, -, -, -, -, rfl⟩ := encodeBody_ok h
  refine ⟨rfl, c, hc, fun a ha => State.read_fillSlots_other s _ _ _ a fun i hi o ho => ?_⟩
  obtain ⟨r, hr, rfl⟩ := List.mem_map.1 hi
  exact (ha r o (List.mem_range.1 hr) ho).symm

/-! ### All commands -/

/-- A command with a destination that fails leaves the buffer as it was. -/
theorem fail_bufferFrame (s : State) (d : DstId) (e : Err) : s.fail e =
    { s with mats := s.mats.set d.val (s.fail e).mats[d], err := (s.fail e).err, busy := false } := by
  have hset : s.mats.set d.val s.mats[d] = s.mats := Vector.set_getElem_self _
  rw [State.fail_mats, hset]
  rfl

/-- A command that writes its destination leaves the other buffers as they were. -/
theorem setMat_bufferFrame (s : State) (d : DstId) (X : Mat) : (s.setMat d X).succeed =
    { s with mats := s.mats.set d.val (s.setMat d X).succeed.mats[d], err := (s.setMat d X).succeed.err, busy := false } := by
  have hget : (s.mats.set d.val X)[d] = X := Vector.getElem_set_self _
  rw [State.succeed_mats, State.setMat_mats, hget]
  rfl

/-- Settles O10: an error completion and the fatal lock change `ERR`, `BUSY` and `FATAL` alone; a success changes what the rule of the
command writes. -/
theorem commandsChangeOnlyTheirDestination : Obligations.CommandsChangeOnlyTheirDestination := by
  intro i s t h
  obtain ⟨e, rfl⟩ | ⟨-, rfl, -, rfl⟩ | ⟨-, u, hu, rfl⟩ := exec_cases h
  · cases i with
    | nop | gfadd | gfmul | gfdiv | gfinv | gfpow | missq | config => rfl
    | mnew md | mident md | mmul md | msub md | maug md | minv md | mbuild md =>
      exact fail_bufferFrame s md e
    | encode => exact ⟨rfl, fun _ _ => rfl⟩
    | decode => exact ⟨rfl, .inl rfl, fun _ _ => rfl, fun _ _ => rfl⟩
  · exact ⟨rfl, .inr ⟨rfl, rfl, rfl, rfl⟩, fun _ _ => rfl, fun _ _ => rfl⟩
  · cases i with
    | nop => cases hu; rfl
    | gfadd | gfmul | gfdiv | gfinv | gfpow | missq => obtain ⟨v, -, rfl⟩ := hu; rfl
    | mnew md | mident md | mmul md | msub md | maug md | minv md | mbuild md =>
      obtain ⟨X, -, -, -, rfl⟩ := hu
      exact setMat_bufferFrame s md X
    | config => obtain ⟨-, c, -, rfl⟩ := hu; rfl
    | encode =>
      obtain ⟨hu, c, hc, hbytes⟩ := encodeBody_frame hu
      exact ⟨by rw [hu]; rfl, fun a ha => hbytes a fun r o => ha c r o hc⟩
    | decode =>
      obtain ⟨c, hc, hu⟩ := decodeBody_writesOnlySlots hu
      exact ⟨by rw [hu.state]; rfl, .inl (by rw [hu.state]; rfl), fun a ha => hu.bytes a fun i o => ha c i o hc,
        fun j hj => hu.lens j (hj c hc)⟩

end Sys2Proof.Machine
end

section
/-! SUPPORT. The converse of `hostStep_cases` and `step_cases`: while `BUSY = 0` a host operation that can write t answers t
(20_memory.md R62 to R65), so that what a host operation does is computed from `HostWrites` in both directions. -/

namespace Sys2Proof.Machine

theorem whenIdle_idle {s : State} (h : s.busy = false) (r : Outcome) : whenIdle s r = r := by
  simp [whenIdle, h]

/-- The source ids that name a matrix (30_encoding.md R95, 41_matrix.md R159). -/
theorem State.src_eq_ok_iff {s : State} {id : SrcId} {A : Mat} : s.src id = .ok A ↔ SourceIs s id A := by
  constructor
  · intro h
    obtain ⟨b, hb, rfl⟩ | ⟨rfl, c, hc, rfl⟩ := State.src_ok h
    · exact .inl ⟨b, hb.symm, rfl⟩
    · exact .inr ⟨rfl, c, hc, rfl⟩
  · rintro (⟨b, hb, rfl⟩ | ⟨h4, c, hc, rfl⟩)
    · rw [show id = ⟨b.val, by omega⟩ from Fin.ext hb]
      exact s.src_buffer b
    · rw [show id = 4 from Fin.ext h4]
      exact State.src_coder hc

theorem SourceIs.id_le {s : State} {id : SrcId} {A : Mat} (h : SourceIs s id A) : id.val ≤ 4 := by
  obtain ⟨b, hb, -⟩ | ⟨h4, -⟩ := h <;> omega

theorem hostReadMat_of_src {s : State} {id : SrcId} {A : Mat} {x : Nat} (h : s.src id = .ok A) (hx : x < A.rows * A.cols) :
    hostReadMat s id.val x = .next (s.reply (.byte (A.e.getD x 0))) := by
  have hid := (State.src_eq_ok_iff.1 h).id_le
  simp only [hostReadMat, dif_pos hid, h, if_pos hx]

theorem hostWriteMat_of_lt {s : State} {d : DstId} {x : Nat} (v : Byte) (hx : x < s.mats[d].rows * s.mats[d].cols) :
    hostWriteMat s d.val x v = .next (s.setMat d { s.mats[d] with e := s.mats[d].e.setIfInBounds x v }) :=
  (dif_pos d.isLt).trans (if_pos hx)

theorem hostReadLog_of_getElem? {s : State} {a v : Nat} (ha : 1 ≤ a) (h : s.rom.log[a - 1]? = some v) :
    hostReadLog s a = .next (s.reply (.logEntry v)) := by
  obtain ⟨hlt, rfl⟩ := Vector.getElem?_eq_some_iff.1 h
  exact (if_neg (by omega)).trans (dif_pos (by omega))

theorem hostReadExp_of_getElem? {s : State} {i : Nat} {v : Byte} (h : s.rom.exp[i]? = some v) :
    hostReadExp s i = .next (s.reply (.byte v)) := by
  obtain ⟨hlt, rfl⟩ := Vector.getElem?_eq_some_iff.1 h
  exact dif_pos hlt

theorem hostWriteReg_of_ne_zero {s t : State} {n : Nat} {v : Word} (hn : n ≠ 0) (h : s.writeReg n v = some t) :
    hostWriteReg s n v = .next t := by
  simp only [hostWriteReg, if_neg hn, h]

/-- An operation that can write t answers t in an idle state. -/
theorem HostWrites.hostStep {op : HostOp} {s t : State} (h : HostWrites op s t) (hb : s.busy = false) :
    hostStep op s = .next t := by
  cases op with
  | readReg n =>
    obtain ⟨v, hv, rfl⟩ := h
    simp only [Machine.hostStep, whenIdle_idle hb, hostReadReg, hv, ite_self]
  | writeReg n v =>
    refine (whenIdle_idle hb _).trans ?_
    obtain ⟨rfl, h⟩ | ⟨hn, h⟩ := h
    · exact h
    · exact hostWriteReg_of_ne_zero hn h
  | readShard i o =>
    obtain ⟨he, rfl⟩ := h
    exact (whenIdle_idle hb _).trans (if_pos he)
  | writeShard i o v =>
    obtain ⟨he, rfl⟩ := h
    exact (whenIdle_idle hb _).trans (if_pos he)
  | readMat b x =>
    obtain ⟨id, A, rfl, hA, hx, rfl⟩ := h
    exact (whenIdle_idle hb _).trans (hostReadMat_of_src hA hx)
  | writeMat b x v =>
    obtain ⟨d, rfl, hx, rfl⟩ := h
    exact (whenIdle_idle hb _).trans (hostWriteMat_of_lt v hx)
  | readLog a =>
    obtain ⟨ha, v, hv, rfl⟩ := h
    exact (whenIdle_idle hb _).trans (hostReadLog_of_getElem? ha hv)
  | readExp i =>
    obtain ⟨v, hv, rfl⟩ := h
    exact (whenIdle_idle hb _).trans (hostReadExp_of_getElem? hv)
  | reset => cases h; rfl

/-- An idle step performs the first operation of the host's list. -/
theorem HostWrites.step {op : HostOp} {s t : State} {rest : List HostOp} (h : HostWrites op { s with host := rest } t)
    (hb : s.busy = false) (hop : s.host = op :: rest) : step s = .next t := by
  simp only [Machine.step, runNext, hop]
  exact h.hostStep hb

/-- A step that answers has performed the first operation of the host's list. -/
theorem hostWrites_of_step {op : HostOp} {s t : State} {rest : List HostOp} (h : step s = .next t) (hop : s.host = op :: rest) :
    HostWrites op { s with host := rest } t := by
  simp only [Machine.step, runNext, hop] at h
  obtain ⟨hw, -⟩ := hostStep_cases h
  exact hw

end Sys2Proof.Machine
end

section
/-! SUPPORT. The registers of 10_state.md R38 class by class: which numbers are read, written, ignored and reserved (20_memory.md R61, R63). -/

namespace Sys2Proof.Machine

/-- Register n keeps what the host writes: `ARG0..ARG3`, `NSHARDS`, `LEN[i]` (10_state.md R38). -/
def WritableReg (n : Nat) : Prop := (4 ≤ n ∧ n ≤ 7) ∨ n = 0x00B ∨ (0x100 ≤ n ∧ n ≤ 0x1FF)

/-- Register n ignores a write: `STATUS`, `ERR`, `RES0`, `K`, `M`, `N`, `LMAXR`, `MROWS`, `MCOLS` (10_state.md R38). -/
def ReadOnlyReg (n : Nat) : Prop := (1 ≤ n ∧ n ≤ 3) ∨ (8 ≤ n ∧ n ≤ 0x00A) ∨ n = 0x00C ∨ (0x010 ≤ n ∧ n ≤ 0x017)

/-- Register number n is reserved (20_memory.md R61). -/
def ReservedReg (n : Nat) : Prop := (0x00D ≤ n ∧ n ≤ 0x00F) ∨ (0x018 ≤ n ∧ n ≤ 0x0FF) ∨ 0x1FF < n

/-- The numbers as `State.readReg` tells them apart: single registers, `MROWS`, `MCOLS`, `LEN`, reserved. -/
theorem register_classes (n : Nat) : n < 0x00D ∨ (∃ b : Fin 4, n = 0x010 + b.val) ∨ (∃ b : Fin 4, n = 0x014 + b.val) ∨
    (∃ i : Fin 256, n = 0x100 + i.val) ∨ ReservedReg n := by
  by_cases h0 : n < 0x00D
  · exact .inl h0
  by_cases h1 : 0x010 ≤ n ∧ n ≤ 0x013
  · exact .inr (.inl ⟨⟨n - 0x010, by omega⟩, (Nat.add_sub_cancel' h1.1).symm⟩)
  by_cases h2 : 0x014 ≤ n ∧ n ≤ 0x017
  · exact .inr (.inr (.inl ⟨⟨n - 0x014, by omega⟩, (Nat.add_sub_cancel' h2.1).symm⟩))
  by_cases h3 : 0x100 ≤ n ∧ n ≤ 0x1FF
  · exact .inr (.inr (.inr (.inl ⟨⟨n - 0x100, by omega⟩, (Nat.add_sub_cancel' h3.1).symm⟩)))
  · exact .inr (.inr (.inr (.inr (by unfold ReservedReg; omega))))

/-! ### Reads -/

theorem ReservedReg.readReg {n : Nat} (h : ReservedReg n) (s : State) : s.readReg n = none := by
  unfold ReservedReg at h
  exact s.readReg_reserved (by omega) (by omega) (by omega)

/-- `RegHolds` is the table that `State.readReg` reads: from the table to the function. -/
theorem State.RegHolds.readReg {s : State} {n : Nat} {v : Word} (h : s.RegHolds n v) : s.readReg n = some v := by
  obtain ⟨rfl, rfl⟩ | ⟨rfl, rfl⟩ | ⟨rfl, rfl⟩ | ⟨rfl, rfl⟩ | ⟨rfl, rfl⟩ | ⟨rfl, rfl⟩ | ⟨rfl, rfl⟩ | ⟨rfl, rfl⟩ |
    ⟨c, hc, h⟩ | ⟨hc, h1, h2, rfl⟩ | ⟨rfl, rfl⟩ | ⟨rfl, rfl⟩ | ⟨b, h⟩ | ⟨i, rfl, rfl⟩ := h
  iterate 8 exact rfl
  · obtain ⟨rfl, rfl⟩ | ⟨rfl, rfl⟩ | ⟨rfl, rfl⟩ := h <;> simp [State.readReg, hc]
  · interval_cases n <;> simp [State.readReg, hc]
  · rfl
  · rfl
  · obtain ⟨rfl, rfl⟩ | ⟨rfl, rfl⟩ := h
    · exact s.readReg_mrows b
    · exact s.readReg_mcols b
  · exact s.readReg_len i

/-- From the function to the table: the thirteen single registers by number, the others by class. -/
theorem State.regHolds_of_readReg {s : State} {n : Nat} {v : Word} (h : s.readReg n = some v) : s.RegHolds n v := by
  unfold State.RegHolds
  obtain hn | ⟨b, rfl⟩ | ⟨b, rfl⟩ | ⟨i, rfl⟩ | hn := register_classes n
  · cases hc : s.coder with
    | none => interval_cases n <;> simp_all [State.readReg]
    | some c => interval_cases n <;> simp_all [State.readReg]
  · rw [State.readReg_mrows] at h
    obtain rfl := Option.some.inj h
    iterate 12 refine .inr ?_
    exact .inl ⟨b, .inl ⟨rfl, rfl⟩⟩
  · rw [State.readReg_mcols] at h
    obtain rfl := Option.some.inj h
    iterate 12 refine .inr ?_
    exact .inl ⟨b, .inr ⟨rfl, rfl⟩⟩
  · rw [State.readReg_len] at h
    obtain rfl := Option.some.inj h
    iterate 13 refine .inr ?_
    exact ⟨i, rfl, rfl⟩
  · rw [hn.readReg] at h
    cases h

/-- A write of `LEN[i]` reads back in its own register only. -/
theorem State.readReg_setLen_other (s : State) {n : Nat} (i : Fin 256) (v : Word) (h : n ≠ 0x100 + i.val) :
    (s.setLen i v).readReg n = s.readReg n := by
  obtain hn | ⟨b, rfl⟩ | ⟨b, rfl⟩ | ⟨j, rfl⟩ | hn := register_classes n
  · interval_cases n <;> rfl
  · simp only [State.readReg_mrows, State.setLen_mats]
  · simp only [State.readReg_mcols, State.setLen_mats]
  · have hij : i.val ≠ j.val := by omega
    simp [State.readReg_len, hij]
  · simp only [hn.readReg]

/-! ### Writes -/

theorem State.writeReg_len (s : State) (i : Fin 256) (v : Word) : s.writeReg (0x100 + i.val) v = some (s.setLen i v) := by
  have hi := i.isLt
  simp (disch := omega) only [State.writeReg, if_neg, if_pos, Nat.add_sub_cancel_left]

theorem ReadOnlyReg.writeReg {n : Nat} (h : ReadOnlyReg n) (s : State) (v : Word) : s.writeReg n v = some s := by
  unfold ReadOnlyReg at h
  simp (disch := omega) only [State.writeReg, if_neg, if_pos]

theorem ReservedReg.writeReg {n : Nat} (h : ReservedReg n) (s : State) (v : Word) : s.writeReg n v = none := by
  unfold ReservedReg at h
  simp (disch := omega) only [State.writeReg, if_neg]

/-- A write to a writable register is read back whole and no other register changes. -/
theorem WritableReg.writeReg {n : Nat} (h : WritableReg n) (s : State) (v : Word) :
    ∃ t, s.writeReg n v = some t ∧ t.readReg n = some v ∧ ∀ n', n' ≠ n → t.readReg n' = s.readReg n' := by
  by_cases hlen : 0x100 ≤ n ∧ n ≤ 0x1FF
  · obtain ⟨i, rfl⟩ : ∃ i : Fin 256, n = 0x100 + i.val := ⟨⟨n - 0x100, by omega⟩, (Nat.add_sub_cancel' hlen.1).symm⟩
    refine ⟨_, s.writeReg_len i v, ?_, fun n' hn => s.readReg_setLen_other i v hn⟩
    simp [State.readReg_len]
  · obtain rfl | rfl | rfl | rfl | rfl : n = 4 ∨ n = 5 ∨ n = 6 ∨ n = 7 ∨ n = 0x00B := by unfold WritableReg at h; omega
    all_goals exact ⟨_, rfl, rfl, fun n' hn => by simp only [State.readReg, if_neg hn]; rfl⟩

end Sys2Proof.Machine
end

section
/-! SUPPORT. Settles 20_memory.md: what the host operations read and write (R62 to R65) and which have no meaning (R61). -/

namespace Sys2Proof.Machine

/-! ### Reads -/

/-- The element at linear index x is the one in row x div cols, column x mod cols (00_scope.md R9). -/
theorem Mat.at_div_mod (A : Mat) (x : Nat) : A.at (x / A.cols) (x % A.cols) = A.e.getD x 0 := by
  rw [Mat.at, Nat.div_add_mod']

/-- A read that gives r is an operation that replies r. -/
theorem State.ReadGives.hostWrites {s : State} {op : HostOp} {r : Reply} (h : s.ReadGives op r) : HostWrites op s (s.reply r) := by
  cases op with
  | readReg n => obtain ⟨v, hv, rfl⟩ := h; exact ⟨v, hv.readReg, rfl⟩
  | readShard i o => obtain ⟨hi, ho, rfl⟩ := h; exact ⟨⟨hi, ho⟩, rfl⟩
  | readMat b x =>
    obtain ⟨id, A, hid, hA, hx, rfl⟩ := h
    rw [Mat.at_div_mod]
    exact ⟨id, A, hid, State.src_eq_ok_iff.2 hA, hx, rfl⟩
  | readLog a => obtain ⟨ha, v, hv, rfl⟩ := h; exact ⟨ha, v, hv, rfl⟩
  | readExp i => obtain ⟨v, hv, rfl⟩ := h; exact ⟨v, hv, rfl⟩
  | writeReg | writeShard | writeMat | reset => cases h

/-- The operations that read (20_memory.md R62 to R65). -/
def HostOp.IsRead : HostOp → Prop
  | .readReg _ | .readShard _ _ | .readMat _ _ | .readLog _ | .readExp _ => True
  | .writeReg _ _ | .writeShard _ _ _ | .writeMat _ _ _ | .reset => False

/-- Conversely, a read that answers replies what it gives. -/
theorem HostWrites.readGives {op : HostOp} {s t : State} (h : HostWrites op s t) (hop : op.IsRead) :
    ∃ r, s.ReadGives op r ∧ t = s.reply r := by
  cases op with
  | readReg n => obtain ⟨v, hv, rfl⟩ := h; exact ⟨_, ⟨v, State.regHolds_of_readReg hv, rfl⟩, rfl⟩
  | readShard i o => obtain ⟨⟨hi, ho⟩, rfl⟩ := h; exact ⟨_, ⟨hi, ho, rfl⟩, rfl⟩
  | readMat b x =>
    obtain ⟨id, A, hid, hA, hx, rfl⟩ := h
    rw [← Mat.at_div_mod]
    exact ⟨_, ⟨id, A, hid, State.src_eq_ok_iff.1 hA, hx, rfl⟩, rfl⟩
  | readLog a => obtain ⟨ha, v, hv, rfl⟩ := h; exact ⟨_, ⟨ha, v, hv, rfl⟩, rfl⟩
  | readExp i => obtain ⟨v, hv, rfl⟩ := h; exact ⟨_, ⟨v, hv, rfl⟩, rfl⟩
  | writeReg | writeShard | writeMat | reset => cases hop

/-- Settles O58: an idle read performs what `ReadGives` says, and a read that answers has done no more. -/
theorem readsChangeNothing : Obligations.ReadsChangeNothing := by
  intro s op rest hop
  exact ⟨fun hb r hr => (State.ReadGives.hostWrites (s := { s with host := rest }) hr).step hb hop,
    fun t ht hread => (hostWrites_of_step ht hop).readGives hread⟩

/-- Settles O57: the reads of R65 are reads that `ReadGives` lists. -/
theorem tableReads : Obligations.TableReads := by
  intro s i rest hb
  exact ⟨fun v hop hv => (readsChangeNothing s _ rest hop).1 hb _ ⟨by omega, v, hv, rfl⟩,
    fun v hop hv => (readsChangeNothing s _ rest hop).1 hb _ ⟨v, hv, rfl⟩⟩

/-! ### Writes -/

/-- Settles O54: a write of a writable register followed by its read, and a write that is ignored. -/
theorem registerWrites : Obligations.RegisterWrites := by
  intro s n v rest hb
  refine ⟨fun hn hhost => ?_, fun hn hnext => ?_⟩
  · obtain ⟨t, ht, hread, hother⟩ := WritableReg.writeReg hn { s with host := .readReg n :: rest } v
    have hframe := State.writeReg_frame ht
    have hw : HostWrites (.writeReg n v) { s with host := .readReg n :: rest } t := .inr ⟨by omega, ht⟩
    have hr : HostWrites (.readReg n) { t with host := rest } (State.reply { t with host := rest } (.reg v)) := ⟨v, hread, rfl⟩
    refine ⟨t, _, hw.step hb hhost, hr.step (by rw [hframe]; exact hb) (by rw [hframe]), hother, ?_⟩
    rw [hframe]
    rfl
  · have hw : HostWrites (.writeReg n v) { s with host := rest } { s with host := rest } :=
      .inr ⟨by omega, ReadOnlyReg.writeReg hn _ v⟩
    exact hw.step hb hnext

theorem State.shByte_setShByte_same (s : State) (i o : Nat) (v : Byte) : (s.setShByte i o v).shByte i o = v := by
  rw [State.shByte, State.setShByte_sh, Memory.read_write_same]

/-- Different locations have different keys while offsets are below 2^32 (log entry 6). -/
theorem State.shByte_setShByte_other (s : State) {i o i' o' : Nat} (v : Byte) (ho : o < 2 ^ 32) (ho' : o' < 2 ^ 32)
    (h : (i', o') ≠ (i, o)) : (s.setShByte i o v).shByte i' o' = s.shByte i' o' := by
  have hkey : shKey i' o' ≠ shKey i o := fun e => h (Prod.ext_iff.2 ((shKey_inj ho' ho).1 e))
  simp only [State.shByte, State.setShByte_sh, State.setShByte_epoch, Memory.read_write_other _ v hkey]

/-- A read of the byte just written replies it. -/
theorem hostWrites_readShard_setShByte {s : State} {i o : Nat} (v : Byte) (rest : List HostOp) (h : s.shardExists i o) :
    HostWrites (.readShard i o) { s.setShByte i o v with host := rest }
      (State.reply { s.setShByte i o v with host := rest } (.byte v)) := by
  have hv : State.shByte { s.setShByte i o v with host := rest } i o = v := s.shByte_setShByte_same i o v
  exact ⟨h, by rw [hv]⟩

/-- Settles O55: a byte is written at its own key. -/
theorem shardWrites : Obligations.ShardWrites := by
  intro s i o v rest hb hi ho hmax hhost
  have hw : HostWrites (.writeShard i o v) { s with host := .readShard i o :: rest } _ := ⟨⟨hi, ho⟩, rfl⟩
  have hr := hostWrites_readShard_setShByte (s := { s with host := .readShard i o :: rest }) v rest ⟨hi, ho⟩
  exact ⟨_, _, hw.step hb hhost, hr.step hb rfl, rfl,
    fun _ _ ho' hne => State.shByte_setShByte_other _ v (ho.trans hmax) (ho'.trans hmax) hne⟩

/-- A with the element at linear index x replaced by v, as `WriteMat` leaves it (20_memory.md R64). -/
def Mat.setElement (A : Mat) (x : Nat) (v : Byte) : Mat := { A with e := A.e.setIfInBounds x v }

theorem Mat.setElement_wf {A : Mat} (h : A.wf) (x : Nat) (v : Byte) : (A.setElement x v).wf :=
  Array.size_setIfInBounds.trans h

theorem Mat.getD_setElement_same {A : Mat} (h : A.wf) {x : Nat} (v : Byte) (hx : x < A.rows * A.cols) :
    (A.setElement x v).e.getD x 0 = v := by
  have hsize : x < A.e.size := hx.trans_eq h.symm
  simp [Mat.setElement, hsize]

/-- A read of the element just written replies it. -/
theorem hostWrites_readMat_setElement {s : State} (b : Fin 4) {x : Nat} (v : Byte) (rest : List HostOp) (h : s.mats[b].wf)
    (hx : x < s.mats[b].rows * s.mats[b].cols) :
    HostWrites (.readMat b.val x) { s.setMat b (s.mats[b].setElement x v) with host := rest }
      (State.reply { s.setMat b (s.mats[b].setElement x v) with host := rest } (.byte v)) := by
  have hsrc : State.src { s.setMat b (s.mats[b].setElement x v) with host := rest } ⟨b.val, by omega⟩ =
      .ok (s.mats[b].setElement x v) := (State.src_buffer _ b).trans (congrArg _ (Vector.getElem_set_self _))
  exact ⟨_, _, rfl, hsrc, hx, by rw [Mat.getD_setElement_same h v hx]⟩

/-- Settles O56: an element is written at its linear index. -/
theorem matrixWrites : Obligations.MatrixWrites := by
  intro s b x v rest hb hwf hx hhost
  have hw : HostWrites (.writeMat b.val x v) { s with host := .readMat b.val x :: rest } _ := ⟨b, rfl, hx, rfl⟩
  have hr := hostWrites_readMat_setElement (s := { s with host := .readMat b.val x :: rest }) b v rest hwf hx
  exact ⟨_, _, s.mats[b].setElement x v, hw.step hb hhost, hr.step hb rfl, rfl,
    Mat.setElement_wf hwf x v, rfl, rfl, fun _ hy => Array.getElem?_setIfInBounds_ne hy.symm⟩

/-! ### Reserved locations -/

/-- Settles O59: an operation that answers is at a location that exists. -/
theorem reservedAccessesHaveNoMeaning : Obligations.ReservedAccessesHaveNoMeaning := by
  intro s t op rest hop hres ht
  have hw := hostWrites_of_step ht hop
  cases op with
  | readReg n =>
    obtain ⟨v, hv, -⟩ := hw
    cases (ReservedReg.readReg hres _).symm.trans hv
  | writeReg n v =>
    obtain ⟨rfl, -⟩ | ⟨-, hv⟩ := hw
    · simp at hres
    · cases (ReservedReg.writeReg hres _ v).symm.trans hv
  | readShard i o =>
    obtain ⟨⟨hi, ho⟩, -⟩ := hw
    dsimp only at hres ho
    omega
  | writeShard i o v =>
    obtain ⟨⟨hi, ho⟩, -⟩ := hw
    dsimp only at hres ho
    omega
  | readMat b x =>
    obtain ⟨id, A, rfl, hA, hx, -⟩ := hw
    obtain ⟨b, hb, rfl⟩ | ⟨h4, c, hc, rfl⟩ := State.src_eq_ok_iff.1 hA
    · obtain h | ⟨h, -⟩ | ⟨c, h, -⟩ | ⟨_, hle⟩ := hres
      · omega
      · omega
      · omega
      · simp only [hb] at hle
        exact Nat.not_lt.2 hle hx
    · obtain h | ⟨-, h⟩ | ⟨c', -, h, hle⟩ | ⟨h, -⟩ := hres
      · omega
      · cases h.symm.trans hc
      · cases h.symm.trans hc
        exact Nat.not_lt.2 hle hx
      · omega
  | writeMat b x v =>
    obtain ⟨d, rfl, hx, -⟩ := hw
    obtain hd | ⟨_, hd⟩ := hres
    · omega
    · exact Nat.not_lt.2 hd hx
  | readLog a =>
    obtain ⟨ha, v, hv, -⟩ := hw
    obtain ⟨hlt, -⟩ := Vector.getElem?_eq_some_iff.1 hv
    dsimp only at hres
    omega
  | readExp i =>
    obtain ⟨v, hv, -⟩ := hw
    obtain ⟨hlt, -⟩ := Vector.getElem?_eq_some_iff.1 hv
    exact absurd hres (by dsimp only; omega)
  | reset => exact hres

end Sys2Proof.Machine
end

section
/-! SUPPORT. The command word (30_encoding.md R90): its fields and its reserved bits as numbers, the rows of the opcode map (R94), and
when the decoder accepts a word (R96). -/

namespace Sys2Proof

open Sys2Proof.Machine (opcodesZ opcodesD opcodesA opcodesDA opcodesDAB)

/-! ### The fields of a word -/

theorem fieldOPC_eq (w : Word) : fieldOPC w = w.toNat % 2 ^ 8 := by
  simp [fieldOPC]

theorem fieldMD_val (w : Word) : (fieldMD w).val = w.toNat / 2 ^ 8 % 2 ^ 2 := by
  simp [fieldMD, Nat.shiftRight_eq_div_pow]

theorem fieldMA_val (w : Word) : (fieldMA w).val = w.toNat / 2 ^ 12 % 2 ^ 3 := by
  simp [fieldMA, Nat.shiftRight_eq_div_pow]

theorem fieldMB_val (w : Word) : (fieldMB w).val = w.toNat / 2 ^ 16 % 2 ^ 3 := by
  simp [fieldMB, Nat.shiftRight_eq_div_pow]

/-- The bits of the reserved mask are 11:10, 15 and 31:19 (R90). -/
theorem getLsbD_reservedMask : ∀ i < 32, (reservedMask.getLsbD i = true ↔ i = 10 ∨ i = 11 ∨ i = 15 ∨ 19 ≤ i) := by
  decide

/-- The reserved bits of a word are 0, bit by bit. -/
theorem reserved_eq_zero_iff (w : Word) : w &&& reservedMask = 0 ↔
    w.getLsbD 10 = false ∧ w.getLsbD 11 = false ∧ w.getLsbD 15 = false ∧ ∀ i, 19 ≤ i → i ≤ 31 → w.getLsbD i = false := by
  have hbits : w &&& reservedMask = 0 ↔ ∀ i < 32, (i = 10 ∨ i = 11 ∨ i = 15 ∨ 19 ≤ i) → w.getLsbD i = false := by
    rw [BitVec.eq_of_getLsbD_eq_iff]
    refine forall₂_congr fun i hi => ?_
    rw [← getLsbD_reservedMask i hi, BitVec.getLsbD_and, BitVec.ofNat_eq_ofNat, BitVec.getLsbD_zero, Bool.and_comm, Bool.and_eq_false_imp]
  rw [hbits]
  constructor
  · intro h
    exact ⟨h 10 (by decide) (by decide), h 11 (by decide) (by decide), h 15 (by decide) (by decide),
      fun i hi hi' => h i (by omega) (by omega)⟩
  · rintro ⟨h10, h11, h15, h⟩ i hi (rfl | rfl | rfl | h19)
    · exact h10
    · exact h11
    · exact h15
    · exact h i h19 (by omega)

/-- A reserved bit of a word is 1 (R96). -/
theorem reserved_ne_zero_iff (w : Word) : ¬ w &&& reservedMask = 0 ↔
    w.getLsbD 10 = true ∨ w.getLsbD 11 = true ∨ w.getLsbD 15 = true ∨ ∃ i, 19 ≤ i ∧ i ≤ 31 ∧ w.getLsbD i = true := by
  rw [reserved_eq_zero_iff]
  simp only [not_and_or, not_forall, Bool.not_eq_false, exists_prop]

/-- The reserved bits of a word are 0, as quotients and remainders. -/
theorem reserved_eq_zero_iff_toNat (w : Word) : w &&& reservedMask = 0 ↔
    w.toNat / 2 ^ 10 % 2 ^ 2 = 0 ∧ w.toNat / 2 ^ 15 % 2 = 0 ∧ w.toNat < 2 ^ 19 := by
  have hhigh : (∀ i, 19 ≤ i → i ≤ 31 → w.getLsbD i = false) ↔ w.toNat < 2 ^ 19 := by
    constructor
    · intro h
      refine Nat.lt_pow_two_of_testBit _ fun i hi => ?_
      by_cases hi' : i ≤ 31
      · exact h i hi hi'
      · exact BitVec.getLsbD_of_ge w i (by omega)
    · intro h i hi _
      exact Nat.testBit_lt_two_pow (h.trans_le (Nat.pow_le_pow_right (by decide) hi))
  rw [reserved_eq_zero_iff, hhigh]
  simp only [BitVec.getLsbD, Nat.testBit_eq_decide_div_mod_eq, decide_eq_false_iff_not]
  omega

/-! ### The fields of an encoded word -/

section

variable {opc : Nat} (hopc : opc < 2 ^ 8) (md : DstId) (ma mb : SrcId)

include hopc

theorem toNat_commandWord :
    (commandWord opc md ma mb).toNat = opc + md.val * 2 ^ 8 + ma.val * 2 ^ 12 + mb.val * 2 ^ 16 := by
  rw [commandWord, BitVec.toNat_ofNat]
  omega

@[simp] theorem fieldOPC_commandWord : fieldOPC (commandWord opc md ma mb) = opc := by
  rw [fieldOPC_eq, toNat_commandWord hopc]
  omega

@[simp] theorem fieldMD_commandWord : fieldMD (commandWord opc md ma mb) = md := by
  rw [Fin.ext_iff, fieldMD_val, toNat_commandWord hopc]
  omega

@[simp] theorem fieldMA_commandWord : fieldMA (commandWord opc md ma mb) = ma := by
  rw [Fin.ext_iff, fieldMA_val, toNat_commandWord hopc]
  omega

@[simp] theorem fieldMB_commandWord : fieldMB (commandWord opc md ma mb) = mb := by
  rw [Fin.ext_iff, fieldMB_val, toNat_commandWord hopc]
  omega

@[simp] theorem commandWord_and_reservedMask : commandWord opc md ma mb &&& reservedMask = 0 := by
  rw [reserved_eq_zero_iff_toNat, toNat_commandWord hopc]
  omega

end

/-- A word with its reserved bits 0 is put together from its fields (R90). -/
theorem commandWord_fields {w : Word} (h : w &&& reservedMask = 0) :
    commandWord (fieldOPC w) (fieldMD w) (fieldMA w) (fieldMB w) = w := by
  have hopc : fieldOPC w < 2 ^ 8 := by
    rw [fieldOPC_eq]
    exact Nat.mod_lt _ (by decide)
  obtain ⟨h10, h15, h19⟩ := (reserved_eq_zero_iff_toNat w).1 h
  apply BitVec.eq_of_toNat_eq
  rw [toNat_commandWord hopc, fieldOPC_eq, fieldMD_val, fieldMA_val, fieldMB_val]
  omega

/-! ### The rows of the opcode map -/

/-- The matrix fields that the format does not use are 0 (R96). -/
structure Format.UnusedZero (f : Format) (md : DstId) (ma mb : SrcId) : Prop where
  md : f.usesMD = false → md = 0
  ma : f.usesMA = false → ma = 0
  mb : f.usesMB = false → mb = 0

/-- The decoder's check of the unused fields. -/
theorem Format.unusedZero_iff {f : Format} {md : DstId} {ma mb : SrcId} : f.UnusedZero md ma mb ↔
    ((!f.usesMD && md ≠ 0) || (!f.usesMA && ma ≠ 0) || (!f.usesMB && mb ≠ 0)) = false := by
  have hfields : f.UnusedZero md ma mb ↔
      (f.usesMD = false → md = 0) ∧ (f.usesMA = false → ma = 0) ∧ (f.usesMB = false → mb = 0) :=
    ⟨fun ⟨hmd, hma, hmb⟩ => ⟨hmd, hma, hmb⟩, fun ⟨hmd, hma, hmb⟩ => ⟨hmd, hma, hmb⟩⟩
  rw [hfields]
  simp [and_assoc]

/-- A matrix field that the format does not use is nonzero (R96). -/
theorem Format.not_unusedZero_iff {f : Format} {md : DstId} {ma mb : SrcId} : ¬ f.UnusedZero md ma mb ↔
    (¬ f.usesMD = true ∧ md.val ≠ 0) ∨ (¬ f.usesMA = true ∧ ma.val ≠ 0) ∨ (¬ f.usesMB = true ∧ mb.val ≠ 0) := by
  rw [Format.unusedZero_iff]
  simp only [Bool.not_eq_false, Bool.or_eq_true, Bool.and_eq_true, Bool.not_eq_true', Bool.not_eq_true, decide_eq_true_eq, ne_eq,
    Fin.ext_iff, Fin.val_zero, or_assoc]

/-- What a row of the opcode map says (R94): its opcode is listed under its format, its word has the fields that the format uses, and its
command is well formed when the sources that the format uses are legal (R95). -/
structure OpcodeRow (opc : Nat) (md : DstId) (ma mb : SrcId) (f : Format) (i : Instr) : Prop where
  assigned : opc ∈ opcodesZ ++ opcodesD ++ opcodesA ++ opcodesDA ++ opcodesDAB
  usesMD : opc ∈ opcodesD ++ opcodesDA ++ opcodesDAB ↔ f.usesMD = true
  usesMA : opc ∈ opcodesA ++ opcodesDA ++ opcodesDAB ↔ f.usesMA = true
  usesMB : opc ∈ opcodesDAB ↔ f.usesMB = true
  word : encode i = commandWord opc (if f.usesMD then md else 0) (if f.usesMA then ma else 0) (if f.usesMB then mb else 0)
  legal : i.wellFormed = true ↔ (f.usesMA = true → ma.val ≤ 4) ∧ (f.usesMB = true → mb.val ≤ 4)

theorem opcodeRow_eq_some {f : Format} {i : Instr} {opc : Nat} {md : DstId} {ma mb : SrcId}
    (h : opcodeRow opc md ma mb = some (f, i)) : OpcodeRow opc md ma mb f i := by
  unfold opcodeRow at h
  split at h <;> simp only [Option.some.injEq, Prod.mk.injEq, reduceCtorEq] at h
  all_goals
    obtain ⟨rfl, rfl⟩ := h
    exact ⟨by decide, by decide, by decide, by decide, rfl,
      by simp [Instr.wellFormed, SrcId.legal, Format.usesMA, Format.usesMB]⟩

theorem opcodeRow_eq_none {opc : Nat} {md : DstId} {ma mb : SrcId} (h : opcodeRow opc md ma mb = none) :
    opc ∉ opcodesZ ++ opcodesD ++ opcodesA ++ opcodesDA ++ opcodesDAB := by
  unfold opcodeRow at h
  split at h <;> cases h
  simp_all [opcodesZ, opcodesD, opcodesA, opcodesDA, opcodesDAB]

/-- A row with its unused fields 0 is what the encoder writes. -/
theorem OpcodeRow.encode_eq {f : Format} {i : Instr} {opc : Nat} {md : DstId} {ma mb : SrcId}
    (h : OpcodeRow opc md ma mb f i) (h0 : f.UnusedZero md ma mb) : encode i = commandWord opc md ma mb := by
  obtain ⟨hmd, hma, hmb⟩ := h0
  rw [h.word]
  congr 1
  · exact ite_eq_left_iff.2 fun hu => (hmd (Bool.eq_false_iff.2 hu)).symm
  · exact ite_eq_left_iff.2 fun hu => (hma (Bool.eq_false_iff.2 hu)).symm
  · exact ite_eq_left_iff.2 fun hu => (hmb (Bool.eq_false_iff.2 hu)).symm

theorem Instr.opcode_lt (i : Instr) : i.opcode < 2 ^ 8 := by
  cases i <;> simp [Instr.opcode]

/-- Every command is a row of the opcode map with its unused fields 0, and the encoder writes that row. -/
theorem exists_opcodeRow (i : Instr) : ∃ f md ma mb, encode i = commandWord i.opcode md ma mb ∧
    opcodeRow i.opcode md ma mb = some (f, i) ∧ f.UnusedZero md ma mb := by
  cases i with
  | nop | gfadd | gfmul | gfdiv | gfinv | gfpow | config | encode | decode =>
    exact ⟨.z, 0, 0, 0, rfl, rfl, fun _ => rfl, fun _ => rfl, fun _ => rfl⟩
  | mnew md | mident md | mbuild md => exact ⟨.d, md, 0, 0, rfl, rfl, nofun, fun _ => rfl, fun _ => rfl⟩
  | missq ma => exact ⟨.a, 0, ma, 0, rfl, rfl, fun _ => rfl, nofun, fun _ => rfl⟩
  | msub md ma | minv md ma => exact ⟨.da, md, ma, 0, rfl, rfl, nofun, nofun, fun _ => rfl⟩
  | mmul md ma mb | maug md ma mb => exact ⟨.dab, md, ma, mb, rfl, rfl, nofun, nofun, nofun⟩

/-! ### The decoder -/

/-- On a row of the opcode map the decoder accepts exactly when the reserved bits and the unused fields are 0 and the sources are legal. -/
theorem decode_eq_ok_iff_of_row {w : Word} {f : Format} {i j : Instr}
    (hrow : opcodeRow (fieldOPC w) (fieldMD w) (fieldMA w) (fieldMB w) = some (f, i)) : decode w = .ok j ↔
    w &&& reservedMask = 0 ∧ f.UnusedZero (fieldMD w) (fieldMA w) (fieldMB w) ∧ i.wellFormed = true ∧ i = j := by
  rw [Format.unusedZero_iff]
  simp only [decode, hrow]
  split_ifs with hres hunused hwf
  · exact iff_of_false nofun fun h => hres h.1
  · exact iff_of_false nofun fun h => absurd hunused (Bool.eq_false_iff.1 h.2.1)
  · exact iff_of_false nofun fun ⟨_, _, hlegal, _⟩ => by simp [hlegal] at hwf
  · rw [Except.ok.injEq]
    exact ⟨fun h => ⟨not_not.1 hres, Bool.eq_false_iff.2 hunused, by simpa using hwf, h⟩, fun ⟨_, _, _, h⟩ => h⟩

/-- Everything the decoder accepts: a row of the opcode map, its reserved bits and unused fields 0, its sources legal. -/
theorem decode_eq_ok_iff {w : Word} {i : Instr} : decode w = .ok i ↔
    ∃ f, opcodeRow (fieldOPC w) (fieldMD w) (fieldMA w) (fieldMB w) = some (f, i) ∧
      w &&& reservedMask = 0 ∧ f.UnusedZero (fieldMD w) (fieldMA w) (fieldMB w) ∧ i.wellFormed = true := by
  constructor
  · intro h
    cases hrow : opcodeRow (fieldOPC w) (fieldMD w) (fieldMA w) (fieldMB w) with
    | none => simp [decode, hrow] at h
    | some r =>
      obtain ⟨hres, h0, hwf, rfl⟩ := (decode_eq_ok_iff_of_row hrow).1 h
      exact ⟨r.1, rfl, hres, h0, hwf⟩
  · rintro ⟨f, hrow, hres, h0, hwf⟩
    exact (decode_eq_ok_iff_of_row hrow).2 ⟨hres, h0, hwf, rfl⟩

/-- The decoder answers a command or a reason, not both. -/
theorem decode_error_iff {w : Word} : (∃ e, decode w = .error e) ↔ ¬ ∃ i, decode w = .ok i := by
  cases decode w <;> simp

end Sys2Proof
end

section
/-! SUPPORT. Settles 30_encoding.md: the encoding (R90, R94 to R96), the start of a command (R92) and `NOP` (R97). -/

namespace Sys2Proof.Machine

/-! ### The encoding -/

/-- Settles O1: the encoder writes a row of the opcode map with its unused fields 0, and the decoder reads back its fields. -/
theorem decodeEncodeRoundTrip : Obligations.DecodeEncodeRoundTrip := by
  intro i hwf
  obtain ⟨f, md, ma, mb, hword, hrow, h0⟩ := exists_opcodeRow i
  rw [hword, decode_eq_ok_iff]
  simp only [i.opcode_lt, fieldOPC_commandWord, fieldMD_commandWord, fieldMA_commandWord, fieldMB_commandWord, commandWord_and_reservedMask]
  exact ⟨f, hrow, trivial, h0, hwf⟩

/-- Settles O2: an accepted word has its reserved bits and unused fields 0, so its row of the opcode map encodes to it. -/
theorem acceptedWordIsItsEncoding : Obligations.AcceptedWordIsItsEncoding := by
  intro w i h
  obtain ⟨f, hrow, hres, h0, hwf⟩ := decode_eq_ok_iff.1 h
  refine ⟨hwf, ?_⟩
  calc Sys2Proof.encode i
    _ = commandWord (fieldOPC w) (fieldMD w) (fieldMA w) (fieldMB w) := (opcodeRow_eq_some hrow).encode_eq h0
    _ = w := commandWord_fields hres

/-- The clauses of R96 but the first, on a row of the opcode map. -/
theorem illegalWord_iff_of_row {w : Word} {f : Format} {i : Instr}
    (h : OpcodeRow (fieldOPC w) (fieldMD w) (fieldMA w) (fieldMB w) f i) : IllegalWord w ↔
    ¬ (w &&& reservedMask = 0 ∧ f.UnusedZero (fieldMD w) (fieldMA w) (fieldMB w) ∧ i.wellFormed = true) := by
  obtain ⟨ho, hD, hA, hB, -, hwf⟩ := h
  have hlegal : ¬ i.wellFormed = true ↔
      (f.usesMA = true ∧ 5 ≤ (fieldMA w).val) ∨ (f.usesMB = true ∧ 5 ≤ (fieldMB w).val) := by
    rw [hwf]
    simp only [not_and_or, Classical.not_imp, not_le, Nat.succ_le_iff]
  simp only [not_and_or, reserved_ne_zero_iff, Format.not_unusedZero_iff, hlegal, IllegalWord, ← fieldOPC_eq, ← fieldMD_val,
    ← fieldMA_val, ← fieldMB_val, hD, hA, hB, ho, not_true, false_or, or_assoc]

/-- Settles O3: without a row both sides hold, by the opcode; with a row the other clauses are those the decoder checks. -/
theorem rejectedWordsAreTheIllegalOnes : Obligations.RejectedWordsAreTheIllegalOnes := by
  intro w
  constructor
  · rw [decode_error_iff]
    cases hrow : opcodeRow (fieldOPC w) (fieldMD w) (fieldMA w) (fieldMB w) with
    | none =>
      have hill : IllegalWord w := .inl (by rw [← fieldOPC_eq]; exact opcodeRow_eq_none hrow)
      refine iff_of_true (fun ⟨i, hi⟩ => ?_) hill
      obtain ⟨f, hf, -⟩ := decode_eq_ok_iff.1 hi
      cases hrow.symm.trans hf
    | some r =>
      rw [illegalWord_iff_of_row (opcodeRow_eq_some hrow)]
      simp [decode_eq_ok_iff_of_row hrow]
  · rw [decode_error_iff]
    exact em _

/-- Settles O4: each word is the encoding of its command, which is well formed. -/
theorem printedWordsDecode : Obligations.PrintedWordsDecode :=
  have h := decodeEncodeRoundTrip
  ⟨h .nop rfl, h .gfpow rfl, h (.mnew 3) rfl, h (.mmul 2 0 1) rfl, h (.maug 1 2 3) rfl, h (.msub 0 4) rfl, h (.missq 3) rfl,
    h (.mbuild 1) rfl, h .decode rfl⟩

/-! ### The start of a command -/

/-- A host write to `CMD` while `BUSY = 0` starts the command (R92). -/
theorem step_writeCmd {s : State} {w : Word} {rest : List HostOp} (hb : s.busy = false) (hn : s.next (.writeReg 0 w) rest) :
    step s = startCommand { s with host := rest } w := by
  have hhost : s.host = .writeReg 0 w :: rest := hn
  rw [step, runNext, hhost]
  exact whenIdle_idle hb _

theorem startCommand_of_ok {w : Word} {i : Instr} (h : Sys2Proof.decode w = .ok i) (s : State) :
    startCommand s w = exec i (s.accept w) := by
  rw [startCommand, h]

/-- Settles O5: the start of a command accepts the word and runs what it decodes to. -/
theorem stepRunsTheDecodedCommand : Obligations.StepRunsTheDecodedCommand := by
  intro s w i rest hb hn hw
  rw [step_writeCmd hb hn, startCommand_of_ok hw]
  rfl

/-- Every command completes (60_exceptions.md R262). -/
theorem exec_next (i : Instr) (s : State) : ∃ t, exec i s = .next t := by
  cases i with
  | decode => exact runLockingCommand_next s _
  | _ => exact runCommand_next s _

theorem startCommand_next (s : State) (w : Word) : ∃ t, startCommand s w = .next t := by
  unfold startCommand
  split
  · exact exec_next _ _
  · exact runCommand_next _ _

/-- t is a completion of the running command of s: `BUSY = 0`, a completion code in `ERR`, the command word and the host's lists kept
(60_exceptions.md R260, R262). -/
structure Completes (s t : State) : Prop where
  busy : t.busy = false
  err : t.err ∈ legalCodes
  cmd : t.cmd = s.cmd
  host : t.host = s.host
  replies : t.replies = s.replies

theorem fail_completes (s : State) (e : Err) : Completes s (s.fail e) := ⟨rfl, e.code_mem_legalCodes, rfl, rfl, rfl⟩

/-- A command ends with `BUSY = 0` and a completion code in `ERR`. -/
theorem CommandEnds.code {i : Instr} {s t : State} (h : CommandEnds i s t) : t.busy = false ∧ t.err ∈ legalCodes := by
  obtain ⟨e, rfl⟩ | ⟨-, -, -, rfl⟩ | ⟨-, u, -, rfl⟩ := h
  · exact ⟨rfl, e.code_mem_legalCodes⟩
  · exact ⟨rfl, Err.singularMatrix.code_mem_legalCodes⟩
  · exact ⟨rfl, zero_mem_legalCodes⟩

theorem exec_completes {i : Instr} {s t : State} (h : exec i s = .next t) : Completes s t := by
  obtain ⟨hbusy, herr⟩ := (exec_cases h).code
  have hport : t.cmd = s.cmd ∧ t.host = s.host ∧ t.replies = s.replies := by
    have hframe := commandsChangeOnlyTheirDestination i s t h
    cases i with
    | encode | decode => obtain ⟨ht, -⟩ := hframe; rw [ht]; exact ⟨rfl, rfl, rfl⟩
    | _ => dsimp only at hframe; rw [hframe]; exact ⟨rfl, rfl, rfl⟩
  obtain ⟨hcmd, hhost, hreplies⟩ := hport
  exact ⟨hbusy, herr, hcmd, hhost, hreplies⟩

theorem startCommand_completes {s t : State} {w : Word} (h : startCommand s w = .next t) : Completes (s.accept w) t := by
  obtain ⟨e, rfl⟩ | ⟨i, -, hi⟩ := startCommand_cases h
  · exact fail_completes _ e
  · exact exec_completes hi

/-- Settles O6: the start of a command always answers, and what it answers is a completion of the accepted word. -/
theorem everyCommandWordCompletes : Obligations.EveryCommandWordCompletes := by
  intro s w rest hb hn
  obtain ⟨t, ht⟩ := startCommand_next { s with host := rest } w
  obtain ⟨hbusy, herr, hcmd, hhost, hreplies⟩ := startCommand_completes ht
  exact ⟨t, (step_writeCmd hb hn).trans ht, hbusy, hcmd, hhost, hreplies, herr⟩

/-! ### `NOP` -/

/-- Settles O19: `NOP` is opcode 0 with no fields, and its rule answers the state it found. -/
theorem nopClearsErr : Obligations.NopClearsErr :=
  ⟨rfl, fun _ => ⟨fun hf => runCommand_ready hf _, fun hf => runCommand_fatal hf _⟩⟩

end Sys2Proof.Machine
end

section
/-! SUPPORT. The entries of the tables of well-formed parameters, and the pure functions of the GF(2^8) unit that read them
(40_gf_arith.md R120 to R125): `GfMul` is `PolyMul` (R128), and `GfDiv` by a nonzero byte is its inverse. -/

namespace Sys2Proof

/-! ### The entries of the tables -/

theorem Cfg.genPow_one {c : Cfg} (hd : c.poly.getLsbD 8 = true) : c.genPow 1 = c.gen := by
  rw [Cfg.genPow, Cfg.genPow, polyMul_comm hd, polyMul_one hd]

theorem Tables.getElem?_exp_mod (t : Tables) (i : Nat) : t.exp[i % 255]? = some (t.expAt i) := Vector.getElem?_eq_getElem _

theorem Tables.getElem?_log (t : Tables) {a : Byte} (ha : a ≠ 0) : t.log[a.toNat - 1]? = some (t.logAt a ha) :=
  Vector.getElem?_eq_getElem _

/-- `EXP[i] = GEN^i` for i = 0..254 (R120). -/
theorem Tables.getElem?_exp_ofCfg {c : Cfg} {i : Nat} {x : Byte} :
    (Tables.ofCfg c).exp[i]? = some x ↔ i < 255 ∧ c.genPow i = x := by
  rw [Vector.getElem?_eq_some_iff, ← exists_prop]
  refine exists_congr fun hi => ?_
  have h := Tables.getElem?_exp_mod (Tables.ofCfg c) i
  rw [Tables.expAt_ofCfg, Nat.mod_eq_of_lt hi, Vector.getElem?_eq_getElem hi] at h
  rw [Option.some.inj h]

/-- `LOG[a]` is the one exponent below 255 of which a is the power (R120). -/
theorem Tables.logAt_ofCfg_eq_iff {c : Cfg} (h : c.WellFormed) {a : Byte} (ha : a ≠ 0) {i : Nat} :
    (Tables.ofCfg c).logAt a ha = i ↔ i < 255 ∧ c.genPow i = a := by
  obtain ⟨j, hj, rfl⟩ := Cfg.genPow_surjective h.degree h.primitive ha
  rw [Tables.logAt_ofCfg h hj]
  constructor
  · rintro rfl
    exact ⟨hj, rfl⟩
  · rintro ⟨hi, e⟩
    exact Cfg.genPow_injective h.degree h.primitive hj hi e.symm

theorem Tables.getElem?_log_ofCfg {c : Cfg} (h : c.WellFormed) {a : Byte} (ha : a ≠ 0) {i : Nat} :
    (Tables.ofCfg c).log[a.toNat - 1]? = some i ↔ i < 255 ∧ c.genPow i = a := by
  rw [Tables.getElem?_log _ ha, Option.some_inj, Tables.logAt_ofCfg_eq_iff h ha]

/-! ### Multiplication and division by any tables -/

section AnyTables

variable {t : Tables} {a b : Byte}

theorem gfMul_zero_left (t : Tables) (b : Byte) : gfMul t 0 b = 0 := dif_pos rfl

theorem gfMul_zero_right (t : Tables) (a : Byte) : gfMul t a 0 = 0 := by
  unfold gfMul
  split <;> rfl

theorem gfMul_of_ne_zero (ha : a ≠ 0) (hb : b ≠ 0) : gfMul t a b = t.expAt (t.logAt a ha + t.logAt b hb) := by
  rw [gfMul, dif_neg ha, dif_neg hb]

/-- 0 divided by any byte is 0, by 0 too (R123). -/
theorem gfDiv_zero_left (t : Tables) (b : Byte) : gfDiv t 0 b = some 0 := dif_pos rfl

theorem gfDiv_zero_right (ha : a ≠ 0) : gfDiv t a 0 = none := by rw [gfDiv, dif_neg ha, dif_pos rfl]

theorem gfDiv_of_ne_zero (ha : a ≠ 0) (hb : b ≠ 0) :
    gfDiv t a b = some (t.expAt (((t.logAt a ha : Int) - (t.logAt b hb : Int)) % 255).toNat) := by
  rw [gfDiv, dif_neg ha, dif_neg hb]

theorem gfMul_of_entries (ha : a ≠ 0) (hb : b ≠ 0) {la lb : Nat} {v : Byte} (hla : t.log[a.toNat - 1]? = some la)
    (hlb : t.log[b.toNat - 1]? = some lb) (hv : t.exp[(la + lb) % 255]? = some v) : gfMul t a b = v := by
  rw [Tables.getElem?_log t ha] at hla
  rw [Tables.getElem?_log t hb] at hlb
  rw [Tables.getElem?_exp_mod] at hv
  rw [gfMul_of_ne_zero ha hb, Option.some.inj hla, Option.some.inj hlb, Option.some.inj hv]

theorem gfDiv_of_entries (ha : a ≠ 0) (hb : b ≠ 0) {la lb : Nat} {v : Byte} (hla : t.log[a.toNat - 1]? = some la)
    (hlb : t.log[b.toNat - 1]? = some lb) (hv : t.exp[(((la : Int) - (lb : Int)) % 255).toNat]? = some v) :
    gfDiv t a b = some v := by
  have hlt : (((la : Int) - (lb : Int)) % 255).toNat < 255 := by omega
  rw [Tables.getElem?_log t ha] at hla
  rw [Tables.getElem?_log t hb] at hlb
  rw [← Nat.mod_eq_of_lt hlt, Tables.getElem?_exp_mod] at hv
  rw [gfDiv_of_ne_zero ha hb, Option.some.inj hla, Option.some.inj hlb, hv]

end AnyTables

/-! ### Multiplication and division by the tables of well-formed parameters -/

section WellFormedTables

variable {c : Cfg} (h : c.WellFormed)
include h

/-- `GfMul(a, b) = PolyMul(a, b)` (R128): the exponents of the powers of `GEN` add. -/
theorem gfMul_ofCfg (a b : Byte) : gfMul (Tables.ofCfg c) a b = polyMul c.poly a b := by
  by_cases ha : a = 0
  · rw [ha, gfMul_zero_left, polyMul_comm h.degree, polyMul_zero h.degree]
  by_cases hb : b = 0
  · rw [hb, gfMul_zero_right, polyMul_zero h.degree]
  obtain ⟨-, hi⟩ := (Tables.logAt_ofCfg_eq_iff h ha).1 rfl
  obtain ⟨-, hj⟩ := (Tables.logAt_ofCfg_eq_iff h hb).1 rfl
  rw [gfMul_of_ne_zero ha hb, Tables.expAt_ofCfg, Cfg.genPow_mod h.degree h.primitive, Cfg.genPow_add h.degree, hi, hj]

/-- The index of `GfDiv` plus the logarithm of the divisor is the logarithm of the dividend, mod 255. -/
theorem gfDiv_ofCfg (a : Byte) {b : Byte} (hb : b ≠ 0) :
    ∃ q, gfDiv (Tables.ofCfg c) a b = some q ∧ gfMul (Tables.ofCfg c) q b = a := by
  by_cases ha : a = 0
  · exact ⟨0, by rw [ha, gfDiv_zero_left], by rw [ha, gfMul_zero_left]⟩
  refine ⟨_, gfDiv_of_ne_zero ha hb, ?_⟩
  obtain ⟨hi, hia⟩ := (Tables.logAt_ofCfg_eq_iff h ha).1 rfl
  obtain ⟨hj, hjb⟩ := (Tables.logAt_ofCfg_eq_iff h hb).1 rfl
  generalize (Tables.ofCfg c).logAt a ha = i at *
  generalize (Tables.ofCfg c).logAt b hb = j at *
  have hindex : ((((i : Int) - (j : Int)) % 255).toNat % 255 + j) % 255 = i := by omega
  rw [gfMul_ofCfg h, Tables.expAt_ofCfg, ← hjb, ← Cfg.genPow_add h.degree, ← Cfg.genPow_mod h.degree h.primitive, hindex, hia]

theorem gfMul_ofCfg_ne_zero {a b : Byte} (ha : a ≠ 0) (hb : b ≠ 0) : gfMul (Tables.ofCfg c) a b ≠ 0 := by
  rw [gfMul_ofCfg h]
  exact polyMul_ne_zero h.degree h.primitive ha hb

/-- A nonzero factor cancels: the difference of the two products is the product of the difference. -/
theorem gfMul_right_cancel {a b x : Byte} (hx : x ≠ 0) (e : gfMul (Tables.ofCfg c) a x = gfMul (Tables.ofCfg c) b x) : a = b := by
  by_contra hab
  have hne : a ^^^ b ≠ 0 := fun h0 => hab (BitVec.xor_eq_zero_iff.1 h0)
  refine gfMul_ofCfg_ne_zero h hx hne ?_
  rw [gfMul_ofCfg h, polyMul_xor h.degree, polyMul_comm h.degree x a, polyMul_comm h.degree x b, ← gfMul_ofCfg h, ← gfMul_ofCfg h, e]
  exact BitVec.xor_self

/-- `GfInv(a) = EXP[(255 - LOG[a]) mod 255]` (R124). -/
theorem gfInv_ofCfg_of_entries {a : Byte} (ha : a ≠ 0) {la : Nat} {v : Byte} (hla : (Tables.ofCfg c).log[a.toNat - 1]? = some la)
    (hv : (Tables.ofCfg c).exp[(255 - la) % 255]? = some v) : gfInv (Tables.ofCfg c) a = some v := by
  obtain ⟨hlt, -⟩ := (Tables.getElem?_log_ofCfg h ha).1 hla
  have hindex : (((0 : Nat) : Int) - (la : Int)) % 255 = ((255 - la) % 255 : Nat) := by omega
  refine gfDiv_of_entries (by decide) ha (la := 0) ((Tables.getElem?_log_ofCfg h (by decide)).2 ⟨by decide, rfl⟩) hla ?_
  rw [hindex, Int.toNat_natCast, hv]

/-! ### Powers -/

theorem gfPowLoop_ofCfg_genPow (i n : Nat) : gfPowLoop (Tables.ofCfg c) (c.genPow i) n = c.genPow (i * n) := by
  induction n with
  | zero => rfl
  | succ n ih => rw [gfPowLoop, ih, gfMul_ofCfg h, ← Cfg.genPow_add h.degree, Nat.mul_succ]

/-- The closed form of R125 equals its loop: both give the power of `GEN` to the product of the logarithm and the exponent. -/
theorem gfPow_ofCfg (a : Byte) (n : Nat) : gfPow (Tables.ofCfg c) a n = gfPowLoop (Tables.ofCfg c) a n := by
  cases n with
  | zero => rfl
  | succ n =>
    by_cases ha : a = 0
    · rw [ha, gfPowLoop, gfMul_zero_right, gfPow, if_neg n.succ_ne_zero, dif_pos rfl]
    · obtain ⟨-, hi⟩ := (Tables.logAt_ofCfg_eq_iff h ha).1 rfl
      have hpow : gfPow (Tables.ofCfg c) a (n + 1) = (Tables.ofCfg c).expAt ((Tables.ofCfg c).logAt a ha * (n + 1)) := by
        rw [gfPow, if_neg n.succ_ne_zero, dif_neg ha]
      rw [hpow, Tables.expAt_ofCfg, Cfg.genPow_mod h.degree h.primitive, ← gfPowLoop_ofCfg_genPow h, hi]

end WellFormedTables

end Sys2Proof
end

section
/-! SUPPORT. Settles 40_gf_arith.md: the laws of the tables and of the field (R120, R126, R127), and the commands of the GF(2^8) unit
(R121 to R125, R128). -/

namespace Sys2Proof.Machine

/-! ### The tables and the field -/

/-- Settles O26: entry i of `EXP` is the power i of `GEN`, and `LOG` of a nonzero byte is the exponent of which it is the power. -/
theorem tablesAreInverse : Obligations.TablesAreInverse := by
  intro c h
  have hgen : c.genPow 1 = c.gen := Cfg.genPow_one h.degree
  have hgen0 : c.gen ≠ 0 := hgen ▸ Cfg.genPow_ne_zero h.degree h.primitive 1
  refine ⟨Tables.getElem?_exp_ofCfg.2 ⟨by decide, rfl⟩, Tables.getElem?_exp_ofCfg.2 ⟨by decide, hgen⟩,
    (Tables.getElem?_log_ofCfg h (a := 1) (by decide)).2 ⟨by decide, rfl⟩, (Tables.getElem?_log_ofCfg h hgen0).2 ⟨by decide, hgen⟩, ?_, ?_, ?_⟩
  · intro i x y hx hy
    obtain ⟨-, rfl⟩ := Tables.getElem?_exp_ofCfg.1 hx
    obtain ⟨-, rfl⟩ := Tables.getElem?_exp_ofCfg.1 hy
    rfl
  · intro i x hx
    obtain ⟨hi, rfl⟩ := Tables.getElem?_exp_ofCfg.1 hx
    have h0 := Cfg.genPow_ne_zero h.degree h.primitive i
    exact ⟨h0, (Tables.getElem?_log_ofCfg h h0).2 ⟨hi, rfl⟩⟩
  · intro a i ha hi
    obtain ⟨hlt, hpow⟩ := (Tables.getElem?_log_ofCfg h ha).1 hi
    exact ⟨by omega, Tables.getElem?_exp_ofCfg.2 ⟨hlt, hpow⟩⟩

/-- Settles O27: the product is that of polynomials, and the quotient 1/a times a is 1. -/
theorem sourceFieldLaws : Obligations.SourceFieldLaws := by
  intro c h a
  refine ⟨fun ha => ?_, BitVec.xor_self, gfMul_zero_right _ a, BitVec.xor_zero, ?_, gfDiv_zero_right (by decide)⟩
  · obtain ⟨q, hq, hmul⟩ := gfDiv_ofCfg h 1 ha
    refine ⟨q, hq, ?_⟩
    rw [gfMul_ofCfg h, polyMul_comm h.degree, ← gfMul_ofCfg h, hmul]
  · rw [gfMul_ofCfg h, polyMul_one h.degree]

/-- Settles O28: the product is that of polynomials, and a nonzero factor cancels. -/
theorem furtherFieldLaws : Obligations.FurtherFieldLaws := by
  intro c h x y z
  refine ⟨BitVec.xor_comm x y, BitVec.xor_assoc x y z, ?_, ?_, ?_, ?_, fun hy => ⟨?_, gfDiv_ofCfg h x hy⟩⟩
  · rw [gfMul_ofCfg h, gfMul_ofCfg h, polyMul_comm h.degree]
  · simp only [gfMul_ofCfg h, polyMul_assoc h.degree]
  · simp only [gfMul_ofCfg h, gfAdd, polyMul_xor h.degree]
  · intro h0
    by_contra hne
    obtain ⟨hx, hy⟩ := not_or.1 hne
    exact gfMul_ofCfg_ne_zero h hx hy h0
  · obtain ⟨q, hq, hmul⟩ := gfDiv_ofCfg h (gfMul (Tables.ofCfg c) x y) hy
    rw [hq, gfMul_right_cancel h hy hmul]

/-! ### Field-element operands -/

theorem toNat_fieldOperand {v : Word} (h : v.toNat ≤ 0xFF) : (v.setWidth 8).toNat = v.toNat := by
  rw [BitVec.toNat_setWidth]
  omega

theorem fieldOperand_zero {v : Word} (h : v = 0) : v.setWidth 8 = (0 : Byte) := by
  rw [h]
  rfl

theorem fieldOperand_ne_zero {v : Word} (h : v.toNat ≤ 0xFF) (h0 : v ≠ 0) : v.setWidth 8 ≠ 0 := fun e =>
  h0 (BitVec.eq_of_toNat_eq (by rw [← toNat_fieldOperand h, e]; rfl))

/-- A byte in a register is the register's low byte, zero-extended. -/
theorem setWidth_fieldOperand {v : Word} (h : v.toNat ≤ 0xFF) : (v.setWidth 8).setWidth 32 = v :=
  BitVec.eq_of_toNat_eq (by rw [BitVec.toNat_setWidth, toNat_fieldOperand h]; omega)

section Operands

variable {s : State} (hf : s.fatal = false)
include hf

/-- A command whose one operand is a byte. -/
theorem runCommand_operand (f : Byte → Except Err State) (h0 : s.arg0.toNat ≤ 0xFF) :
    runCommand s (fieldElement s.arg0 >>= f) = .next (s.complete (f (s.arg0.setWidth 8))) := by
  rw [runCommand_ready hf, fieldElement_ok h0, bind_ok_eq]

theorem runCommand_operand_range (f : Byte → Except Err State) (h0 : s.arg0.toNat > 0xFF) :
    runCommand s (fieldElement s.arg0 >>= f) = .next { s with err := 0x81, busy := false } := by
  rw [runCommand_ready hf, fieldElement_error h0]
  rfl

/-- A command whose two operands are bytes. -/
theorem runCommand_operands (f : Byte → Byte → Except Err State) (h0 : s.arg0.toNat ≤ 0xFF) (h1 : s.arg1.toNat ≤ 0xFF) :
    runCommand s (fieldElement s.arg0 >>= fun a => fieldElement s.arg1 >>= f a) =
      .next (s.complete (f (s.arg0.setWidth 8) (s.arg1.setWidth 8))) := by
  rw [runCommand_operand hf _ h0, fieldElement_ok h1, bind_ok_eq]

theorem runCommand_operands_range (f : Byte → Byte → Except Err State) (h : s.arg0.toNat > 0xFF ∨ s.arg1.toNat > 0xFF) :
    runCommand s (fieldElement s.arg0 >>= fun a => fieldElement s.arg1 >>= f a) = .next { s with err := 0x81, busy := false } := by
  by_cases h0 : s.arg0.toNat > 0xFF
  · exact runCommand_operand_range hf _ h0
  · rw [runCommand_operand hf _ (Nat.le_of_not_lt h0), fieldElement_error (h.resolve_left h0)]
    rfl

end Operands

/-! ### The commands of the unit -/

/-- The completion of a field command that gives q: the result in `RES0`, or `DivideByZero` (R121 to R125). -/
def State.fieldResult (s : State) (q : Option Byte) : State :=
  match q with
  | some v => { s with res0 := zext32 v, err := 0, busy := false }
  | none => { s with err := 1, busy := false }

theorem complete_quotient (s : State) (q : Option Byte) :
    s.complete (quotient q >>= fun v => .ok (s.setRes0 (zext32 v))) = s.fieldResult q := by
  cases q <;> rfl

section Commands

variable {s : State} (hf : s.fatal = false) (h0 : s.arg0.toNat ≤ 0xFF)
include hf h0

theorem exec_gfadd (h1 : s.arg1.toNat ≤ 0xFF) :
    exec .gfadd s = .next (s.fieldResult (some (gfAdd (s.arg0.setWidth 8) (s.arg1.setWidth 8)))) :=
  runCommand_operands hf _ h0 h1

theorem exec_gfmul (h1 : s.arg1.toNat ≤ 0xFF) :
    exec .gfmul s = .next (s.fieldResult (some (gfMul s.rom (s.arg0.setWidth 8) (s.arg1.setWidth 8)))) :=
  runCommand_operands hf _ h0 h1

theorem exec_gfdiv (h1 : s.arg1.toNat ≤ 0xFF) :
    exec .gfdiv s = .next (s.fieldResult (gfDiv s.rom (s.arg0.setWidth 8) (s.arg1.setWidth 8))) := by
  rw [← complete_quotient]
  exact runCommand_operands hf _ h0 h1

theorem exec_gfinv : exec .gfinv s = .next (s.fieldResult (gfInv s.rom (s.arg0.setWidth 8))) := by
  rw [← complete_quotient]
  exact runCommand_operand hf _ h0

theorem exec_gfpow : exec .gfpow s = .next (s.fieldResult (some (gfPow s.rom (s.arg0.setWidth 8) s.arg1.toNat))) :=
  runCommand_operand hf _ h0

end Commands

/-- Settles O20: `GFADD` completes with the exclusive or of the two low bytes, which are the whole operands. -/
theorem gfaddIsXor : Obligations.GfaddIsXor := by
  refine ⟨rfl, fun s hf => ⟨fun h0 h1 => ?_, runCommand_operands_range hf _⟩⟩
  have hxor : zext32 (gfAdd (s.arg0.setWidth 8) (s.arg1.setWidth 8)) = s.arg0 ^^^ s.arg1 := by
    rw [gfAdd, zext32, BitVec.setWidth_xor, setWidth_fieldOperand h0, setWidth_fieldOperand h1]
  rw [exec_gfadd hf h0 h1, State.fieldResult, hxor]

/-- Settles O21: `GFMUL` completes with `GfMul` of the operands, which a zero operand decides before the tables are read. -/
theorem gfmulByTables : Obligations.GfmulByTables := by
  refine ⟨rfl, fun s hf => ⟨fun h0 h1 => ⟨fun hz => ?_, fun ha hb la lb v hla hlb hv => ?_⟩, runCommand_operands_range hf _⟩⟩
  · have hmul : gfMul s.rom (s.arg0.setWidth 8) (s.arg1.setWidth 8) = 0 := by
      obtain ha | hb := hz
      · rw [fieldOperand_zero ha, gfMul_zero_left]
      · rw [fieldOperand_zero hb, gfMul_zero_right]
    rw [exec_gfmul hf h0 h1, hmul]
    rfl
  · rw [← toNat_fieldOperand h0] at hla
    rw [← toNat_fieldOperand h1] at hlb
    rw [exec_gfmul hf h0 h1, gfMul_of_entries (fieldOperand_ne_zero h0 ha) (fieldOperand_ne_zero h1 hb) hla hlb hv]
    rfl

/-- Settles O22: `GFDIV` completes with `GfDiv` of the operands, whose test of the dividend comes first. -/
theorem gfdivByTables : Obligations.GfdivByTables := by
  refine ⟨rfl, fun s hf => ⟨fun h0 h1 => ⟨fun ha => ?_, fun ha hb => ?_, fun ha hb la lb v hla hlb hv => ?_⟩,
    runCommand_operands_range hf _⟩⟩
  · rw [exec_gfdiv hf h0 h1, fieldOperand_zero ha, gfDiv_zero_left]
    rfl
  · rw [exec_gfdiv hf h0 h1, fieldOperand_zero hb, gfDiv_zero_right (fieldOperand_ne_zero h0 ha)]
    rfl
  · rw [← toNat_fieldOperand h0] at hla
    rw [← toNat_fieldOperand h1] at hlb
    rw [exec_gfdiv hf h0 h1, gfDiv_of_entries (fieldOperand_ne_zero h0 ha) (fieldOperand_ne_zero h1 hb) hla hlb hv]
    rfl

/-- Settles O23: `GFINV` completes with `GfInv` of its operand; as `LOG[1]` is 0, the index of `GfDiv(1, a)` is that of R124. -/
theorem gfinvByTables : Obligations.GfinvByTables := by
  refine ⟨rfl, fun s hf ⟨hc, hrom⟩ => ⟨fun ha => ?_, fun hpos h0 la v hla hv => ?_, runCommand_operand_range hf _⟩⟩
  · rw [exec_gfinv hf (by rw [ha]; decide), fieldOperand_zero ha, gfInv, gfDiv_zero_right (by decide)]
    rfl
  · have ha : s.arg0.setWidth 8 ≠ 0 := fieldOperand_ne_zero h0 fun e => by rw [e] at hpos; exact absurd hpos (by decide)
    have hinv : gfInv s.rom (s.arg0.setWidth 8) = some v := by
      rw [← toNat_fieldOperand h0] at hla
      rw [hrom] at hla hv ⊢
      exact gfInv_ofCfg_of_entries hc ha hla hv
    rw [exec_gfinv hf h0, hinv]
    rfl

/-- Settles O24: `GFPOW` completes with the closed form of R125, which equals the loop. -/
theorem gfpowIsRepeatedMultiplication : Obligations.GfpowIsRepeatedMultiplication := by
  refine ⟨rfl, fun s hf ⟨hc, hrom⟩ => ⟨fun h0 => ?_, runCommand_operand_range hf _⟩⟩
  have hpow : gfPow s.rom (s.arg0.setWidth 8) s.arg1.toNat = gfPowLoop s.rom (s.arg0.setWidth 8) s.arg1.toNat := by
    rw [hrom, gfPow_ofCfg hc]
  rw [exec_gfpow hf h0, hpow]
  rfl

/-- Settles O25: `GFMUL` completes with the product by the tables, which is that of polynomials. -/
theorem gfmulIsThePolynomialProduct : Obligations.GfmulIsThePolynomialProduct := by
  intro s hf ⟨hc, hrom⟩ h0 h1
  have hmul : gfMul s.rom (s.arg0.setWidth 8) (s.arg1.setWidth 8) = polyMul s.cfg.poly (s.arg0.setWidth 8) (s.arg1.setWidth 8) := by
    rw [hrom, gfMul_ofCfg hc]
  rw [exec_gfmul hf h0 h1, hmul]
  rfl

end Sys2Proof.Machine
end

section
/-! SUPPORT. Matrix values as matrices over the residues modulo `POLY`: `MatMul` is the matrix product (41_matrix.md R152),
`MatIdentity` the identity (R151), so that the inverse of R158 is Mathlib's. -/

namespace Sys2Proof.Machine

/-- The n x m matrix of the residues of the elements of A. -/
noncomputable def Mat.toMatrix (c : Cfg) (A : Mat) (n m : Nat) : Matrix (Fin n) (Fin m) (AdjoinRoot (bvPoly c.poly)) :=
  Matrix.of fun i j => toRing c.poly (A.at i j)

@[simp] theorem Mat.toMatrix_apply (c : Cfg) (A : Mat) {n m : Nat} (i : Fin n) (j : Fin m) :
    A.toMatrix c n m i j = toRing c.poly (A.at i j) := rfl

theorem Mat.toMatrix_ofFn (c : Cfg) (n m : Nat) (f : Nat → Nat → Byte) :
    (Mat.ofFn n m f).toMatrix c n m = Matrix.of fun (i : Fin n) (j : Fin m) => toRing c.poly (f i j) := by
  ext i j
  rw [Mat.toMatrix_apply, Mat.at_ofFn f i.isLt j.isLt, Matrix.of_apply]

theorem toMatrix_matIdentity (c : Cfg) (n : Nat) : (matIdentity n).toMatrix c n n = 1 := by
  ext i j
  rw [matIdentity, Mat.toMatrix_ofFn, Matrix.of_apply, Matrix.one_apply]
  by_cases h : i = j
  · rw [if_pos (congrArg Fin.val h), if_pos h, toRing_one]
  · rw [if_neg (Fin.val_ne_of_ne h), if_neg h, toRing_zero]

theorem toRing_xorSum (poly : BitVec 9) (n : Nat) (f : Nat → Byte) :
    toRing poly (xorSum n f) = ∑ i : Fin n, toRing poly (f i) := by
  induction n with
  | zero => exact toRing_zero poly
  | succ n ih => rw [xorSum_succ, toRing_xor, ih, Fin.sum_univ_castSucc]; rfl

section

variable {c : Cfg} (h : c.WellFormed)
include h

theorem toRing_gfMul (a b : Byte) : toRing c.poly (gfMul (Tables.ofCfg c) a b) = toRing c.poly a * toRing c.poly b := by
  rw [gfMul_ofCfg h, toRing_polyMul h.degree]

/-- A matrix with all its elements is determined by its residues. -/
theorem Mat.toMatrix_inj {A B : Mat} {n m : Nat} (hA : A.wf) (hB : B.wf) (hAr : A.rows = n) (hAc : A.cols = m)
    (hBr : B.rows = n) (hBc : B.cols = m) : A.toMatrix c n m = B.toMatrix c n m ↔ A = B := by
  refine ⟨fun e => Mat.ext_at hA hB (hAr.trans hBr.symm) (hAc.trans hBc.symm) fun i j hi hj => ?_, fun e => by rw [e]⟩
  exact toRing_injective h.degree (congrFun (congrFun e ⟨i, hAr ▸ hi⟩) ⟨j, hAc ▸ hj⟩)

/-- `MatMul` is the product of matrices over the residues (R152). -/
theorem matMul_eq_ok_iff {A B X : Mat} {n k m : Nat} (hAr : A.rows = n) (hAc : A.cols = k) (hBr : B.rows = k) (hBc : B.cols = m)
    (hX : X.wf) (hXr : X.rows = n) (hXc : X.cols = m) :
    matMul (Tables.ofCfg c) A B = .ok X ↔ A.toMatrix c n k * B.toMatrix c k m = X.toMatrix c n m := by
  subst hAr hAc hBc
  have hprod : (Mat.ofFn A.rows B.cols fun r col => xorSum A.cols fun i => gfMul (Tables.ofCfg c) (A.at r i) (B.at i col)).toMatrix c
      A.rows B.cols = A.toMatrix c A.rows A.cols * B.toMatrix c A.cols B.cols := by
    rw [Mat.toMatrix_ofFn]
    ext i j
    simp only [Matrix.of_apply, toRing_xorSum, toRing_gfMul h, Matrix.mul_apply, Mat.toMatrix_apply]
  rw [matMul, if_neg (not_not.2 hBr.symm), Except.ok.injEq, ← hprod]
  exact (Mat.toMatrix_inj h (Mat.wf_ofFn _ _ _) hX rfl rfl hXr hXc).symm

/-- The inverse of a square matrix (R158) is the inverse over the residues, where one of the two products is enough. -/
theorem isInverse_iff {A X : Mat} {n : Nat} (hAr : A.rows = n) (hAc : A.cols = n) : IsInverse (Tables.ofCfg c) A X ↔
    (X.wf ∧ X.rows = n ∧ X.cols = n) ∧ A.toMatrix c n n * X.toMatrix c n n = 1 := by
  have hmul : X.rows = n → X.cols = n →
      (matMul (Tables.ofCfg c) A X = .ok (matIdentity n) ↔ A.toMatrix c n n * X.toMatrix c n n = 1) ∧
      (matMul (Tables.ofCfg c) X A = .ok (matIdentity n) ↔ X.toMatrix c n n * A.toMatrix c n n = 1) := fun hr hc => by
    rw [matMul_eq_ok_iff h hAr hAc hr hc (matIdentity_wf n) rfl rfl, matMul_eq_ok_iff h hr hc hAr hAc (matIdentity_wf n) rfl rfl,
      toMatrix_matIdentity]
    exact ⟨Iff.rfl, Iff.rfl⟩
  unfold IsInverse
  rw [hAr, hAc]
  constructor
  · rintro ⟨hX, hr, hc, hAX, -⟩
    obtain ⟨hleft, -⟩ := hmul hr hc
    exact ⟨⟨hX, hr, hc⟩, hleft.1 hAX⟩
  · rintro ⟨⟨hX, hr, hc⟩, hAX⟩
    obtain ⟨hleft, hright⟩ := hmul hr hc
    exact ⟨hX, hr, hc, hleft.2 hAX, hright.2 (mul_eq_one_comm.1 hAX)⟩

/-- A square matrix has at most one inverse. -/
theorem IsInverse.unique {A X Y : Mat} (hA : A.rows = A.cols) (hX : IsInverse (Tables.ofCfg c) A X) (hY : IsInverse (Tables.ofCfg c) A Y) :
    X = Y := by
  obtain ⟨⟨hXw, hXr, hXc⟩, hAX⟩ := (isInverse_iff h rfl hA.symm).1 hX
  obtain ⟨⟨hYw, hYr, hYc⟩, hAY⟩ := (isInverse_iff h rfl hA.symm).1 hY
  exact (Mat.toMatrix_inj h hXw hYw hXr hXc hYr hYc).1 (left_inv_eq_right_inv (mul_eq_one_comm.1 hAX) hAY)

end

end Sys2Proof.Machine
end

section
/-! SUPPORT. The Gauss-Jordan pipeline (41_matrix.md R157) answers the inverse, or there is none (R158).
A pass over column k makes that column a unit column and keeps the kernel of the work matrix, read as a matrix over the residues.
The kernel of A | I is that of all (u, w) with A u = -w; so when all n columns on the left are unit columns, the right half is
the inverse, and when no pivot is found, column k on the left depends on the columns before it and A has a nonzero kernel. -/

namespace Sys2Proof.Machine

open scoped Matrix

/-! ### One pass -/

/-- W' is W after the pass over column k with pivot row p, s being the inverse of the pivot: rows p and k exchanged,
row k scaled by s, row k subtracted from every other row. -/
structure PivotPass (t : Tables) {n : Nat} (k p : Fin n) (s : Byte) (W W' : Mat) : Prop where
  le : k ≤ p
  inv : gfMul t s (W.at p k) = 1
  rows : W'.rows = W.rows
  cols : W'.cols = W.cols
  pivotRow : ∀ j < W.cols, W'.at k j = gfMul t s (W.at p j)
  otherRow : ∀ r : Fin n, r ≠ k → ∀ j < W.cols,
    W'.at r j = W.at (Equiv.swap k p r) j ^^^ gfMul t (W.at (Equiv.swap k p r) k) (gfMul t s (W.at p j))

/-- Stage 3 exchanges two rows, or leaves the matrix when they are the same. -/
theorem at_swapRows {W : Mat} {n : Nat} (hn : W.rows = n) (k p r : Fin n) {j : Nat} (hj : j < W.cols) :
    (if p.val ≠ k.val then swapRows W p k else W).at r j = W.at (Equiv.swap k p r) j := by
  have hr : r.val < W.rows := hn ▸ r.isLt
  by_cases hpk : p = k
  · rw [if_neg (not_not.2 (congrArg Fin.val hpk)), hpk, Equiv.swap_self, Equiv.refl_apply]
  · rw [if_pos (Fin.val_ne_of_ne hpk), swapRows, Mat.at_ofFn _ hr hj, Equiv.swap_apply_def]
    simp only [Fin.ext_iff]
    split
    · rfl
    · split <;> rfl

@[simp] theorem scaleRow_rows (t : Tables) (V : Mat) (k : Nat) (s : Byte) : (scaleRow t V k s).rows = V.rows := rfl
@[simp] theorem scaleRow_cols (t : Tables) (V : Mat) (k : Nat) (s : Byte) : (scaleRow t V k s).cols = V.cols := rfl

/-- Stages 4 and 5: row k is scaled, then eliminated from the other rows; a zero factor eliminates nothing. -/
theorem at_eliminateColumn_scaleRow (t : Tables) (V : Mat) (s : Byte) {k r j : Nat} (hk : k < V.rows) (hkc : k < V.cols)
    (hr : r < V.rows) (hj : j < V.cols) : (eliminateColumn t (scaleRow t V k s) k).at r j =
      if r = k then gfMul t s (V.at k j) else V.at r j ^^^ gfMul t (V.at r k) (gfMul t s (V.at k j)) := by
  have hscale : ∀ i x, i < V.rows → x < V.cols → (scaleRow t V k s).at i x = if i = k then gfMul t s (V.at k x) else V.at i x :=
    fun i x hi hx => Mat.at_ofFn _ hi hx
  rw [eliminateColumn, scaleRow_rows, scaleRow_cols, Mat.at_ofFn _ hr hj, hscale r j hr hj, hscale r k hr hkc, hscale k j hk hj, if_pos rfl]
  by_cases hrk : r = k
  · rw [if_neg (fun hne => hne.1 hrk)]
    simp only [if_pos hrk]
  · simp only [if_neg hrk]
    by_cases h0 : V.at r k = 0
    · rw [if_neg (fun hne => hne.2 h0), h0, gfMul_zero_left]
      exact BitVec.xor_zero.symm
    · rw [if_pos ⟨hrk, h0⟩]

theorem gfInv_ofCfg {c : Cfg} (h : c.WellFormed) {a : Byte} (ha : a ≠ 0) :
    ∃ s, gfInv (Tables.ofCfg c) a = some s ∧ gfMul (Tables.ofCfg c) s a = 1 := gfDiv_ofCfg h 1 ha

/-- Everything the pass over column k can do. -/
theorem invertPass_cases {c : Cfg} (h : c.WellFormed) {W : Mat} {n : Nat} (hn : W.rows = n) (k : Fin n) (hk : k.val < W.cols) :
    (∃ p s W', invertPass (Tables.ofCfg c) n k W = .ok W' ∧ PivotPass (Tables.ofCfg c) k p s W W') ∨
    (invertPass (Tables.ofCfg c) n k W = .error .singularMatrix ∧ ∀ r : Fin n, k ≤ r → W.at r k = 0) := by
  unfold invertPass
  cases hp : findPivot W n k with
  | none => exact .inr ⟨rfl, fun r hr => findPivot_none hp r hr r.isLt⟩
  | some q =>
    obtain ⟨hq, hkq, hne, -⟩ := findPivot_some hp
    obtain ⟨p, rfl⟩ : ∃ p : Fin n, p.val = q := ⟨⟨q, hq⟩, rfl⟩
    obtain ⟨s, hs, hmul⟩ := gfInv_ofCfg h hne
    have hV := at_swapRows hn k p
    have hVr : (if p.val ≠ k.val then swapRows W p k else W).rows = W.rows := by split <;> rfl
    have hVc : (if p.val ≠ k.val then swapRows W p k else W).cols = W.cols := by split <;> rfl
    dsimp only
    generalize (if p.val ≠ k.val then swapRows W p k else W) = V at hV hVr hVc
    have hat := fun (r : Fin n) j (hj : j < W.cols) => at_eliminateColumn_scaleRow (Tables.ofCfg c) V s (k := k)
      (by omega) (by omega) (show r.val < V.rows by omega) (show j < V.cols by omega)
    have hVk : ∀ j < W.cols, V.at k j = W.at p j := fun j hj => by rw [hV k hj, Equiv.swap_apply_left]
    rw [hVk k hk, hs]
    refine .inl ⟨p, s, _, rfl, hkq, hmul, hVr, hVc, fun j hj => ?_, fun r hr j hj => ?_⟩
    · rw [hat k j hj, if_pos rfl, hVk j hj]
    · rw [hat r j hj, if_neg (Fin.val_ne_of_ne hr), hVk j hj, hV r hj, hV r hk]

section Pass

variable {c : Cfg} {n : Nat} {k p : Fin n} {s : Byte} {W W' : Mat} (hW : PivotPass (Tables.ofCfg c) k p s W W')
include hW

/-- The pass keeps the unit columns on the left of column k. -/
theorem PivotPass.keeps_unit_column {j : Nat} (hjk : j < k) (hj : j < W.cols) (hu : ∀ r : Fin n, W.at r j = if r.val = j then 1 else 0)
    (r : Fin n) : W'.at r j = if r.val = j then 1 else 0 := by
  have hkp : k.val ≤ p := hW.le
  have hpj : gfMul (Tables.ofCfg c) s (W.at p j) = 0 := by rw [hu p, if_neg (by omega), gfMul_zero_right]
  by_cases hr : r = k
  · rw [hr, hW.pivotRow j hj, hpj, if_neg (by omega)]
  · rw [hW.otherRow r hr j hj, hpj, gfMul_zero_right, hu]
    by_cases hrp : r = p
    · rw [hrp, Equiv.swap_apply_right, if_neg (by omega), if_neg (by omega)]
      rfl
    · rw [Equiv.swap_apply_of_ne_of_ne hr hrp]
      exact BitVec.xor_zero

variable (h : c.WellFormed)
include h

/-- The pass makes column k a unit column. -/
theorem PivotPass.unit_column (hk : k.val < W.cols) (r : Fin n) : W'.at r k = if r.val = k then 1 else 0 := by
  by_cases hr : r = k
  · rw [if_pos (congrArg Fin.val hr), hr, hW.pivotRow k hk, hW.inv]
  · rw [if_neg (Fin.val_ne_of_ne hr), hW.otherRow r hr k hk, hW.inv, gfMul_ofCfg h, polyMul_one h.degree]
    exact BitVec.xor_self

/-- Row k after the pass, applied to a vector. -/
theorem PivotPass.mulVec_pivotRow (y : Fin W.cols → AdjoinRoot (bvPoly c.poly)) :
    (W'.toMatrix c n W.cols *ᵥ y) k = toRing c.poly s * (W.toMatrix c n W.cols *ᵥ y) p := by
  have hrow : W'.toMatrix c n W.cols k = toRing c.poly s • W.toMatrix c n W.cols p := by
    ext j
    rw [Mat.toMatrix_apply, hW.pivotRow j j.isLt, toRing_gfMul h]
    rfl
  rw [Matrix.mulVec, hrow, smul_dotProduct]
  rfl

/-- Any other row after the pass, applied to a vector. -/
theorem PivotPass.mulVec_otherRow (y : Fin W.cols → AdjoinRoot (bvPoly c.poly)) {r : Fin n} (hr : r ≠ k) :
    (W'.toMatrix c n W.cols *ᵥ y) r = (W.toMatrix c n W.cols *ᵥ y) (Equiv.swap k p r) +
      toRing c.poly (W.at (Equiv.swap k p r) k) * toRing c.poly s * (W.toMatrix c n W.cols *ᵥ y) p := by
  have hrow : W'.toMatrix c n W.cols r = W.toMatrix c n W.cols (Equiv.swap k p r) +
      (toRing c.poly (W.at (Equiv.swap k p r) k) * toRing c.poly s) • W.toMatrix c n W.cols p := by
    ext j
    rw [Mat.toMatrix_apply, hW.otherRow r hr j j.isLt, toRing_xor, toRing_gfMul h, toRing_gfMul h, ← mul_assoc]
    rfl
  rw [Matrix.mulVec, hrow, add_dotProduct, smul_dotProduct]
  rfl

/-- The pass keeps the kernel: it exchanges rows, scales one by a unit, and adds multiples of it to the others. -/
theorem PivotPass.mulVec_eq_zero_iff {N : Nat} (hN : W.cols = N) (y : Fin N → AdjoinRoot (bvPoly c.poly)) :
    W'.toMatrix c n N *ᵥ y = 0 ↔ W.toMatrix c n N *ᵥ y = 0 := by
  subst hN
  constructor
  · intro h0
    have hp : (W.toMatrix c n W.cols *ᵥ y) p = 0 := by
      have hunit : toRing c.poly (W.at p k) * toRing c.poly s = 1 := by
        rw [mul_comm, ← toRing_gfMul h, hW.inv, toRing_one]
      rw [← one_mul ((W.toMatrix c n W.cols *ᵥ y) p), ← hunit, mul_assoc, ← hW.mulVec_pivotRow h, h0]
      exact mul_zero _
    ext q
    by_cases hq : Equiv.swap k p q = k
    · rw [(Equiv.swap_apply_eq_iff.1 hq).trans (Equiv.swap_apply_left k p)]
      exact hp
    · have hrow := hW.mulVec_otherRow h y hq
      rw [Equiv.swap_apply_self, hp, mul_zero, add_zero, h0] at hrow
      exact hrow.symm
  · intro h0
    ext r
    by_cases hr : r = k
    · rw [hr, hW.mulVec_pivotRow h, h0]
      exact mul_zero _
    · rw [hW.mulVec_otherRow h y hr, h0]
      exact (zero_add _).trans (mul_zero _)

end Pass

/-! ### All passes -/

/-- The n x N work matrix W before the pass over column k: the columns below k are unit columns, and the kernel is that of W0. -/
structure Reduced (c : Cfg) (n N : Nat) (W0 W : Mat) (k : Nat) : Prop where
  rows : W.rows = n
  cols : W.cols = N
  unit : ∀ j < k, ∀ r : Fin n, W.at r j = if r.val = j then 1 else 0
  kernel : ∀ y, W.toMatrix c n N *ᵥ y = 0 ↔ W0.toMatrix c n N *ᵥ y = 0

section Passes

variable {c : Cfg} (h : c.WellFormed) {n N : Nat} (hn : n ≤ N) {W0 W : Mat}
include h hn

theorem Reduced.pass {W' : Mat} {k p : Fin n} {s : Byte} (hW : Reduced c n N W0 W k) (hp : PivotPass (Tables.ofCfg c) k p s W W') :
    Reduced c n N W0 W' (k + 1) where
  rows := hp.rows.trans hW.rows
  cols := hp.cols.trans hW.cols
  unit j hj r := by
    have hcols := hW.cols
    obtain hlt | rfl := Nat.lt_succ_iff_lt_or_eq.1 hj
    · exact hp.keeps_unit_column hlt (by omega) (hW.unit j hlt) r
    · exact hp.unit_column h (by omega) r
  kernel y := (hp.mulVec_eq_zero_iff h hW.cols y).trans (hW.kernel y)

/-- The passes over the columns from k on reduce all n columns, or stop at a column that is zero from its own row on. -/
theorem Reduced.passes {m k : Nat} (hkm : k + m = n) (hW : Reduced c n N W0 W k) :
    (∃ X, invertPasses (Tables.ofCfg c) n (List.range' k m) W = .ok X ∧ Reduced c n N W0 X n) ∨
    (invertPasses (Tables.ofCfg c) n (List.range' k m) W = .error .singularMatrix ∧
      ∃ (j : Fin n) (V : Mat), Reduced c n N W0 V j ∧ ∀ r, j ≤ r → V.at r j = 0) := by
  induction m generalizing k W with
  | zero =>
    obtain rfl : k = n := hkm
    exact .inl ⟨W, rfl, hW⟩
  | succ m ih =>
    have hkN : k < W.cols := by have := hW.cols; omega
    rw [List.range'_succ, invertPasses]
    obtain ⟨p, s, W', hpass, hp⟩ | ⟨hpass, hzero⟩ := invertPass_cases h hW.rows ⟨k, by omega⟩ hkN
    · rw [hpass]
      exact ih (by omega) (hW.pass h hn hp)
    · rw [hpass]
      exact .inr ⟨rfl, ⟨k, by omega⟩, W, hW, hzero⟩

end Passes

/-! ### The inverse -/

/-- The n columns of the work matrix from column n on (R157, stage 6). -/
def Mat.rightHalf (W : Mat) (n : Nat) : Mat := Mat.ofFn n n fun i j => W.at i (n + j)

/-- The work matrix A | I (R157, stage 1). -/
def Mat.withIdentity (A : Mat) (n : Nat) : Mat :=
  Mat.ofFn n (n + n) fun i j => if j < n then A.at i j else (matIdentity n).at i (j - n)

theorem matInvert_of_square (t : Tables) {A : Mat} {n : Nat} (hr : A.rows = n) (hc : A.cols = n) :
    matInvert t A = invertPasses t n (List.range n) (A.withIdentity n) >>= fun W => .ok (W.rightHalf n) := by
  have haug : matAugment A (matIdentity n) = .ok (A.withIdentity n) := by
    rw [matAugment, matIdentity_rows, matIdentity_cols, if_neg (not_not.2 hr), Mat.withIdentity, hr, hc]
  unfold matInvert
  rw [if_neg (not_not.2 (hr.trans hc.symm)), hr]
  dsimp only
  rw [haug, bind_ok_eq]
  cases hW : invertPasses t n (List.range n) (A.withIdentity n) with
  | error e => rfl
  | ok W =>
    obtain ⟨hWr, hWc⟩ := invertPasses_shape hW
    have hrange : 0 ≤ n ∧ n ≤ W.rows ∧ n ≤ 2 * n ∧ 2 * n ≤ W.cols := by
      simp only [hWr, hWc, Mat.withIdentity, Mat.rows_ofFn, Mat.cols_ofFn]
      omega
    have hcols : 2 * n - n = n := by omega
    simp only [bind_ok_eq, matSub, if_pos hrange, hcols, Nat.sub_zero, Nat.zero_add, Mat.rightHalf]

theorem Mat.mulVec_append (c : Cfg) (W : Mat) {n : Nat} (u w : Fin n → AdjoinRoot (bvPoly c.poly)) :
    W.toMatrix c n (n + n) *ᵥ Fin.append u w = W.toMatrix c n n *ᵥ u + (W.rightHalf n).toMatrix c n n *ᵥ w := by
  ext r
  simp only [Matrix.mulVec, dotProduct, Fin.sum_univ_add, Fin.append_left, Fin.append_right, Pi.add_apply, Mat.toMatrix_apply, Mat.rightHalf,
    Mat.toMatrix_ofFn, Matrix.of_apply, Fin.val_castAdd, Fin.val_natAdd]

theorem Mat.withIdentity_mulVec_append (c : Cfg) (A : Mat) {n : Nat} (u w : Fin n → AdjoinRoot (bvPoly c.poly)) :
    (A.withIdentity n).toMatrix c n (n + n) *ᵥ Fin.append u w = A.toMatrix c n n *ᵥ u + w := by
  have hleft : (A.withIdentity n).toMatrix c n n = A.toMatrix c n n := by
    ext i j
    rw [Mat.toMatrix_apply, Mat.withIdentity, Mat.at_ofFn _ i.isLt (by omega), if_pos j.isLt, Mat.toMatrix_apply]
  have hright : ((A.withIdentity n).rightHalf n).toMatrix c n n = 1 := by
    rw [← toMatrix_matIdentity]
    ext i j
    rw [Mat.toMatrix_apply, Mat.rightHalf, Mat.at_ofFn _ i.isLt j.isLt, Mat.withIdentity, Mat.at_ofFn _ i.isLt (by omega),
      if_neg (by omega), Nat.add_sub_cancel_left, Mat.toMatrix_apply]
  rw [Mat.mulVec_append, hleft, hright, Matrix.one_mulVec]

/-- With all columns on the left reduced, the kernel of I | X is that of A | I: X is the right inverse of A. -/
theorem Reduced.mul_rightHalf {c : Cfg} {n : Nat} {A W : Mat} (hW : Reduced c n (n + n) (A.withIdentity n) W n) :
    A.toMatrix c n n * (W.rightHalf n).toMatrix c n n = 1 := by
  have hleft : W.toMatrix c n n = 1 := by
    rw [← toMatrix_matIdentity]
    ext i j
    rw [Mat.toMatrix_apply, hW.unit j j.isLt i, Mat.toMatrix_apply, matIdentity_at i.isLt j.isLt]
  refine Matrix.ext_iff_mulVec.2 fun w => ?_
  have hker := (hW.kernel (Fin.append (-((W.rightHalf n).toMatrix c n n *ᵥ w)) w)).1
    (by rw [Mat.mulVec_append, hleft, Matrix.one_mulVec, neg_add_cancel])
  rw [Mat.withIdentity_mulVec_append, Matrix.mulVec_neg, neg_add_eq_zero] at hker
  rw [← Matrix.mulVec_mulVec, hker, Matrix.one_mulVec]

/-- Without a pivot, column k on the left is the combination of the unit columns before it: A has a kernel vector with entry 1 at k. -/
theorem Reduced.exists_kernel_vector {c : Cfg} {n : Nat} {A W : Mat} {k : Fin n} (hW : Reduced c n (n + n) (A.withIdentity n) W k)
    (hzero : ∀ r, k ≤ r → W.at r k = 0) : ∃ v : Fin n → AdjoinRoot (bvPoly c.poly), v k = 1 ∧ A.toMatrix c n n *ᵥ v = 0 := by
  have hcol : ∀ r, k ≤ r → (W.toMatrix c n n).col k r = 0 := fun r hr =>
    (congrArg (toRing c.poly) (hzero r hr)).trans (toRing_zero _)
  have hfix : W.toMatrix c n n *ᵥ (W.toMatrix c n n).col k = (1 : Matrix (Fin n) (Fin n) _) *ᵥ (W.toMatrix c n n).col k := by
    ext r
    simp only [Matrix.mulVec, dotProduct]
    refine Finset.sum_congr rfl fun j _ => ?_
    obtain hj | hj := lt_or_ge j k
    · rw [← toMatrix_matIdentity, Mat.toMatrix_apply, hW.unit j hj r, Mat.toMatrix_apply, matIdentity_at r.isLt j.isLt]
    · rw [hcol j hj, mul_zero, mul_zero]
  refine ⟨Pi.single k 1 - (W.toMatrix c n n).col k, ?_, ?_⟩
  · rw [Pi.sub_apply, Pi.single_eq_same, hcol k le_rfl, sub_zero]
  · have hker := (hW.kernel (Fin.append (Pi.single k 1 - (W.toMatrix c n n).col k) 0)).1
      (by rw [Mat.mulVec_append, Matrix.mulVec_sub, Matrix.mulVec_single_one, hfix, Matrix.one_mulVec, sub_self, Matrix.mulVec_zero, add_zero])
    rwa [Mat.withIdentity_mulVec_append, add_zero] at hker

/-- Everything `MatInvert` can answer for a square matrix (R158): the inverse, or `SingularMatrix` when there is none. -/
theorem matInvert_cases {c : Cfg} (h : c.WellFormed) {A : Mat} (hA : A.rows = A.cols) :
    (∃ X, matInvert (Tables.ofCfg c) A = .ok X ∧ IsInverse (Tables.ofCfg c) A X) ∨
    (matInvert (Tables.ofCfg c) A = .error .singularMatrix ∧ ¬ ∃ X, IsInverse (Tables.ofCfg c) A X) := by
  have hstart : Reduced c A.rows (A.rows + A.rows) (A.withIdentity A.rows) (A.withIdentity A.rows) 0 :=
    ⟨rfl, rfl, fun j hj => absurd hj j.not_lt_zero, fun y => Iff.rfl⟩
  rw [matInvert_of_square _ rfl hA.symm, List.range_eq_range']
  obtain ⟨W, hok, hW⟩ | ⟨herr, k, W, hW, hzero⟩ := hstart.passes h (Nat.le_add_left _ _) (Nat.zero_add _)
  · rw [hok]
    exact .inl ⟨_, rfl, (isInverse_iff h rfl hA.symm).2 ⟨⟨Mat.wf_ofFn _ _ _, rfl, rfl⟩, hW.mul_rightHalf⟩⟩
  · rw [herr]
    refine .inr ⟨rfl, fun ⟨X, hX⟩ => ?_⟩
    obtain ⟨-, hAX⟩ := (isInverse_iff h rfl hA.symm).1 hX
    obtain ⟨v, hvk, hv⟩ := hW.exists_kernel_vector hzero
    have hv0 : v = 0 := by
      rw [← Matrix.one_mulVec v, ← mul_eq_one_comm.1 hAX, ← Matrix.mulVec_mulVec, hv, Matrix.mulVec_zero]
    have h10 : toRing c.poly 1 = toRing c.poly 0 := by
      rw [toRing_one, toRing_zero, ← hvk, hv0]
      rfl
    exact absurd (toRing_injective h.degree h10) (by decide)

/-- `MatInvert` answers X exactly when X is the inverse. -/
theorem matInvert_eq_ok_iff {c : Cfg} (h : c.WellFormed) {A X : Mat} (hA : A.rows = A.cols) :
    matInvert (Tables.ofCfg c) A = .ok X ↔ IsInverse (Tables.ofCfg c) A X := by
  obtain ⟨Y, hok, hY⟩ | ⟨herr, hno⟩ := matInvert_cases h hA
  · rw [hok, Except.ok.injEq]
    exact ⟨fun e => e ▸ hY, hY.unique h hA⟩
  · rw [herr]
    exact ⟨nofun, fun hX => absurd ⟨X, hX⟩ hno⟩

/-- `MatInvert` raises `SingularMatrix` exactly when there is no inverse. -/
theorem matInvert_eq_singular_iff {c : Cfg} (h : c.WellFormed) {A : Mat} (hA : A.rows = A.cols) :
    matInvert (Tables.ofCfg c) A = .error .singularMatrix ↔ ¬ ∃ X, IsInverse (Tables.ofCfg c) A X := by
  obtain ⟨Y, hok, hY⟩ | ⟨herr, hno⟩ := matInvert_cases h hA
  · rw [hok]
    exact ⟨nofun, fun hn => absurd ⟨Y, hY⟩ hn⟩
  · exact ⟨fun _ => hno, fun _ => herr⟩

/-- Settles O35: an answer is the inverse, and `SingularMatrix` says that there is none. -/
theorem pipelineInverts : Obligations.PipelineInverts := by
  intro c A h _ hA
  refine ⟨fun X hX => ?_, matInvert_eq_singular_iff h hA⟩
  obtain ⟨-, -, -, hAX, hXA⟩ := (matInvert_eq_ok_iff h hA).1 hX
  exact ⟨hAX, hXA⟩

end Sys2Proof.Machine
end

section
/-! SUPPORT. Settles 41_matrix.md: the commands of the matrix engine (R150 to R156). -/

namespace Sys2Proof.Machine

/-! ### Sources (R159) -/

theorem SourceIs.source {s : State} {ma : SrcId} {A : Mat} (h : SourceIs s ma A) : s.source ma = .ok A :=
  (if_pos (decide_eq_true h.id_le)).trans (State.src_eq_ok_iff.2 h)

theorem State.sources_of_legal (s : State) {ma mb : SrcId} (ha : ma.val ≤ 4) (hb : mb.val ≤ 4) :
    s.sources ma mb = s.src ma >>= fun A => s.src mb >>= fun B => .ok (A, B) := by
  have hlegal : (SrcId.legal ma && SrcId.legal mb) = true := by simp only [SrcId.legal, ha, hb, decide_true, Bool.and_self]
  rw [State.sources, if_pos hlegal]
  cases s.src ma with
  | error e => rfl
  | ok A => cases s.src mb <;> rfl

theorem SourceIs.sources {s : State} {ma mb : SrcId} {A B : Mat} (hA : SourceIs s ma A) (hB : SourceIs s mb B) :
    s.sources ma mb = .ok (A, B) := by
  rw [s.sources_of_legal hA.id_le hB.id_le, State.src_eq_ok_iff.2 hA, State.src_eq_ok_iff.2 hB]
  rfl

section Unconfigured

variable {s : State} (h : s.coder = none) {ma mb : SrcId}
include h

theorem State.src_coder_unconfigured (h4 : ma.val = 4) : s.src ma = .error .badState := by
  rw [show ma = 4 from Fin.ext h4, State.src_unconfigured h]

theorem State.source_unconfigured (h4 : ma.val = 4) : s.source ma = .error .badState :=
  (if_pos (decide_eq_true h4.le)).trans (State.src_coder_unconfigured h h4)

/-- A legal pair of sources that names `CM` gives `BadState`; the other source is a buffer, or `CM` again. -/
theorem State.sources_unconfigured (ha : ma.val ≤ 4) (hb : mb.val ≤ 4) (h4 : ma.val = 4 ∨ mb.val = 4) :
    s.sources ma mb = .error .badState := by
  rw [s.sources_of_legal ha hb]
  obtain ha4 | ha3 := Nat.eq_or_lt_of_le ha
  · rw [State.src_coder_unconfigured h ha4, bind_error_eq]
  · have hA : s.src ma = .ok s.mats[(⟨ma.val, ha3⟩ : Fin 4)] := State.src_eq_ok_iff.2 (.inl ⟨⟨ma.val, ha3⟩, rfl, rfl⟩)
    rw [hA, bind_ok_eq, State.src_coder_unconfigured h (h4.resolve_left ha3.ne), bind_error_eq]

end Unconfigured

/-! ### Completions -/

section Completions

variable {s : State} (hf : s.fatal = false)
include hf

theorem runCommand_error (e : Err) : runCommand s (.error e) = .next { s with err := e.code, busy := false } :=
  runCommand_ready hf _

theorem runCommand_dst (md : DstId) {X : Mat} (hr : X.rows ≤ 256) (hc : X.cols ≤ 512) :
    runCommand s (s.dst md X) = .next { s with mats := s.mats.set md.val X, err := 0, busy := false } := by
  rw [State.dst_fits s md hr hc]
  exact runCommand_ready hf _

theorem runCommand_dst_range (md : DstId) {X : Mat} (h : X.rows > 256 ∨ X.cols > 512) :
    runCommand s (s.dst md X) = .next { s with err := 0x81, busy := false } := by
  rw [State.dst, if_pos h]
  exact runCommand_error hf _

end Completions

/-! ### The rules of the commands -/

theorem exec_mnew (s : State) (md : DstId) : exec (.mnew md) s = runCommand s
    (raiseIf (decide (s.arg0.toNat > 256 ∨ s.arg1.toNat > 512)) .operandRange >>= fun _ => s.dst md (matNew s.arg0.toNat s.arg1.toNat)) := rfl

theorem exec_mident (s : State) (md : DstId) : exec (.mident md) s = runCommand s
    (raiseIf (decide (s.arg0.toNat > 256)) .operandRange >>= fun _ => s.dst md (matIdentity s.arg0.toNat)) := rfl

theorem exec_mmul (s : State) (md : DstId) (ma mb : SrcId) : exec (.mmul md ma mb) s = runCommand s
    (s.sources ma mb >>= fun AB => matMul s.rom AB.1 AB.2 >>= s.dst md) := rfl

theorem exec_msub (s : State) (md : DstId) (ma : SrcId) : exec (.msub md ma) s = runCommand s
    (s.source ma >>= fun A => matSub A s.arg0.toNat s.arg1.toNat s.arg2.toNat s.arg3.toNat >>= s.dst md) := rfl

theorem exec_maug (s : State) (md : DstId) (ma mb : SrcId) : exec (.maug md ma mb) s = runCommand s
    (s.sources ma mb >>= fun AB => matAugment AB.1 AB.2 >>= s.dst md) := rfl

theorem exec_minv (s : State) (md : DstId) (ma : SrcId) : exec (.minv md ma) s = runCommand s
    (s.source ma >>= fun A => matInvert s.rom A >>= s.dst md) := rfl

theorem exec_missq (s : State) (ma : SrcId) : exec (.missq ma) s = runCommand s
    (s.source ma >>= fun A => .ok (s.setRes0 (if matIsSquare A then 1 else 0))) := rfl

/-! ### What the matrix functions answer -/

theorem matMul_of_eq (t : Tables) {A B : Mat} (h : A.cols = B.rows) : matMul t A B =
    .ok (Mat.ofFn A.rows B.cols fun r c => xorSum A.cols fun i => gfMul t (A.at r i) (B.at i c)) := if_neg (not_not.2 h)

theorem matMul_of_ne (t : Tables) {A B : Mat} (h : A.cols ≠ B.rows) : matMul t A B = .error .dimensionMismatch := if_pos h

/-- With equal row counts a column below A.cols of the concatenation is one of A, and column A.cols + c is column c of B. -/
theorem matAugment_of_eq {A B : Mat} (h : A.rows = B.rows) : ∃ X, matAugment A B = .ok X ∧
    X.wf ∧ X.rows = A.rows ∧ X.cols = A.cols + B.cols ∧ (∀ r c, r < A.rows → c < A.cols → X.at r c = A.at r c) ∧
    (∀ r c, r < A.rows → c < B.cols → X.at r (A.cols + c) = B.at r c) := by
  refine ⟨_, if_neg (not_not.2 h), Mat.wf_ofFn _ _ _, rfl, rfl, fun r c hr hc => ?_, fun r c hr hc => ?_⟩
  · rw [Mat.at_ofFn _ hr (Nat.lt_add_right _ hc), if_pos hc]
  · rw [Mat.at_ofFn _ hr (Nat.add_lt_add_left hc _), if_neg (by omega), Nat.add_sub_cancel_left]

theorem matAugment_of_ne {A B : Mat} (h : A.rows ≠ B.rows) : matAugment A B = .error .dimensionMismatch := if_pos h

theorem matSub_of_range {A : Mat} {r0 r1 c0 c1 : Nat} (h : r0 ≤ r1 ∧ r1 ≤ A.rows ∧ c0 ≤ c1 ∧ c1 ≤ A.cols) :
    matSub A r0 r1 c0 c1 = .ok (Mat.ofFn (r1 - r0) (c1 - c0) fun i j => A.at (r0 + i) (c0 + j)) := if_pos h

theorem matSub_of_not_range {A : Mat} {r0 r1 c0 c1 : Nat} (h : r0 > r1 ∨ r1 > A.rows ∨ c0 > c1 ∨ c1 > A.cols) :
    matSub A r0 r1 c0 c1 = .error .operandRange := if_neg (by omega)

theorem matInvert_of_not_square (t : Tables) {A : Mat} (h : A.rows ≠ A.cols) : matInvert t A = .error .notSquare := by
  rw [matInvert, if_pos h]
  rfl

/-! ### The command words -/

/-- The word of a command as a number, opcode and matrix fields at their places (30_encoding.md R90). -/
theorem commandWord_eq_ofNat {opc n : Nat} {md : DstId} {ma mb : SrcId}
    (h : opc + md.val * 0x100 + ma.val * 0x1000 + mb.val * 0x10000 = n) : commandWord opc md ma mb = BitVec.ofNat 32 n := by
  rw [← h]
  simp only [commandWord, Nat.reducePow]

/-! ### The statements -/

/-- Settles O29: within the limits the range check passes and the zero matrix fits the destination. -/
theorem mnewZeroFills : Obligations.MnewZeroFills := by
  refine ⟨fun _ => commandWord_eq_ofNat (by simp [Instr.opcode]),
    fun s md hf => ⟨fun h0 h1 => ⟨matNew s.arg0.toNat s.arg1.toNat, matNew_wf _ _, rfl, rfl, fun r c _ _ => matNew_at _ _ r c, ?_⟩,
      fun h => ?_⟩⟩
  · rw [exec_mnew, decide_eq_false (by omega), raiseIf_false, bind_ok_eq]
    exact runCommand_dst hf md h0 h1
  · rw [exec_mnew, decide_eq_true h, raiseIf_true, bind_error_eq]
    exact runCommand_error hf _

/-- Settles O30: within the limit the range check passes and the identity fits the destination. -/
theorem midentBuildsTheIdentity : Obligations.MidentBuildsTheIdentity := by
  refine ⟨fun _ => commandWord_eq_ofNat (by simp [Instr.opcode]),
    fun s md hf => ⟨fun h0 => ⟨matIdentity s.arg0.toNat, matIdentity_wf _, rfl, rfl, fun r c hr hc => matIdentity_at hr hc, ?_⟩,
      fun h => ?_⟩⟩
  · rw [exec_mident, decide_eq_false (by omega), raiseIf_false, bind_ok_eq]
    exact runCommand_dst hf md h0 (by rw [matIdentity_cols]; omega)
  · rw [exec_mident, decide_eq_true h, raiseIf_true, bind_error_eq]
    exact runCommand_error hf _

/-- Settles O31: the product is computed from the sources before the destination is written. -/
theorem mmulIsTheProduct : Obligations.MmulIsTheProduct := by
  refine ⟨fun _ _ _ => commandWord_eq_ofNat (by simp [Instr.opcode]),
    fun s md ma mb hf => ⟨fun hc ha hb h4 => ?_, fun A B hA hB hr hc => ⟨fun hd => ?_, fun hd => ?_⟩⟩⟩
  · rw [exec_mmul, State.sources_unconfigured hc ha hb h4, bind_error_eq]
    exact runCommand_error hf _
  · refine ⟨_, Mat.wf_ofFn _ _ _, rfl, rfl, fun r c hr hc => Mat.at_ofFn _ hr hc, ?_⟩
    rw [exec_mmul, hA.sources hB, bind_ok_eq, matMul_of_eq _ hd, bind_ok_eq]
    exact runCommand_dst hf md hr hc
  · rw [exec_mmul, hA.sources hB, bind_ok_eq, matMul_of_ne _ hd, bind_error_eq]
    exact runCommand_error hf _

/-- Settles O32: a legal range is no larger than its source, so it fits the destination. -/
theorem msubExtractsTheRange : Obligations.MsubExtractsTheRange := by
  refine ⟨fun _ _ => commandWord_eq_ofNat (by simp [Instr.opcode]),
    fun s md ma hf => ⟨fun hc h4 => ?_, fun A hA hr hc => ⟨fun hr0 hr1 hc0 hc1 => ?_, fun hrange => ?_⟩⟩⟩
  · rw [exec_msub, State.source_unconfigured hc h4, bind_error_eq]
    exact runCommand_error hf _
  · refine ⟨_, Mat.wf_ofFn _ _ _, rfl, rfl, fun r c hr hc => Mat.at_ofFn _ hr hc, ?_⟩
    rw [exec_msub, hA.source, bind_ok_eq, matSub_of_range ⟨hr0, hr1, hc0, hc1⟩, bind_ok_eq]
    exact runCommand_dst hf md ((Nat.sub_le _ _).trans (hr1.trans hr)) ((Nat.sub_le _ _).trans (hc1.trans hc))
  · rw [exec_msub, hA.source, bind_ok_eq, matSub_of_not_range hrange, bind_error_eq]
    exact runCommand_error hf _

/-- Settles O33: the row counts are compared before the destination takes the concatenation, which may have too many columns. -/
theorem maugConcatenates : Obligations.MaugConcatenates := by
  refine ⟨fun _ _ _ => commandWord_eq_ofNat (by simp [Instr.opcode]),
    fun s md ma mb hf => ⟨fun hc ha hb h4 => ?_, fun A B hA hB hr =>
      ⟨fun hd hc => ?_, fun hd => ?_, fun hd hc => ?_⟩⟩⟩
  · rw [exec_maug, State.sources_unconfigured hc ha hb h4, bind_error_eq]
    exact runCommand_error hf _
  · obtain ⟨X, haug, hX, hXr, hXc, hleft, hright⟩ := matAugment_of_eq hd
    refine ⟨X, hX, hXr, hXc, hleft, hright, ?_⟩
    rw [exec_maug, hA.sources hB, bind_ok_eq, haug, bind_ok_eq]
    exact runCommand_dst hf md (hXr ▸ hr) (hXc ▸ hc)
  · rw [exec_maug, hA.sources hB, bind_ok_eq, matAugment_of_ne hd, bind_error_eq]
    exact runCommand_error hf _
  · obtain ⟨X, haug, -, -, hXc, -, -⟩ := matAugment_of_eq hd
    rw [exec_maug, hA.sources hB, bind_ok_eq, haug, bind_ok_eq]
    exact runCommand_dst_range hf md (.inr (hXc ▸ hc))

/-- Settles O34: the pipeline answers the one inverse or raises `SingularMatrix`, and an inverse has the shape of its matrix,
which fits the destination. -/
theorem minvLeavesTheInverse : Obligations.MinvLeavesTheInverse := by
  refine ⟨fun _ _ => commandWord_eq_ofNat (by simp [Instr.opcode]),
    fun s md ma hf => ⟨fun hc h4 => ?_, fun A ⟨hcfg, hrom⟩ hA _ hr =>
      ⟨fun hn => ?_, fun X hn hX => ?_, fun hn hno => ?_⟩⟩⟩
  · rw [exec_minv, State.source_unconfigured hc h4, bind_error_eq]
    exact runCommand_error hf _
  · rw [exec_minv, hA.source, bind_ok_eq, matInvert_of_not_square _ hn, bind_error_eq]
    exact runCommand_error hf _
  · have hinv : matInvert s.rom A = .ok X := by
      rw [hrom] at hX ⊢
      exact (matInvert_eq_ok_iff hcfg hn).2 hX
    obtain ⟨-, hXr, hXc, -, -⟩ := hX
    rw [exec_minv, hA.source, bind_ok_eq, hinv, bind_ok_eq]
    exact runCommand_dst hf md (by omega) (by omega)
  · have hinv : matInvert s.rom A = .error .singularMatrix := by
      rw [hrom] at hno ⊢
      exact (matInvert_eq_singular_iff hcfg hn).2 hno
    rw [exec_minv, hA.source, bind_ok_eq, hinv, bind_error_eq]
    exact runCommand_error hf _

/-- Settles O36: the result is the comparison of the two dimensions. -/
theorem missqTestsSquareness : Obligations.MissqTestsSquareness := by
  refine ⟨fun _ => commandWord_eq_ofNat (by simp [Instr.opcode]),
    fun s ma hf => ⟨fun hc h4 => ?_, fun A hA => ⟨fun hn => ?_, fun hn => ?_⟩⟩⟩
  · rw [exec_missq, State.source_unconfigured hc h4, bind_error_eq]
    exact runCommand_error hf _
  · rw [exec_missq, hA.source, bind_ok_eq, matIsSquare, if_pos (beq_iff_eq.2 hn)]
    exact runCommand_ready hf _
  · rw [exec_missq, hA.source, bind_ok_eq, matIsSquare, if_neg (beq_iff_eq.not.2 hn)]
    exact runCommand_ready hf _

end Sys2Proof.Machine
end

section
/-! SUPPORT. Invertible matrices over the residues modulo `POLY`: every residue is that of a byte and every nonzero byte has an inverse, so
`MatInvert` answers for every unit (41_matrix.md R158), and a Vandermonde matrix on distinct points is a unit (42_builder.md R192). -/

namespace Sys2Proof.Machine

open Polynomial in
/-- Every residue is that of a byte: the residue of X is that of the byte 2, and sums and products of residues of bytes are such again. -/
theorem toRing_surjective {poly : BitVec 9} (hp : poly.getLsbD 8 = true) : Function.Surjective (toRing poly) := by
  have hX : AdjoinRoot.mk (bvPoly poly) X = toRing poly 2 := by
    refine congrArg (AdjoinRoot.mk (bvPoly poly)) ?_
    ext n
    rw [bvPoly_coeff, coeff_X, show (2 : Byte) = BitVec.twoPow 8 1 from rfl, BitVec.getLsbD_twoPow]
    simp
  intro x
  obtain ⟨p, rfl⟩ := AdjoinRoot.mk_surjective x
  induction p using Polynomial.induction_on with
  | C a =>
    obtain rfl | rfl : a = 0 ∨ a = 1 := (by decide : ∀ a : ZMod 2, a = 0 ∨ a = 1) a
    · exact ⟨0, by rw [toRing_zero, map_zero, map_zero]⟩
    · exact ⟨1, by rw [toRing_one, map_one, map_one]⟩
  | add p q ihp ihq =>
    obtain ⟨a, ha⟩ := ihp
    obtain ⟨b, hb⟩ := ihq
    exact ⟨a ^^^ b, by rw [toRing_xor, ha, hb, map_add]⟩
  | monomial n a ih =>
    obtain ⟨b, hb⟩ := ih
    exact ⟨polyMul poly b 2, by rw [toRing_polyMul hp, hb, ← hX, ← map_mul, pow_succ, mul_assoc]⟩

section

variable {c : Cfg} (h : c.WellFormed)
include h

/-- Every matrix over the residues is that of a matrix value. -/
theorem Mat.exists_toMatrix_eq {n m : Nat} (M : Matrix (Fin n) (Fin m) (AdjoinRoot (bvPoly c.poly))) :
    ∃ X : Mat, (X.wf ∧ X.rows = n ∧ X.cols = m) ∧ X.toMatrix c n m = M := by
  choose f hf using fun i j => toRing_surjective h.degree (M i j)
  refine ⟨Mat.ofFn n m fun i j => if hij : i < n ∧ j < m then f ⟨i, hij.1⟩ ⟨j, hij.2⟩ else 0, ⟨Mat.wf_ofFn _ _ _, rfl, rfl⟩, ?_⟩
  rw [Mat.toMatrix_ofFn]
  ext i j
  rw [Matrix.of_apply, dif_pos ⟨i.isLt, j.isLt⟩, hf]

/-- A matrix that is a unit over the residues has an inverse, and `MatInvert` answers it. -/
theorem matInvert_of_isUnit {A : Mat} {n : Nat} (hr : A.rows = n) (hc : A.cols = n) (hA : IsUnit (A.toMatrix c n n)) :
    ∃ X, matInvert (Tables.ofCfg c) A = .ok X := by
  obtain ⟨M, hM⟩ := hA.exists_right_inv
  obtain ⟨X, hX, hXM⟩ := Mat.exists_toMatrix_eq h M
  exact ⟨X, (matInvert_eq_ok_iff h (hr.trans hc.symm)).2 ((isInverse_iff h hr hc).2 ⟨hX, by rw [hXM, hM]⟩)⟩

theorem isUnit_toMatrix_of_matInvert {A X : Mat} {n : Nat} (hr : A.rows = n) (hc : A.cols = n)
    (hX : matInvert (Tables.ofCfg c) A = .ok X) : IsUnit (X.toMatrix c n n) := by
  obtain ⟨-, hAX⟩ := (isInverse_iff h hr hc).1 ((matInvert_eq_ok_iff h (hr.trans hc.symm)).1 hX)
  exact IsUnit.of_mul_eq_one_right _ hAX

/-- The difference of two distinct bytes is a unit. -/
theorem isUnit_toRing_sub {a b : Byte} (hab : a ≠ b) : IsUnit (toRing c.poly a - toRing c.poly b) := by
  obtain ⟨s, -, hs⟩ := gfInv_ofCfg h (a := a ^^^ b) (fun e => hab (BitVec.xor_eq_zero_iff.1 e))
  have hdiff : toRing c.poly a - toRing c.poly b = toRing c.poly (a ^^^ b) := by
    rw [sub_eq_iff_eq_add, ← toRing_xor, BitVec.xor_assoc, BitVec.xor_self, BitVec.xor_zero]
  rw [hdiff]
  exact IsUnit.of_mul_eq_one_right _ (by rw [← toRing_gfMul h, hs, toRing_one])

/-- A Vandermonde matrix on distinct points is a unit: its determinant is the product of the differences of the points. -/
theorem isUnit_vandermonde {n : Nat} {v : Fin n → Byte} (hv : Function.Injective v) :
    IsUnit (Matrix.vandermonde fun i => toRing c.poly (v i)) := by
  rw [Matrix.isUnit_iff_isUnit_det, Matrix.det_vandermonde]
  simp only [IsUnit.prod_iff]
  exact fun i _ j hj => isUnit_toRing_sub h fun e => (Finset.mem_Ioi.1 hj).ne' (hv e)

theorem toRing_gfPow (a : Byte) (n : Nat) : toRing c.poly (gfPow (Tables.ofCfg c) a n) = toRing c.poly a ^ n := by
  rw [gfPow_ofCfg h]
  induction n with
  | zero => rw [gfPowLoop, toRing_one, pow_zero]
  | succ n ih => rw [gfPowLoop, toRing_gfMul h, ih, pow_succ]

end

end Sys2Proof.Machine
end

section
/-! SUPPORT. Settles 42_builder.md: what `BuildMatrix` answers (R190, R192) and the command `MBUILD` (R191). -/

namespace Sys2Proof.Machine

/-! ### What the builder answers -/

theorem vandermonde_at (t : Tables) (p : Vector Byte 256) {n k r col : Nat} (hr : r < n) (hc : col < k) :
    (vandermonde t p n k).at r col = gfPow t (pointAt p r) col := Mat.at_ofFn _ hr hc

/-- The product of V with a matrix of k columns, entry by entry. -/
theorem matMul_vandermonde {t : Tables} {p : Vector Byte 256} {n k : Nat} {T C : Mat} (hT : T.cols = k)
    (h : matMul t (vandermonde t p n k) T = .ok C) : C.wf ∧ C.rows = n ∧ C.cols = k ∧
      ∀ r col, r < n → col < k → C.at r col = xorSum k fun j => gfMul t (gfPow t (pointAt p r) j) (T.at j col) := by
  subst hT
  obtain ⟨-, rfl⟩ := matMul_ok h
  refine ⟨Mat.wf_ofFn _ _ _, rfl, rfl, fun r col hr hc => (Mat.at_ofFn _ hr hc).trans ?_⟩
  exact xorSum_congr fun j hj => congrArg (gfMul t · (T.at j col)) (vandermonde_at t p hr hj)

/-- The top k x k block of V has no entry that depends on the number of rows. -/
theorem vandermonde_top (t : Tables) (p : Vector Byte 256) {n k : Nat} (hk : k ≤ n) :
    (Mat.ofFn k k fun i j => (vandermonde t p n k).at i j) = vandermonde t p k k := by
  refine Mat.ext_at (Mat.wf_ofFn _ _ _) (Mat.wf_ofFn _ _ _) rfl rfl fun r col hr hc => ?_
  exact (Mat.at_ofFn _ hr hc).trans ((vandermonde_at t p (Nat.lt_of_lt_of_le hr hk) hc).trans (vandermonde_at t p hr hc).symm)

theorem buildMatrix_out_of_bounds (t : Tables) (p : Vector Byte 256) {k m : Nat} (h : k + m > 256 ∨ k < 1) :
    buildMatrix t p k m = .error .cannotBuildMatrix := by
  rw [buildMatrix, if_pos h]
  rfl

theorem buildMatrix_in_bounds (t : Tables) (p : Vector Byte 256) {k m : Nat} (hk : 1 ≤ k) (hn : k + m ≤ 256) :
    buildMatrix t p k m = matInvert t (vandermonde t p k k) >>= matMul t (vandermonde t p (k + m) k) := by
  have htop : matSub (vandermonde t p (k + m) k) 0 k 0 k = .ok (vandermonde t p k k) := by
    rw [matSub_of_range ⟨Nat.zero_le k, Nat.le_add_right k m, Nat.zero_le k, le_refl k⟩, ← vandermonde_top t p (Nat.le_add_right k m)]
    simp only [Nat.sub_zero, Nat.zero_add]
  rw [buildMatrix, if_neg (by omega)]
  dsimp only
  rw [htop, bind_ok_eq]

/-- C is the (k+m) x k product of the Vandermonde matrix with T, and T is what `MatInvert` answers for the k x k one (R190). -/
structure BuiltFrom (t : Tables) (p : Vector Byte 256) (k m : Nat) (T C : Mat) : Prop where
  inverse : matInvert t (vandermonde t p k k) = .ok T
  wf : C.wf
  rows : C.rows = k + m
  cols : C.cols = k
  entry : ∀ r col, r < k + m → col < k → C.at r col = xorSum k fun j => gfMul t (gfPow t (pointAt p r) j) (T.at j col)

theorem matInvert_vandermonde_shape {t : Tables} {p : Vector Byte 256} {k : Nat} {T : Mat}
    (h : matInvert t (vandermonde t p k k) = .ok T) : T.rows = k ∧ T.cols = k := by
  obtain ⟨-, W, -, rfl⟩ := matInvert_ok h
  exact ⟨rfl, rfl⟩

/-- Every answer of the builder. -/
theorem buildMatrix_builtFrom {t : Tables} {p : Vector Byte 256} {k m : Nat} {C : Mat} (h : buildMatrix t p k m = .ok C) :
    ∃ T, BuiltFrom t p k m T C := by
  obtain ⟨-, -, T, hT, hC⟩ := buildMatrix_ok h
  rw [vandermonde_top t p (Nat.le_add_right k m)] at hT
  obtain ⟨-, hTc⟩ := matInvert_vandermonde_shape hT
  obtain ⟨hwf, hr, hc, hentry⟩ := matMul_vandermonde hTc hC
  exact ⟨T, hT, hwf, hr, hc, hentry⟩

/-- The first k + m' rows of what is built for m are what is built for m' (R192 (5)): T depends on k alone, and row r on T and `POINT(r)`. -/
theorem BuiltFrom.entry_eq {t : Tables} {p : Vector Byte 256} {k m m' : Nat} {T T' C C' : Mat} (hC : BuiltFrom t p k m T C)
    (hC' : BuiltFrom t p k m' T' C') {r col : Nat} (hr : r < k + m) (hr' : r < k + m') (hc : col < k) : C'.at r col = C.at r col := by
  have hT : T' = T := Except.ok.inj (hC'.inverse.symm.trans hC.inverse)
  rw [hC'.entry r col hr' hc, hC.entry r col hr hc, hT]

/-- Settles O39. -/
theorem builtRowsDependOnKAlone : Obligations.BuiltRowsDependOnKAlone := by
  intro c k m m' C C' hm hC hC'
  obtain ⟨T, hT⟩ := buildMatrix_builtFrom hC
  obtain ⟨T', hT'⟩ := buildMatrix_builtFrom hC'
  exact ⟨hT'.rows, hT'.cols, fun r col hr hc => hT.entry_eq hT' (by omega) hr hc⟩

/-! ### The builder of well-formed parameters -/

section WellFormedParameters

variable {c : Cfg} (h : c.WellFormed)
include h

theorem pointAt_injOn {i j : Nat} (hi : i < 256) (hj : j < 256) (e : pointAt c.point i = pointAt c.point j) : i = j := by
  simp only [pointAt, Vector.getElem?_eq_getElem hi, Vector.getElem?_eq_getElem hj] at e
  exact congrArg Fin.val (h.pointsDistinct ⟨i, hi⟩ ⟨j, hj⟩ e)

/-- The Vandermonde matrix of any k distinct rows is a unit. -/
theorem isUnit_vandermonde_points {k : Nat} {f : Fin k → Nat} (hf : Function.Injective f) (hlt : ∀ i, f i < 256) :
    IsUnit (Matrix.vandermonde fun i => toRing c.poly (pointAt c.point (f i))) :=
  isUnit_vandermonde h fun i j e => hf (pointAt_injOn h (hlt i) (hlt j) e)

theorem matInvert_vandermonde {k : Nat} (hk : k ≤ 256) :
    ∃ T, matInvert (Tables.ofCfg c) (vandermonde (Tables.ofCfg c) c.point k k) = .ok T := by
  have hV : (vandermonde (Tables.ofCfg c) c.point k k).toMatrix c k k =
      Matrix.vandermonde fun i : Fin k => toRing c.poly (pointAt c.point i) := by
    ext i j
    rw [Mat.toMatrix_apply, vandermonde_at _ _ i.isLt j.isLt, toRing_gfPow h, Matrix.vandermonde_apply]
  refine matInvert_of_isUnit h (n := k) rfl rfl ?_
  rw [hV]
  exact isUnit_vandermonde_points h Fin.val_injective fun i => i.isLt.trans_le hk

theorem buildMatrix_exists {k m : Nat} (hk : 1 ≤ k) (hn : k + m ≤ 256) :
    ∃ C, buildMatrix (Tables.ofCfg c) c.point k m = .ok C := by
  obtain ⟨T, hT⟩ := matInvert_vandermonde h (k := k) (by omega)
  obtain ⟨hTr, -⟩ := matInvert_vandermonde_shape hT
  rw [buildMatrix_in_bounds _ _ hk hn, hT, bind_ok_eq, matMul_of_eq _ hTr.symm]
  exact ⟨_, rfl⟩

/-- The top block of the answer is the Vandermonde block times its inverse (R192 (2)). -/
theorem BuiltFrom.top_eq_identity {k m : Nat} {T C : Mat} (hC : BuiltFrom (Tables.ofCfg c) c.point k m T C) {r col : Nat}
    (hr : r < k) (hc : col < k) : C.at r col = if r = col then 1 else 0 := by
  obtain ⟨-, -, hTc, hVT, -⟩ := (matInvert_eq_ok_iff h rfl).1 hC.inverse
  obtain ⟨-, -, -, hentry⟩ := matMul_vandermonde (k := k) hTc hVT
  rw [hC.entry r col (by omega) hc, ← hentry r col hr hc]
  exact matIdentity_at hr hc

/-- Any k rows of the answer are those rows of V times T (R192 (3)). -/
theorem BuiltFrom.toMatrix_rows {k m : Nat} {T C : Mat} (hC : BuiltFrom (Tables.ofCfg c) c.point k m T C) {f : Nat → Nat}
    (hf : ∀ i < k, f i < k + m) : (Mat.ofFn k k fun i j => C.at (f i) j).toMatrix c k k =
      (Matrix.vandermonde fun i : Fin k => toRing c.poly (pointAt c.point (f i))) * T.toMatrix c k k := by
  rw [Mat.toMatrix_ofFn]
  ext i j
  simp only [Matrix.of_apply, hC.entry _ _ (hf i i.isLt) j.isLt, toRing_xorSum, toRing_gfMul h, toRing_gfPow h, Matrix.mul_apply,
    Matrix.vandermonde_apply, Mat.toMatrix_apply]

end WellFormedParameters

/-- Settles O37: the top k x k block of V is a Vandermonde matrix on distinct points, so its inverse T exists. -/
theorem builderIsSystematicVandermonde : Obligations.BuilderIsSystematicVandermonde := by
  intro c k m h hk hn
  obtain ⟨C, hC⟩ := buildMatrix_exists h hk hn
  obtain ⟨T, hT⟩ := buildMatrix_builtFrom hC
  refine ⟨C, T, hC, hT.wf, hT.rows, hT.cols, fun r col hr hc => ?_, fun r col => hT.top_eq_identity h⟩
  simp only [hT.entry r col hr hc, gfPow_ofCfg h]

/-- Settles O38: the submatrix is a Vandermonde matrix on k distinct points times the invertible T. -/
theorem anyRowsOfTheBuiltMatrixInvert : Obligations.AnyRowsOfTheBuiltMatrixInvert := by
  intro c k m C rows h hC hlen hnodup hlt
  obtain ⟨hk, hn, -⟩ := buildMatrix_ok hC
  obtain ⟨T, hT⟩ := buildMatrix_builtFrom hC
  have hget : ∀ i (hi : i < k), rows.getD i 0 = rows[i] := fun i hi => List.getD_eq_getElem _ _ (hlen ▸ hi)
  have hrow : ∀ i < k, rows.getD i 0 < k + m := fun i hi => by
    rw [hget i hi]
    exact hlt _ (List.getElem_mem _)
  have hinj : Function.Injective fun i : Fin k => rows.getD i 0 := fun i j e => by
    dsimp only at e
    rw [hget i i.isLt, hget j j.isLt] at e
    exact Fin.ext (hnodup.getElem_inj_iff.1 e)
  refine matInvert_of_isUnit h (n := k) rfl rfl ?_
  rw [hT.toMatrix_rows h hrow]
  exact (isUnit_vandermonde_points h hinj fun i => (hrow i i.isLt).trans_le hn).mul (isUnit_toMatrix_of_matInvert h rfl rfl hT.inverse)

/-! ### The command -/

theorem exec_mbuild (s : State) (md : DstId) : exec (.mbuild md) s = runCommand s
    (buildMatrix s.rom s.cfg.point s.arg0.toNat s.arg1.toNat >>= s.dst md) := rfl

/-- Settles O40: within the bounds the builder answers, and its answer fits the destination. -/
theorem mbuildStoresTheBuiltMatrix : Obligations.MbuildStoresTheBuiltMatrix := by
  refine ⟨fun _ => commandWord_eq_ofNat (by simp [Instr.opcode]),
    fun s md hf => ⟨fun ⟨hcfg, hrom⟩ hk hn => ?_, fun hbound => ?_⟩⟩
  · obtain ⟨C, hC⟩ := buildMatrix_exists hcfg hk hn
    rw [← hrom] at hC
    obtain ⟨T, hT⟩ := buildMatrix_builtFrom hC
    refine ⟨C, hC, ?_⟩
    rw [exec_mbuild, hC, bind_ok_eq]
    exact runCommand_dst hf md (hT.rows.trans_le hn) (by rw [hT.cols]; omega)
  · have hout : s.arg0.toNat + s.arg1.toNat > 256 ∨ s.arg0.toNat < 1 := by
      obtain h0 | hsum := hbound
      · exact .inr (by rw [h0]; decide)
      · exact .inl hsum
    rw [exec_mbuild, buildMatrix_out_of_bounds _ _ hout, bind_error_eq]
    exact runCommand_error hf _

end Sys2Proof.Machine
end

section
/-! SUPPORT. The shard set under the writes of the coder: what a slot and its length hold after them, and which completions
leave `ERR = 0` (60_exceptions.md R262). -/

namespace Sys2Proof.Machine

/-! ### Completions -/

theorem Err.code_ne_zero (e : Err) : e.code ≠ 0 := by cases e <;> decide

theorem State.fail_err_ne_zero (s : State) (e : Err) : (s.fail e).err ≠ 0 := e.code_ne_zero

/-- A completion with `ERR = 0` is that of a rule that answered a state. -/
theorem runCommand_success {s t : State} {r : Except Err State} (h : runCommand s r = .next t) (h0 : t.err = 0) :
    s.fatal = false ∧ ∃ u, r = .ok u ∧ t = u.succeed := by
  obtain ⟨e, rfl⟩ | h := runCommand_cases h
  · exact absurd h0 (s.fail_err_ne_zero e)
  · exact h

theorem runLockingCommand_success {s t : State} {r : Except Err State} (h : runLockingCommand s r = .next t) (h0 : t.err = 0) :
    s.fatal = false ∧ ∃ u, r = .ok u ∧ t = u.succeed := by
  obtain ⟨e, rfl⟩ | ⟨-, -, rfl⟩ | h := runLockingCommand_cases h
  · exact absurd h0 (s.fail_err_ne_zero e)
  · exact absurd h0 (s.fail_err_ne_zero .singularMatrix)
  · exact h

theorem raiseIf_pos {b : Bool} (hb : b = true) (e : Err) : raiseIf b e = .error e := if_pos hb

theorem raiseIf_neg {b : Bool} (hb : ¬ b = true) (e : Err) : raiseIf b e = .ok () := if_neg hb

/-! ### Bytes and lengths -/

@[simp] theorem State.lenAt_fillSlots (s : State) (l : List Nat) (L : Nat) (f : Nat → Nat → Byte) :
    (s.fillSlots l L f).lenAt = s.lenAt := rfl

@[simp] theorem State.shByte_setLens (s : State) (l : List Nat) (v : Word) : (s.setLens l v).shByte = s.shByte := by
  rw [State.setLens_eq]
  rfl

/-- There is no length register above 255. -/
theorem State.lenAt_of_ge (s : State) {i : Nat} (h : 256 ≤ i) : s.lenAt i = 0 := by
  rw [State.lenAt, Vector.getElem?_eq_none h]

theorem State.shByte_of_read {s : State} {i o : Nat} {v : Byte} (h : Memory.read s.sh (shKey i o) = some v) : s.shByte i o = v := by
  rw [State.shByte, h]

/-! ### Writing what is there -/

theorem Memory.mem_of_read {m : Memory} {a : Nat} {v : Byte} (h : Memory.read m a = some v) : (a, v) ∈ m := by
  induction m with
  | nil => cases h
  | cons x m ih =>
    rw [Memory.read] at h
    split at h
    · next hx => cases h; rw [hx]; exact List.mem_cons_self
    · exact List.mem_cons_of_mem _ (ih h)

/-- A write of the byte that the key already holds changes nothing: the canonical form has one place for the key. -/
theorem Memory.write_of_read {m : Memory} (hm : Memory.wf m) {a : Nat} {v : Byte} (h : Memory.read m a = some v) :
    Memory.write m a v = m := by
  induction m with
  | nil => cases h
  | cons x m ih =>
    obtain ⟨a', v'⟩ := x
    obtain ⟨hhead, htail⟩ := List.pairwise_cons.1 hm
    rw [Memory.read] at h
    by_cases ha : a = a'
    · rw [if_pos ha] at h
      cases h
      rw [Memory.write, if_neg (by omega), if_pos ha, ha]
    · rw [if_neg ha] at h
      have hlt : a' < a := hhead _ (Memory.mem_of_read h)
      rw [Memory.write, if_neg (by omega), if_neg ha, ih htail h]

theorem Memory.writeAll_of_read {m : Memory} (hm : Memory.wf m) {ws : List (Nat × Byte)}
    (h : ∀ w ∈ ws, Memory.read m w.1 = some w.2) : Memory.writeAll m ws = m := by
  induction ws with
  | nil => rfl
  | cons w ws ih =>
    have hw : Memory.write m w.1 w.2 = m := Memory.write_of_read hm (h w List.mem_cons_self)
    exact (congrArg (Memory.writeAll · ws) hw).trans (ih fun x hx => h x (List.mem_cons_of_mem _ hx))

/-- Filling slots with the bytes that they already hold changes nothing. -/
theorem State.fillSlots_of_read {s : State} (hs : Memory.wf s.sh) {l : List Nat} {L : Nat} {f : Nat → Nat → Byte}
    (h : ∀ i ∈ l, ∀ o < L, Memory.read s.sh (shKey i o) = some (f i o)) : s.fillSlots l L f = s := by
  rw [State.fillSlots, Memory.writeAll_of_read hs]
  intro w hw
  obtain ⟨i, hi, hw⟩ := List.mem_flatMap.1 hw
  obtain ⟨o, ho, rfl⟩ := List.mem_map.1 hw
  exact h i hi o (List.mem_range.1 ho)

/-! ### The coder and its set -/

/-- The coder of a state of the invariant is one that `CONFIG` admits. -/
theorem State.Inv.hasCoder {s : State} (h : s.Inv) {c : Coder} (hc : s.coder = some c) : s.hasCoder c := by
  obtain ⟨hk, hm, htotal, hn, -⟩ := h.coderOk c hc
  exact ⟨hc, hk, hm, hn, hn.trans_le htotal⟩

theorem State.needCoder_of_some {s : State} {c : Coder} (h : s.coder = some c) : s.needCoder = .ok c := by
  rw [State.needCoder, h]

theorem State.needCoder_of_none {s : State} (h : s.coder = none) : s.needCoder = .error .badState := by
  rw [State.needCoder, h]

theorem State.checkCount_of_lt {s : State} {n : Nat} (h : s.nshards.toNat < n) : s.checkCount n = .error .tooFewShards := if_pos h

theorem State.checkCount_of_gt {s : State} {n : Nat} (h : s.nshards.toNat > n) : s.checkCount n = .error .tooManyShards := by
  rw [State.checkCount, if_neg (by omega), if_pos h]

theorem State.checkCount_of_eq {s : State} {n : Nat} (h : s.nshards.toNat = n) : s.checkCount n = .ok () := by
  rw [State.checkCount, if_neg (by omega), if_neg (by omega)]

end Sys2Proof.Machine
end

section
/-! SUPPORT. Settles 43_coder.md: `CONFIG` (R210, R211). -/

namespace Sys2Proof.Machine

theorem exec_config (s : State) : exec .config s = runCommand s
    (raiseIf s.configured .badState >>= fun _ =>
      raiseIf (decide (s.arg0.toNat < 1 ∨ s.arg1.toNat < 1 ∨ s.arg0.toNat + s.arg1.toNat > 256)) .invalidShardCount >>= fun _ =>
      buildMatrix s.rom s.cfg.point s.arg0.toNat s.arg1.toNat >>= fun C =>
      .ok { s with coder := some ⟨s.arg0, s.arg1, BitVec.ofNat 32 (s.arg0.toNat + s.arg1.toNat), C⟩ }) := rfl

theorem toNat_lt_one_of_eq_zero {v : Word} (h : v = 0) : v.toNat < 1 := by rw [h]; decide

/-- Settles O41: a configured block fails the first check, illegal counts the second, and within the bounds the builder answers. -/
theorem configBuildsTheCoder : Obligations.ConfigBuildsTheCoder := by
  refine ⟨by decide, fun s hf => ⟨fun c hc => ?_, fun hnone hbad => ?_, fun hnone ⟨hcfg, hrom⟩ hk hm hn => ?_⟩⟩
  · have hconf : s.configured = true := congrArg Option.isSome hc
    rw [exec_config, hconf, raiseIf_true, bind_error_eq]
    exact runCommand_error hf _
  · have hconf : s.configured = false := congrArg Option.isSome hnone
    have hrange : s.arg0.toNat < 1 ∨ s.arg1.toNat < 1 ∨ s.arg0.toNat + s.arg1.toNat > 256 :=
      hbad.imp toNat_lt_one_of_eq_zero (Or.imp_left toNat_lt_one_of_eq_zero)
    rw [exec_config, hconf, raiseIf_false, bind_ok_eq, raiseIf_pos (decide_eq_true hrange), bind_error_eq]
    exact runCommand_error hf _
  · have hconf : s.configured = false := congrArg Option.isSome hnone
    have hrange : ¬ (s.arg0.toNat < 1 ∨ s.arg1.toNat < 1 ∨ s.arg0.toNat + s.arg1.toNat > 256) := by omega
    obtain ⟨C, hC⟩ := buildMatrix_exists hcfg hk hn
    rw [← hrom] at hC
    refine ⟨C, hC, ?_⟩
    rw [exec_config, hconf, raiseIf_false, bind_ok_eq, decide_eq_false hrange, raiseIf_false, bind_ok_eq, hC, bind_ok_eq,
      BitVec.ofNat_add, BitVec.ofNat_toNat, BitVec.ofNat_toNat, BitVec.setWidth_eq, BitVec.setWidth_eq]
    exact runCommand_ready hf _

end Sys2Proof.Machine
end

section
/-! SUPPORT. Settles 43_coder.md: the errors of `ENCODE` and the bytes it writes (R220), and that encoding again changes nothing (R222 (2)). -/

namespace Sys2Proof.Machine

theorem exec_encode (s : State) : exec .encode s = runCommand s (encodeBody s) := rfl

/-! ### The checks -/

theorem encodeBody_of_coder {s : State} {c : Coder} (h : s.coder = some c) : encodeBody s =
    (s.checkCount c.n.toNat >>= fun _ =>
      raiseIf ((List.range c.n.toNat).any fun i => s.lenAt i == 0) .emptyShard >>= fun _ =>
      raiseIf ((List.range c.n.toNat).any fun i => s.lenAt i != s.lenAt 0) .incorrectShardSize >>= fun _ =>
      raiseIf (decide (s.lenAt 0 > s.cfg.lmax)) .operandRange >>= fun _ =>
      .ok (s.fillParity c ((List.range c.m.toNat).map fun r => c.k.toNat + r) (s.lenAt 0))) := by
  rw [encodeBody, State.needCoder_of_some h]
  rfl

theorem any_range_eq_zero {n : Nat} {f : Nat → Nat} : ((List.range n).any fun i => f i == 0) = true ↔ ∃ i < n, f i = 0 := by
  simp only [List.any_eq_true, List.mem_range, beq_iff_eq]

theorem any_range_ne {n L : Nat} {f : Nat → Nat} : ((List.range n).any fun i => f i != L) = true ↔ ∃ i < n, f i ≠ L := by
  simp only [List.any_eq_true, List.mem_range, bne_iff_ne]

/-- Settles O42: each check is reached when those before it pass. -/
theorem encodeErrorsInOrder : Obligations.EncodeErrorsInOrder := by
  refine fun s hf => ⟨fun hnone => ?_, fun c hc => ⟨fun hfew => ?_, fun hmany => ?_, fun hn => ⟨fun hzero => ?_,
    fun hpos => ⟨fun hne => ?_, fun hall hlong => ?_⟩⟩⟩⟩
  · rw [exec_encode, encodeBody, State.needCoder_of_none hnone]
    exact runCommand_error hf _
  · rw [exec_encode, encodeBody_of_coder hc, State.checkCount_of_lt hfew]
    exact runCommand_error hf _
  · rw [exec_encode, encodeBody_of_coder hc, State.checkCount_of_gt hmany]
    exact runCommand_error hf _
  · rw [exec_encode, encodeBody_of_coder hc, State.checkCount_of_eq hn, bind_ok_eq, raiseIf_pos (any_range_eq_zero.2 hzero)]
    exact runCommand_error hf _
  all_goals
    have hzero : ¬ ∃ i < c.n.toNat, s.lenAt i = 0 := fun ⟨i, hi, h0⟩ => hpos i hi h0
    rw [exec_encode, encodeBody_of_coder hc, State.checkCount_of_eq hn, bind_ok_eq, raiseIf_neg (any_range_eq_zero.not.2 hzero),
      bind_ok_eq]
  · rw [raiseIf_pos (any_range_ne.2 hne)]
    exact runCommand_error hf _
  · have hne : ¬ ∃ i < c.n.toNat, s.lenAt i ≠ s.lenAt 0 := fun ⟨i, hi, h⟩ => h (hall i hi)
    rw [raiseIf_neg (any_range_ne.not.2 hne), bind_ok_eq, raiseIf_pos (decide_eq_true hlong)]
    exact runCommand_error hf _

/-! ### The bytes written -/

/-- The set after the parity step of `ENCODE`, before the completion (R220). -/
def State.encoded (s : State) (c : Coder) (L : Nat) : State :=
  s.fillParity c ((List.range c.m.toNat).map fun r => c.k.toNat + r) L

theorem mem_paritySlots {k m i : Nat} : i ∈ (List.range m).map (fun r => k + r) ↔ k ≤ i ∧ i < k + m := by
  simp only [List.mem_map, List.mem_range]
  exact ⟨fun ⟨r, hr, e⟩ => by omega, fun ⟨h1, h2⟩ => ⟨i - k, by omega, by omega⟩⟩

theorem State.encoded_succeed (s : State) (c : Coder) (L : Nat) : s.succeed.encoded c L = (s.encoded c L).succeed := rfl

theorem State.parityByte_eq_codeByte (s : State) (c : Coder) (i o : Nat) : s.parityByte c i o = codeByte s.rom c s.shByte i o := rfl

section FullSet

variable {s : State} {c : Coder} {L : Nat} (hs : s.fullSet c L)
include hs

theorem State.fullSet.shByte_encoded_data {i o : Nat} (hk : i < c.k.toNat) (ho : o < L) :
    (s.encoded c L).shByte i o = s.shByte i o := by
  obtain ⟨-, -, -, hmax, hlmax⟩ := hs
  refine (State.shByte_fillSlots s _ _ (hmax.trans hlmax.le) (by omega)).trans (if_neg fun h => ?_)
  obtain ⟨hge, -⟩ := mem_paritySlots.1 h.1
  omega

/-- The parity of the encoded set is that of the set: its data slots are the same. -/
theorem State.fullSet.codeByte_encoded (i : Nat) {o : Nat} (ho : o < L) :
    codeByte s.rom c (s.encoded c L).shByte i o = codeByte s.rom c s.shByte i o :=
  xorSum_congr fun _ hj => by rw [hs.shByte_encoded_data hj ho]

variable (hc : s.hasCoder c)
include hc

/-- On a full set all checks pass. -/
theorem State.fullSet.encodeBody : encodeBody s = .ok (s.encoded c L) := by
  obtain ⟨hcoder, hk, -, hn, -⟩ := hc
  obtain ⟨hcount, hlen, hpos, hmax, -⟩ := hs
  have h0 : s.lenAt 0 = L := hlen 0 (by omega)
  have hok := encodeBody_of hcoder hcount (fun i hi => by rw [hlen i hi]; omega) (fun i hi => (hlen i hi).trans h0.symm)
    (h0.trans_le hmax)
  rwa [h0] at hok

theorem State.fullSet.exec_encode (hf : s.fatal = false) : exec .encode s = .next (s.encoded c L).succeed := by
  rw [Machine.exec_encode, hs.encodeBody hc]
  exact runCommand_ready hf _

theorem State.fullSet.read_encoded_parity {i o : Nat} (hk : c.k.toNat ≤ i) (hi : i < c.n.toNat) (ho : o < L) :
    Memory.read (s.encoded c L).sh (shKey i o) = some (codeByte s.rom c s.shByte i o) := by
  obtain ⟨-, -, -, hn, -⟩ := hc
  obtain ⟨-, -, -, hmax, hlmax⟩ := hs
  exact State.read_fillSlots_same s _ _ (hmax.trans hlmax.le) (mem_paritySlots.2 ⟨hk, hn ▸ hi⟩) ho

theorem State.fullSet.shByte_encoded_parity {i o : Nat} (hk : c.k.toNat ≤ i) (hi : i < c.n.toNat) (ho : o < L) :
    (s.encoded c L).shByte i o = codeByte s.rom c s.shByte i o :=
  State.shByte_of_read (hs.read_encoded_parity hc hk hi ho)

/-- The parity slots of an encoded set hold their parity, so the parity step writes what is there. -/
theorem State.fullSet.encoded_encoded (hm : Memory.wf s.sh) : (s.encoded c L).encoded c L = s.encoded c L := by
  refine State.fillSlots_of_read (State.fillSlots_wf hm _ _ _) fun i hi o ho => ?_
  obtain ⟨hk, hi⟩ := mem_paritySlots.1 hi
  obtain ⟨-, -, -, hn, -⟩ := id hc
  rw [State.parityByte_eq_codeByte]
  exact (hs.read_encoded_parity hc hk (hn ▸ hi) ho).trans (congrArg some (hs.codeByte_encoded i ho).symm)

end FullSet

/-- Settles O43: on a full set the checks pass, and the parity slots are filled below the length L. -/
theorem encodeWritesTheParity : Obligations.EncodeWritesTheParity := by
  refine ⟨by decide, fun s c L hf hc hs => ⟨(s.encoded c L).sh, hs.exec_encode hc hf,
    fun i o hk hi ho => hs.read_encoded_parity hc hk hi ho, fun a ha => ?_⟩⟩
  obtain ⟨-, -, -, hn, -⟩ := hc
  refine State.read_fillSlots_other s _ _ _ a fun i hi o ho => ?_
  obtain ⟨hk, hi⟩ := mem_paritySlots.1 hi
  exact (ha i o hk (hn ▸ hi) ho).symm

/-- A successful `ENCODE` in a state of the invariant found a full set. -/
theorem exec_encode_success {s t : State} (hs : s.Inv) (h : exec .encode s = .next t) (h0 : t.err = 0) :
    s.fatal = false ∧ ∃ c L, s.hasCoder c ∧ s.fullSet c L ∧ t = (s.encoded c L).succeed := by
  obtain ⟨hf, u, hu, rfl⟩ := runCommand_success h h0
  obtain ⟨c, hc, hn, hpos, hlen, hmax, rfl⟩ := encodeBody_ok hu
  have hcoder := hs.hasCoder hc
  obtain ⟨-, hk, -, hsum, -⟩ := id hcoder
  exact ⟨hf, c, _, hcoder, ⟨hn, hlen, Nat.one_le_iff_ne_zero.2 (hpos 0 (by omega)), hmax, hs.cfgOk.lmaxBound⟩, rfl⟩

/-- Settles O44: the second run finds the same full set, and writes the bytes that the parity slots hold. -/
theorem encodeIsIdempotent : Obligations.EncodeIsIdempotent := by
  intro s t hs h h0
  obtain ⟨hf, c, L, hc, hset, rfl⟩ := exec_encode_success hs h h0
  rw [State.fullSet.exec_encode (s := (s.encoded c L).succeed) hset hc hf, State.encoded_succeed, hset.encoded_encoded hc hs.shOk]
  rfl

end Sys2Proof.Machine
end

section
/-! SUPPORT. Settles 43_coder.md: the encoded set is a code word (R222 (4)) and the parity is linear (R222 (3)). A row of a matrix value
times a column of bytes is, over the residues modulo `POLY`, a row of the matrix times the vector of the residues. -/

namespace Sys2Proof.Machine

open scoped Matrix

section Field

variable {cfg : Cfg} (h : cfg.WellFormed)
include h

theorem gfMul_one_left (a : Byte) : gfMul (Tables.ofCfg cfg) 1 a = a := by
  rw [gfMul_ofCfg h, polyMul_comm h.degree, polyMul_one h.degree]

theorem gfMul_xor (a x y : Byte) :
    gfMul (Tables.ofCfg cfg) a (x ^^^ y) = gfMul (Tables.ofCfg cfg) a x ^^^ gfMul (Tables.ofCfg cfg) a y := by
  simp only [gfMul_ofCfg h, polyMul_xor h.degree]

/-- The code word of the bytewise xor of two sets of data bytes (R222 (3)). -/
theorem codeByte_xor (c : Coder) {d d₁ d₂ : Nat → Nat → Byte} {o : Nat} (hd : ∀ j < c.k.toNat, d j o = d₁ j o ^^^ d₂ j o) (i : Nat) :
    codeByte (Tables.ofCfg cfg) c d i o = codeByte (Tables.ofCfg cfg) c d₁ i o ^^^ codeByte (Tables.ofCfg cfg) c d₂ i o := by
  rw [codeByte, codeByte, codeByte, ← xorSum_xor]
  exact xorSum_congr fun j hj => by rw [hd j hj, gfMul_xor h]

/-- A coder that `CONFIG` built is systematic: the data shards of a code word are its data bytes (42_builder.md R192 (2)). -/
theorem codeByte_data {c : Coder} (hc : c.Ok (Tables.ofCfg cfg) cfg.point) (d : Nat → Nat → Byte) {i : Nat} (hi : i < c.k.toNat) (o : Nat) :
    codeByte (Tables.ofCfg cfg) c d i o = d i o := by
  obtain ⟨T, hT⟩ := buildMatrix_builtFrom hc.built
  have hoff : ∀ j < c.k.toNat, j ≠ i → gfMul (Tables.ofCfg cfg) (c.cm.at i j) (d j o) = 0 := fun j hj hne => by
    rw [hT.top_eq_identity h hi hj, if_neg hne.symm, gfMul_zero_left]
  rw [codeByte, xorSum_single hi _ hoff, hT.top_eq_identity h hi hi, if_pos rfl, gfMul_one_left h]

/-- A row of A times a column of bytes. -/
theorem toRing_xorSum_gfMul (A : Mat) {n k : Nat} (x : Nat → Byte) (i : Fin n) :
    toRing cfg.poly (xorSum k fun j => gfMul (Tables.ofCfg cfg) (A.at i j) (x j)) =
      (A.toMatrix cfg n k *ᵥ fun j => toRing cfg.poly (x j)) i := by
  simp only [toRing_xorSum, toRing_gfMul h, Matrix.mulVec, dotProduct, Mat.toMatrix_apply]

/-- The inverse of A times the column A x is x. -/
theorem IsInverse.solve {A I : Mat} {n : Nat} (hr : A.rows = n) (hc : A.cols = n) (hI : IsInverse (Tables.ofCfg cfg) A I) {x b : Nat → Byte}
    (hb : ∀ j < n, b j = xorSum n fun i => gfMul (Tables.ofCfg cfg) (A.at j i) (x i)) {i : Nat} (hi : i < n) :
    (xorSum n fun j => gfMul (Tables.ofCfg cfg) (I.at i j) (b j)) = x i := by
  obtain ⟨-, hAI⟩ := (isInverse_iff h hr hc).1 hI
  have hcol : (fun j : Fin n => toRing cfg.poly (b j)) = A.toMatrix cfg n n *ᵥ fun j => toRing cfg.poly (x j) :=
    funext fun j => by rw [hb j j.isLt, toRing_xorSum_gfMul h A x j]
  refine toRing_injective h.degree ?_
  rw [toRing_xorSum_gfMul h I b ⟨i, hi⟩, hcol, Matrix.mulVec_mulVec, mul_eq_one_comm.1 hAI, Matrix.one_mulVec]

end Field

/-- After `ENCODE` every shard is that of the code word of the data bytes (R222 (4)). -/
theorem State.fullSet.shByte_encoded {s : State} {c : Coder} {L : Nat} (hset : s.fullSet c L) (hs : s.Inv) (hc : s.coder = some c)
    {i o : Nat} (hi : i < c.n.toNat) (ho : o < L) : (s.encoded c L).shByte i o = codeByte s.rom c s.shByte i o := by
  by_cases hk : i < c.k.toNat
  · have hOk := hs.coderOk c hc
    rw [hs.romOk] at hOk
    rw [hset.shByte_encoded_data hk ho, hs.romOk, codeByte_data hs.cfgOk hOk _ hk]
  · exact hset.shByte_encoded_parity (hs.hasCoder hc) (Nat.le_of_not_lt hk) hi ho

/-- Settles O45: the data shards stay, and `CM` is the identity on them. -/
theorem encodeLeavesACodeWord : Obligations.EncodeLeavesACodeWord := by
  intro s t c L hs hf hc hset h
  rw [hset.exec_encode (hs.hasCoder hc) hf] at h
  cases h
  exact ⟨rfl, fun i o hi ho => hset.shByte_encoded hs hc hi ho⟩

/-- Settles O46: the three sets are code words of their data bytes. -/
theorem encodeIsLinear : Obligations.EncodeIsLinear := by
  intro s₁ s₂ s₃ t₁ t₂ t₃ c L hs₁ hs₂ hs₃ hall hdata h₁ h₂ h₃ i o hi ho
  obtain ⟨hf₁, -, hc₁, hset₁⟩ := hall s₁ (by simp)
  obtain ⟨hf₂, hcfg₂, hc₂, hset₂⟩ := hall s₂ (by simp)
  obtain ⟨hf₃, hcfg₃, hc₃, hset₃⟩ := hall s₃ (by simp)
  obtain ⟨-, e₁⟩ := encodeLeavesACodeWord s₁ t₁ c L hs₁ hf₁ hc₁ hset₁ h₁
  obtain ⟨-, e₂⟩ := encodeLeavesACodeWord s₂ t₂ c L hs₂ hf₂ hc₂ hset₂ h₂
  obtain ⟨-, e₃⟩ := encodeLeavesACodeWord s₃ t₃ c L hs₃ hf₃ hc₃ hset₃ h₃
  rw [e₁ i o hi ho, e₂ i o hi ho, e₃ i o hi ho, hs₁.romOk, hs₂.romOk, hs₃.romOk, hcfg₂, hcfg₃]
  exact codeByte_xor hs₁.cfgOk c (fun j hj => hdata j o hj ho) i

end Sys2Proof.Machine
end

section
/-! SUPPORT. Settles 43_coder.md: the errors of `DECODE` before the inversion (R230) and the loss of more than M shards (R231 (2)). -/

namespace Sys2Proof.Machine

theorem exec_decode (s : State) : exec .decode s = runLockingCommand s (decodeBody s) := rfl

/-- Without the lock an error other than `SingularMatrix` changes `ERR` and `BUSY` alone. -/
theorem exec_decode_error {s : State} (hf : s.fatal = false) {e : Err} (he : e ≠ .singularMatrix) (h : decodeBody s = .error e) :
    exec .decode s = .next { s with err := e.code, busy := false } := by
  rw [exec_decode, h]
  exact runLockingCommand_error hf he

/-! ### The present shards -/

theorem State.present_eq_filter (s : State) (n : Nat) : s.present n = (List.range n).filter fun i => decide (s.lenAt i ≠ 0) :=
  List.filter_congr fun i _ => by rw [Bool.eq_iff_iff, bne_iff_ne, decide_eq_true_iff]

theorem State.nodup_present (s : State) (n : Nat) : (s.present n).Nodup := List.nodup_range.filter _

theorem getD_zero_mem {l : List Nat} (h : 0 < l.length) : l.getD 0 0 ∈ l := by
  rw [List.getD_eq_getElem _ _ h]
  exact List.getElem_mem h

/-- Shards marked absent are not among the present ones. -/
theorem State.length_present_add_le {s : State} {n : Nat} {lost : List Nat} (hnd : lost.Nodup)
    (hlost : ∀ i ∈ lost, i < n ∧ s.lenAt i = 0) : (s.present n).length + lost.length ≤ n := by
  have hdisj : List.Disjoint (s.present n) lost := fun i hp hl => (State.mem_present.1 hp).2 (hlost i hl).2
  have hsub : s.present n ++ lost ⊆ List.range n := fun i hi =>
    List.mem_range.2 ((List.mem_append.1 hi).elim (fun hp => (State.mem_present.1 hp).1) fun hl => (hlost i hl).1)
  simpa using (((s.nodup_present n).append hnd hdisj).subperm hsub).length_le

/-- Every shard is present or among those that may be absent. -/
theorem State.le_length_present_add {s : State} {n : Nat} {lost : List Nat} (h : ∀ i < n, i ∉ lost → s.lenAt i ≠ 0) :
    n ≤ (s.present n).length + lost.length := by
  have hsub : List.range n ⊆ s.present n ++ lost := fun i hi => List.mem_append.2 <| by
    by_cases hl : i ∈ lost
    · exact .inr hl
    · exact .inl (State.mem_present.2 ⟨List.mem_range.1 hi, h i (List.mem_range.1 hi) hl⟩)
  simpa using (List.nodup_range.subperm hsub).length_le

/-! ### The checks -/

theorem decodeBody_of_coder {s : State} {c : Coder} (h : s.coder = some c) : decodeBody s =
    (s.checkCount c.n.toNat >>= fun _ =>
      raiseIf (decide ((s.present c.n.toNat).length < c.k.toNat)) .tooFewShardsGiven >>= fun _ =>
      raiseIf ((s.present c.n.toNat).any fun i => s.lenAt i != s.decodeLen c) .incorrectShardSize >>= fun _ =>
      raiseIf (decide (s.decodeLen c > s.cfg.lmax)) .operandRange >>= fun _ =>
      recoverData s c (s.decodeLen c) (BitVec.ofNat 32 (s.decodeLen c)) >>= fun s1 =>
      .ok ((s1.fillParity c (s.missing c.k.toNat c.m.toNat) (s.decodeLen c)).setLens (s.missing c.k.toNat c.m.toNat)
        (BitVec.ofNat 32 (s.decodeLen c)))) := by
  rw [decodeBody, State.needCoder_of_some h]
  rfl

theorem decodeBody_tooFewShardsGiven {s : State} {c : Coder} (hc : s.coder = some c) (hn : s.nshards.toNat = c.n.toNat)
    (hk : (s.present c.n.toNat).length < c.k.toNat) : decodeBody s = .error .tooFewShardsGiven := by
  rw [decodeBody_of_coder hc, State.checkCount_of_eq hn, bind_ok_eq, raiseIf_pos (decide_eq_true hk)]
  rfl

theorem any_lenAt_ne {s : State} {P : List Nat} {L : Nat} : (P.any fun i => s.lenAt i != L) = true ↔ ∃ i ∈ P, s.lenAt i ≠ L := by
  simp only [List.any_eq_true, bne_iff_ne]

/-- Settles O47: each check is reached when those before it pass; `DECODE` compares all lengths with that of the first present shard. -/
theorem decodeErrorsInOrder : Obligations.DecodeErrorsInOrder := by
  refine fun s hf => ⟨fun hnone => ?_, fun c P hc hP => ?_⟩
  · refine exec_decode_error hf (e := .badState) nofun ?_
    rw [decodeBody, State.needCoder_of_none hnone]
    rfl
  rw [← State.present_eq_filter] at hP
  subst hP
  refine ⟨fun hfew => ?_, fun hmany => ?_, fun hn => ⟨fun hk => ?_, fun hk => ⟨fun hne => ?_, fun hall hlong => ?_⟩⟩⟩
  · refine exec_decode_error hf (e := .tooFewShards) nofun ?_
    rw [decodeBody_of_coder hc, State.checkCount_of_lt hfew]
    rfl
  · refine exec_decode_error hf (e := .tooManyShards) nofun ?_
    rw [decodeBody_of_coder hc, State.checkCount_of_gt hmany]
    rfl
  · exact exec_decode_error hf (e := .tooFewShardsGiven) nofun (decodeBody_tooFewShardsGiven hc hn hk)
  · have hfirst : ∃ i ∈ s.present c.n.toNat, s.lenAt i ≠ s.decodeLen c := by
      by_contra hno
      push Not at hno
      obtain ⟨i, hi, j, hj, hij⟩ := hne
      exact hij ((hno i hi).trans (hno j hj).symm)
    refine exec_decode_error hf (e := .incorrectShardSize) nofun ?_
    rw [decodeBody_of_coder hc, State.checkCount_of_eq hn, bind_ok_eq, raiseIf_neg (by simpa using hk), bind_ok_eq,
      raiseIf_pos (any_lenAt_ne.2 hfirst)]
    rfl
  · obtain ⟨i, hi, hlong⟩ := hlong
    have hmem := getD_zero_mem (List.length_pos_of_mem hi)
    have hfirst : ¬ ∃ i ∈ s.present c.n.toNat, s.lenAt i ≠ s.decodeLen c := fun ⟨j, hj, h⟩ => h (hall j hj _ hmem)
    have hlen : s.decodeLen c > s.cfg.lmax := hlong.trans_eq (hall i hi _ hmem)
    refine exec_decode_error hf (e := .operandRange) nofun ?_
    rw [decodeBody_of_coder hc, State.checkCount_of_eq hn, bind_ok_eq, raiseIf_neg (by simpa using hk), bind_ok_eq,
      raiseIf_neg (any_lenAt_ne.not.2 hfirst), bind_ok_eq, raiseIf_pos (decide_eq_true hlen)]
    rfl

/-- Settles O51: with more than M of the N = K + M shards absent fewer than K are present. -/
theorem tooManyErasuresAreReported : Obligations.TooManyErasuresAreReported := by
  intro s c lost hf hc hn hnd hlost hm
  obtain ⟨hcoder, -, -, hsum, -⟩ := hc
  have hcount := State.length_present_add_le hnd hlost
  exact exec_decode_error hf (e := .tooFewShardsGiven) nofun
    (decodeBody_tooFewShardsGiven hcoder (congrArg BitVec.toNat hn) (by omega))

end Sys2Proof.Machine
end

section
/-! SUPPORT. Settles 43_coder.md: the slots that `DECODE` rebuilds (R230, R232) and that a second `DECODE` changes nothing (R231 (5)). -/

namespace Sys2Proof.Machine

/-! ### The state that `DECODE` writes -/

/-- `sel` of R230: the first K present shards. -/
def State.selected (s : State) (c : Coder) : List Nat := (s.present c.n.toNat).take c.k.toNat

/-- The set after the data phase of `DECODE`, I being the inverse of the selected rows (R230). -/
def State.dataRebuilt (s : State) (c : Coder) (L : Nat) (I : Mat) : State :=
  (s.fillSlots (s.missing 0 c.k.toNat) L (s.dataByte c.k.toNat I (s.selected c))).setLens (s.missing 0 c.k.toNat) (BitVec.ofNat 32 L)

/-- The set after both phases of `DECODE`, before the completion (R230). -/
def State.rebuilt (s : State) (c : Coder) (L : Nat) (I : Mat) : State :=
  ((s.dataRebuilt c L I).fillParity c (s.missing c.k.toNat c.m.toNat) L).setLens (s.missing c.k.toNat c.m.toNat) (BitVec.ofNat 32 L)

/-- I serves the data phase: no data shard is missing, or I is what the inversion answers for the selected rows. -/
def State.Solves (s : State) (c : Coder) (I : Mat) : Prop :=
  s.missing 0 c.k.toNat = [] ∨ matInvert s.rom (selectedRows c (s.selected c)) = .ok I

theorem State.missing_data_eq_nil {s : State} {k : Nat} : s.missing 0 k = [] ↔ ∀ d < k, s.lenAt d ≠ 0 := by
  simp only [List.eq_nil_iff_forall_not_mem, State.mem_missing, Nat.zero_le, true_and, Nat.zero_add, not_and, ne_eq]

theorem recoverData_of_missing {s : State} {c : Coder} (hm : s.missing 0 c.k.toNat ≠ []) (L : Nat) :
    recoverData s c L (BitVec.ofNat 32 L) =
      (matInvert s.rom (selectedRows c (s.selected c)) >>= fun I => .ok (s.dataRebuilt c L I)) := if_neg hm

theorem State.Solves.recoverData {s : State} {c : Coder} {I : Mat} (h : s.Solves c I) (L : Nat) :
    recoverData s c L (BitVec.ofNat 32 L) = .ok (s.dataRebuilt c L I) := by
  by_cases hm : s.missing 0 c.k.toNat = []
  · rw [Machine.recoverData, if_pos hm, State.dataRebuilt, hm]
    rfl
  · rw [recoverData_of_missing hm, h.resolve_left hm, bind_ok_eq]

theorem recoverData_eq_dataRebuilt {s t : State} {c : Coder} {L : Nat} (h : recoverData s c L (BitVec.ofNat 32 L) = .ok t) :
    ∃ I, s.Solves c I ∧ t = s.dataRebuilt c L I := by
  have hsolves : ∃ I, s.Solves c I := by
    obtain ⟨hm, -⟩ | ⟨-, I, hI, -⟩ := recoverData_ok h
    · exact ⟨matIdentity 0, .inl hm⟩
    · exact ⟨I, .inr hI⟩
  obtain ⟨I, hI⟩ := hsolves
  exact ⟨I, hI, Except.ok.inj (h.symm.trans (hI.recoverData L))⟩

/-- A successful `DECODE` in a state of the invariant found at least K shards of one length. -/
theorem exec_decode_success {s t : State} (hs : s.Inv) (h : exec .decode s = .next t) (h0 : t.err = 0) :
    s.fatal = false ∧ ∃ c L I, s.hasCoder c ∧ s.partialSet c L ∧ s.Solves c I ∧ t = (s.rebuilt c L I).succeed := by
  obtain ⟨hf, u, hu, rfl⟩ := runLockingCommand_success h h0
  obtain ⟨c, s1, hc, hn, hk, hlen, hmax, h1, rfl⟩ := decodeBody_ok hu
  have hcoder := hs.hasCoder hc
  obtain ⟨-, hkpos, -, -, -⟩ := id hcoder
  obtain ⟨I, hI, rfl⟩ := recoverData_eq_dataRebuilt h1
  obtain ⟨-, hpos⟩ := State.mem_present.1 (getD_zero_mem (hkpos.trans hk))
  refine ⟨hf, c, _, I, hcoder, ⟨hn, fun i hi => ?_, State.present_eq_filter s _ ▸ hk, Nat.one_le_iff_ne_zero.2 hpos, hmax,
    hs.cfgOk.lmaxBound⟩, hI, rfl⟩
  by_cases hi0 : s.lenAt i = 0
  · exact .inl hi0
  · exact .inr (hlen i (State.mem_present.2 ⟨hi, hi0⟩))

/-! ### The bytes and lengths written -/

theorem State.decodeFills_iff {s : State} {c : Coder} (hc : s.hasCoder c) {i : Nat} :
    s.decodeFills c i ↔ i < c.n.toNat ∧ s.lenAt i = 0 := by
  obtain ⟨-, -, -, hn, -⟩ := hc
  simp only [State.decodeFills, State.mem_missing, hn, Nat.zero_le, true_and, Nat.zero_add]
  constructor
  · rintro (⟨hi, h0⟩ | ⟨⟨-, hi⟩, h0⟩)
    · exact ⟨by omega, h0⟩
    · exact ⟨hi, h0⟩
  · rintro ⟨hi, h0⟩
    by_cases hk : i < c.k.toNat
    · exact .inl ⟨hk, h0⟩
    · exact .inr ⟨⟨Nat.le_of_not_lt hk, hi⟩, h0⟩

theorem State.rebuilt_writesOnlySlots (s : State) (c : Coder) (L : Nat) (I : Mat) :
    WritesOnlySlots s (s.rebuilt c L I) (s.decodeFills c) L :=
  (writesOnlySlots_fill s (fun _ => .inl) _ _ _).trans (writesOnlySlots_fill (s.dataRebuilt c L I) (fun _ => .inr) _ _ _)

/-- With all shards present there is nothing to rebuild. -/
theorem State.rebuilt_of_complete {s : State} {c : Coder} (hc : s.hasCoder c) (h : ∀ i < c.n.toNat, s.lenAt i ≠ 0) (L : Nat) (I : Mat) :
    s.rebuilt c L I = s := by
  have hnone : ∀ i, ¬ s.decodeFills c i := fun i hi => by
    obtain ⟨hi, h0⟩ := (State.decodeFills_iff hc).1 hi
    exact h i hi h0
  have hd : s.missing 0 c.k.toNat = [] := List.eq_nil_iff_forall_not_mem.2 fun i hi => hnone i (.inl hi)
  have hp : s.missing c.k.toNat c.m.toNat = [] := List.eq_nil_iff_forall_not_mem.2 fun i hi => hnone i (.inr hi)
  rw [State.rebuilt, State.dataRebuilt, hd, hp]
  rfl

theorem State.hasCoder.rebuilt {s : State} {c : Coder} (hc : s.hasCoder c) (L : Nat) (I : Mat) : (s.rebuilt c L I).hasCoder c := by
  rw [State.hasCoder, (s.rebuilt_writesOnlySlots c L I).state]
  exact hc

theorem State.lenAt_rebuilt_other (s : State) (c : Coder) (L : Nat) (I : Mat) {i : Nat} (hi : ¬ s.decodeFills c i) :
    (s.rebuilt c L I).lenAt i = s.lenAt i := by
  by_cases h : i < 256
  · rw [State.lenAt_lt h, State.lenAt_lt h]
    exact congrArg BitVec.toNat ((s.rebuilt_writesOnlySlots c L I).lens ⟨i, h⟩ hi)
  · rw [State.lenAt_of_ge _ (Nat.le_of_not_lt h), State.lenAt_of_ge _ (Nat.le_of_not_lt h)]

section PartialSet

variable {s : State} {c : Coder} {L : Nat} (hs : s.partialSet c L) (I : Mat)
include hs

theorem State.partialSet.shByte_dataRebuilt (i : Nat) {o : Nat} (ho : o < L) : (s.dataRebuilt c L I).shByte i o =
    if i ∈ s.missing 0 c.k.toNat then s.dataByte c.k.toNat I (s.selected c) i o else s.shByte i o := by
  obtain ⟨-, -, -, -, hmax, hlmax⟩ := hs
  rw [State.dataRebuilt, State.shByte_setLens, State.shByte_fillSlots _ _ _ (by omega) (by omega)]
  simp only [ho, and_true]

theorem State.partialSet.shByte_rebuilt (i : Nat) {o : Nat} (ho : o < L) : (s.rebuilt c L I).shByte i o =
    if i ∈ s.missing c.k.toNat c.m.toNat then codeByte s.rom c (s.dataRebuilt c L I).shByte i o
    else (s.dataRebuilt c L I).shByte i o := by
  obtain ⟨-, -, -, -, hmax, hlmax⟩ := hs
  have hrom : (s.dataRebuilt c L I).rom = s.rom := State.setLens_rom _ _ _
  rw [State.rebuilt, State.shByte_setLens, State.fillParity, State.shByte_fillSlots _ _ _ (by omega) (by omega), ← hrom]
  simp only [ho, and_true, State.parityByte_eq_codeByte]

/-- The parity phase leaves the data shards. -/
theorem State.partialSet.shByte_rebuilt_lt {d o : Nat} (hd : d < c.k.toNat) (ho : o < L) :
    (s.rebuilt c L I).shByte d o = (s.dataRebuilt c L I).shByte d o := by
  rw [hs.shByte_rebuilt I d ho, if_neg]
  intro h
  obtain ⟨⟨hge, -⟩, -⟩ := State.mem_missing.1 h
  omega

theorem State.partialSet.shByte_rebuilt_missing_data {d o : Nat} (hd : d < c.k.toNat) (h0 : s.lenAt d = 0) (ho : o < L) :
    (s.rebuilt c L I).shByte d o = s.dataByte c.k.toNat I (s.selected c) d o := by
  rw [hs.shByte_rebuilt_lt I hd ho, hs.shByte_dataRebuilt I d ho, if_pos (State.mem_missing.2 ⟨by omega, h0⟩)]

theorem State.partialSet.shByte_rebuilt_present {i o : Nat} (h0 : s.lenAt i ≠ 0) (ho : o < L) :
    (s.rebuilt c L I).shByte i o = s.shByte i o := by
  have hnot : ∀ a n, i ∉ s.missing a n := fun a n h => h0 (State.mem_missing.1 h).2
  rw [hs.shByte_rebuilt I i ho, if_neg (hnot _ _), hs.shByte_dataRebuilt I i ho, if_neg (hnot _ _)]

variable (hc : s.hasCoder c)
include hc

theorem State.partialSet.shByte_rebuilt_missing_parity {i o : Nat} (hk : c.k.toNat ≤ i) (hi : i < c.n.toNat) (h0 : s.lenAt i = 0)
    (ho : o < L) : (s.rebuilt c L I).shByte i o = codeByte s.rom c (s.rebuilt c L I).shByte i o := by
  obtain ⟨-, -, -, hn, -⟩ := hc
  rw [hs.shByte_rebuilt I i ho, if_pos (State.mem_missing.2 ⟨by omega, h0⟩)]
  exact xorSum_congr fun j hj => by rw [hs.shByte_rebuilt_lt I hj ho]

theorem State.partialSet.lenAt_rebuilt {i : Nat} (hi : i < c.n.toNat) : (s.rebuilt c L I).lenAt i = L := by
  obtain ⟨-, hlen, -, -, hmax, hlmax⟩ := hs
  have hv : (BitVec.ofNat 32 L).toNat = L := (BitVec.toNat_ofNat L 32).trans (Nat.mod_eq_of_lt (by omega))
  have hi256 : i < 256 := by obtain ⟨-, -, -, -, hn⟩ := hc; omega
  rw [State.rebuilt, State.lenAt_setLens _ _ _ hi256, State.fillParity, State.lenAt_fillSlots, State.dataRebuilt,
    State.lenAt_setLens _ _ _ hi256, State.lenAt_fillSlots, hv]
  obtain h0 | hL := hlen i hi
  · obtain hd | hp := (State.decodeFills_iff hc).2 ⟨hi, h0⟩
    · rw [if_pos hd, ite_self]
    · rw [if_pos hp]
  · rw [hL, ite_self, ite_self]

/-- On a set with at least K shards of one length the checks pass, and the data phase decides. -/
theorem State.partialSet.decodeBody : decodeBody s = (recoverData s c L (BitVec.ofNat 32 L) >>= fun s1 =>
    .ok ((s1.fillParity c (s.missing c.k.toNat c.m.toNat) L).setLens (s.missing c.k.toNat c.m.toNat) (BitVec.ofNat 32 L))) := by
  obtain ⟨hcoder, hkpos, -, -, -⟩ := hc
  obtain ⟨hn, hlen, hk, -, hmax, -⟩ := hs
  rw [← State.present_eq_filter] at hk
  have hL : ∀ i ∈ s.present c.n.toNat, s.lenAt i = L := fun i hi => by
    obtain ⟨hi, h0⟩ := State.mem_present.1 hi
    exact (hlen i hi).resolve_left h0
  rw [decodeBody_of hcoder hn hk (hL _ (getD_zero_mem (hkpos.trans hk))) hL hmax]
  cases recoverData s c L (BitVec.ofNat 32 L) <;> rfl

theorem State.partialSet.exec_decode (hf : s.fatal = false) (hI : s.Solves c I) :
    exec .decode s = .next (s.rebuilt c L I).succeed := by
  rw [Machine.exec_decode, hs.decodeBody hc, hI.recoverData]
  exact runLockingCommand_ok hf

end PartialSet

/-- Settles O48: after the checks the data phase answers as the inversion of the selected rows does, where it is needed. -/
theorem decodeRebuildsTheMissingSlots : Obligations.DecodeRebuildsTheMissingSlots := by
  refine ⟨by decide, fun s c L sel S hf hc hs hsel hS => ?_⟩
  rw [← State.present_eq_filter] at hsel
  subst hsel hS
  refine ⟨fun ⟨d, hd, h0⟩ hsing => ?_, fun I hI => ?_⟩
  · have hm : s.missing 0 c.k.toNat ≠ [] := fun h => State.missing_data_eq_nil.1 h d hd h0
    have hselected : matInvert s.rom (selectedRows c (s.selected c)) = .error .singularMatrix := hsing
    rw [exec_decode, hs.decodeBody hc, recoverData_of_missing hm, hselected]
    exact runLockingCommand_singular hf
  · have hsolves : s.Solves c I := hI.imp_left State.missing_data_eq_nil.2
    have hframe := s.rebuilt_writesOnlySlots c L I
    refine ⟨(s.rebuilt c L I).succeed, hs.exec_decode I hc hf hsolves, by rw [hframe.state]; rfl, fun i hi => hs.lenAt_rebuilt I hc hi,
      fun i hi => s.lenAt_rebuilt_other c L I fun h => ?_, fun d o hd h0 ho => hs.shByte_rebuilt_missing_data I hd h0 ho,
      fun i o hk hi h0 ho => hs.shByte_rebuilt_missing_parity I hc hk hi h0 ho, fun a ha => hframe.bytes a fun i o hfill ho => ?_⟩
    · obtain ⟨hlt, -⟩ := (State.decodeFills_iff hc).1 h
      omega
    · obtain ⟨hi, h0⟩ := (State.decodeFills_iff hc).1 hfill
      exact ha i o hi h0 ho

/-- A set whose shards all have the length L is one from which `DECODE` starts. -/
theorem State.fullSet.partialSet {s : State} {c : Coder} {L : Nat} (hs : s.fullSet c L) (hc : s.hasCoder c) : s.partialSet c L := by
  obtain ⟨hn, hlen, hpos, hmax, hlmax⟩ := hs
  obtain ⟨-, -, -, hsum, -⟩ := hc
  refine ⟨hn, fun i hi => .inr (hlen i hi), ?_, hpos, hmax, hlmax⟩
  have hcount := State.le_length_present_add (s := s) (n := c.n.toNat) (lost := []) fun i hi _ => by rw [hlen i hi]; omega
  rw [← State.present_eq_filter]
  rw [List.length_nil] at hcount
  omega

theorem State.partialSet.fullSet_rebuilt {s : State} {c : Coder} {L : Nat} (hs : s.partialSet c L) (hc : s.hasCoder c) (I : Mat) :
    (s.rebuilt c L I).fullSet c L := by
  have hlen := fun i (hi : i < c.n.toNat) => hs.lenAt_rebuilt I hc hi
  obtain ⟨hn, -, -, hpos, hmax, hlmax⟩ := hs
  have hframe := (s.rebuilt_writesOnlySlots c L I).state
  exact ⟨by rw [hframe]; exact hn, hlen, hpos, by rw [hframe]; exact hmax, by rw [hframe]; exact hlmax⟩

/-- Settles O52: after a success all N shards are present, so the second run rebuilds none. -/
theorem decodeIsIdempotent : Obligations.DecodeIsIdempotent := by
  intro s t hs h h0
  obtain ⟨hf, c, L, I, hc, hset, -, rfl⟩ := exec_decode_success hs h h0
  have hfull : (s.rebuilt c L I).succeed.fullSet c L := hset.fullSet_rebuilt hc I
  have hc' : (s.rebuilt c L I).succeed.hasCoder c := hc.rebuilt L I
  have hf' : (s.rebuilt c L I).succeed.fatal = false := by
    rw [(s.rebuilt_writesOnlySlots c L I).state]
    exact hf
  obtain ⟨-, hlen, hpos, -, -⟩ := id hfull
  have hcomplete : ∀ i < c.n.toNat, (s.rebuilt c L I).succeed.lenAt i ≠ 0 := fun i hi => by rw [hlen i hi]; omega
  have hsolves : (s.rebuilt c L I).succeed.Solves c I := .inl (State.missing_data_eq_nil.2 fun d hd => by
    obtain ⟨-, -, -, hsum, -⟩ := hc
    exact hcomplete d (by omega))
  rw [(hfull.partialSet hc').exec_decode I hc' hf' hsolves, State.rebuilt_of_complete hc' hcomplete]
  rfl

end Sys2Proof.Machine
end

section
/-! SUPPORT. Settles 43_coder.md: at least K shards of a code word determine it, and `DECODE` restores it (R231 (1)). The rows of `CM` that
the present shards select have an inverse (42_builder.md R192 (3)), and that inverse times the selected bytes is the data. -/

namespace Sys2Proof.Machine

/-- The present shards of s are, below the length L, those of the code word of the data bytes d. -/
def State.HoldsCodeWord (s : State) (c : Coder) (L : Nat) (d : Nat → Nat → Byte) : Prop :=
  ∀ i o, i < c.n.toNat → s.lenAt i ≠ 0 → o < L → s.shByte i o = codeByte s.rom c d i o

section Selection

variable {s : State} {c : Coder} {L : Nat} (hset : s.partialSet c L)

theorem State.mem_selected {i : Nat} (h : i ∈ s.selected c) : i < c.n.toNat ∧ s.lenAt i ≠ 0 :=
  State.mem_present.1 (List.mem_of_mem_take h)

include hset

theorem State.partialSet.length_selected : (s.selected c).length = c.k.toNat := by
  obtain ⟨-, -, hk, -⟩ := hset
  rw [← State.present_eq_filter] at hk
  exact List.length_take_of_le hk

theorem State.partialSet.getD_selected_mem {j : Nat} (hj : j < c.k.toNat) : (s.selected c).getD j 0 ∈ s.selected c := by
  have hlt : j < (s.selected c).length := hset.length_selected.symm ▸ hj
  rw [List.getD_eq_getElem _ _ hlt]
  exact List.getElem_mem hlt

/-- The selected rows of a coder that `CONFIG` built have an inverse, and the inversion answers it. -/
theorem State.partialSet.exists_solves (hs : s.Inv) (hc : s.coder = some c) :
    ∃ I, s.Solves c I ∧ IsInverse (Tables.ofCfg s.cfg) (selectedRows c (s.selected c)) I := by
  obtain ⟨-, -, -, hsum, hbuilt⟩ := hs.coderOk c hc
  rw [hs.romOk] at hbuilt
  have hnodup : (s.selected c).Nodup := (s.nodup_present _).sublist (List.take_sublist _ _)
  obtain ⟨I, hI⟩ := anyRowsOfTheBuiltMatrixInvert s.cfg _ _ c.cm (s.selected c) hs.cfgOk hbuilt hset.length_selected hnodup
    fun r hr => hsum ▸ (State.mem_selected hr).1
  exact ⟨I, .inr (hs.romOk ▸ hI), (matInvert_eq_ok_iff hs.cfgOk rfl).1 hI⟩

/-- The selected bytes are the selected rows times the data bytes, so the inverse gives the data bytes back. -/
theorem State.partialSet.dataByte_eq (hs : s.Inv) {d : Nat → Nat → Byte} (hd : s.HoldsCodeWord c L d) {I : Mat}
    (hI : IsInverse (Tables.ofCfg s.cfg) (selectedRows c (s.selected c)) I) {i o : Nat} (hi : i < c.k.toNat) (ho : o < L) :
    s.dataByte c.k.toNat I (s.selected c) i o = d i o := by
  rw [State.dataByte, hs.romOk]
  refine hI.solve hs.cfgOk (n := c.k.toNat) rfl rfl (x := fun j => d j o) (fun j hj => ?_) hi
  obtain ⟨hn, h0⟩ := State.mem_selected (hset.getD_selected_mem hj)
  rw [hd _ o hn h0 ho, codeByte, hs.romOk]
  exact xorSum_congr fun x hx => by rw [selectedRows, Mat.at_ofFn _ hj hx]

/-- The rebuilt set is the whole code word: first its data shards, present or rebuilt, then the parity of these. -/
theorem State.partialSet.shByte_rebuilt_of_codeWord (hs : s.Inv) (hc : s.coder = some c) {d : Nat → Nat → Byte}
    (hd : s.HoldsCodeWord c L d) {I : Mat} (hI : IsInverse (Tables.ofCfg s.cfg) (selectedRows c (s.selected c)) I) {i o : Nat}
    (hi : i < c.n.toNat) (ho : o < L) : (s.rebuilt c L I).shByte i o = codeByte s.rom c d i o := by
  have hcoder := hs.hasCoder hc
  obtain ⟨-, -, -, hsum, -⟩ := id hcoder
  have hsystematic : ∀ j < c.k.toNat, codeByte s.rom c d j o = d j o := fun j hj => by
    have hOk := hs.coderOk c hc
    rw [hs.romOk] at hOk ⊢
    exact codeByte_data hs.cfgOk hOk d hj o
  have hdata : ∀ j < c.k.toNat, (s.rebuilt c L I).shByte j o = d j o := fun j hj => by
    by_cases h0 : s.lenAt j = 0
    · rw [hset.shByte_rebuilt_missing_data I hj h0 ho, hset.dataByte_eq hs hd hI hj ho]
    · rw [hset.shByte_rebuilt_present I h0 ho, hd j o (by omega) h0 ho, hsystematic j hj]
  by_cases hk : i < c.k.toNat
  · rw [hdata i hk, hsystematic i hk]
  by_cases h0 : s.lenAt i = 0
  · rw [hset.shByte_rebuilt_missing_parity I hcoder (Nat.le_of_not_lt hk) hi h0 ho]
    exact xorSum_congr fun j hj => by rw [hdata j hj]
  · rw [hset.shByte_rebuilt_present I h0 ho, hd i o hi h0 ho]

end Selection

/-- Settles O49: the inversion of the selected rows answers, and the rebuilt set is the code word. -/
theorem decodeCompletesACodeWord : Obligations.DecodeCompletesACodeWord := by
  intro s c L d hs hf hc hset hd
  have hcoder := hs.hasCoder hc
  obtain ⟨I, hsolves, hI⟩ := hset.exists_solves hs hc
  refine ⟨(s.rebuilt c L I).succeed, hset.exec_decode I hcoder hf hsolves, rfl, ?_, fun i hi => ⟨hset.lenAt_rebuilt I hcoder hi,
    fun o ho => hset.shByte_rebuilt_of_codeWord hs hc hd hI hi ho⟩⟩
  rw [(s.rebuilt_writesOnlySlots c L I).state]
  exact hf

/-- Settles O50: encoding leaves a code word, and the shards that are not lost are at least K of it. -/
theorem encodeEraseDecodeRoundTrip : Obligations.EncodeEraseDecodeRoundTrip := by
  intro s e u c L lost hs hf hc hset he _ hm _ hu huf hcfg hcoder hn hlen hbytes
  obtain ⟨-, hword⟩ := encodeLeavesACodeWord s e c L hs hf hc hset he
  rw [hset.exec_encode (hs.hasCoder hc) hf] at he
  cases he
  obtain ⟨-, -, -, hsum, -⟩ := hs.hasCoder hc
  obtain ⟨hcount, hfull, hpos, hmax, hlmax⟩ := hset
  have hrom : u.rom = s.rom := by rw [hu.romOk, hs.romOk, hcfg]; rfl
  have hulen : ∀ i < c.n.toNat, u.lenAt i = if i ∈ lost then 0 else L := fun i hi =>
    (hlen i hi).trans (congrArg (fun x => if i ∈ lost then 0 else x) (hfull i hi))
  have hkept : ∀ i < c.n.toNat, i ∉ lost → u.lenAt i ≠ 0 := fun i hi hl => by
    rw [hulen i hi, if_neg hl]
    omega
  have hupset : u.partialSet c L := by
    refine ⟨hn ▸ hcount, fun i hi => ?_, ?_, hpos, hcfg ▸ hmax, hcfg ▸ hlmax⟩
    · rw [hulen i hi]
      exact ite_eq_or_eq _ _ _
    · have hle := State.le_length_present_add hkept
      rw [← State.present_eq_filter]
      omega
  have huword : u.HoldsCodeWord c L s.shByte := fun i o hi h0 ho => by
    have hl : i ∉ lost := fun hl => h0 ((hulen i hi).trans (if_pos hl))
    rw [hbytes i o hi hl ho, hword i o hi ho, hrom]
  obtain ⟨t, ht, herr, -, hall⟩ := decodeCompletesACodeWord u c L s.shByte hu huf (hcoder.trans hc) hupset huword
  refine ⟨t, ht, herr, fun i hi => ?_⟩
  obtain ⟨htlen, htbytes⟩ := hall i hi
  exact ⟨htlen, fun o ho => by rw [htbytes o ho, hword i o hi ho, hrom]⟩

end Sys2Proof.Machine
end

section
/-! SUPPORT. Settles 60_exceptions.md: `FATAL` is unreachable with well-formed parameters (R268). Only the inversion in `DECODE` sets it,
and the rows of `CM` that the inversion is given always have an inverse (42_builder.md R192 (3)). -/

namespace Sys2Proof.Machine

/-! ### The one source of `SingularMatrix` in `DECODE` -/

/-- A bind whose first part does not raise e raises e in its second. -/
theorem bind_raises {α β : Type} {x : Except Err α} {f : α → Except Err β} {e : Err} (hx : x ≠ .error e) (h : x >>= f = .error e) :
    ∃ a, x = .ok a ∧ f a = .error e := by
  cases x with
  | error e' => cases h; exact absurd rfl hx
  | ok a => exact ⟨a, rfl, h⟩

/-- A bind whose second part cannot fail raises what its first part raises. -/
theorem bind_ok_raises {α β : Type} {x : Except Err α} {g : α → β} {e : Err} (h : (x >>= fun a => .ok (g a)) = .error e) : x = .error e := by
  cases x with
  | error e' => cases h; rfl
  | ok a => cases h

theorem raiseIf_ne_error {b : Bool} {e e' : Err} (he : e ≠ e') : raiseIf b e ≠ .error e' := by
  cases b with
  | true => exact fun h => he (Except.error.inj h)
  | false => exact nofun

theorem State.checkCount_ne_singularMatrix (s : State) (n : Nat) : s.checkCount n ≠ .error .singularMatrix := by
  unfold State.checkCount
  split_ifs <;> exact nofun

/-- The data phase fails only where the inversion of the selected rows does. -/
theorem recoverData_error {s : State} {c : Coder} {L : Nat} {e : Err} (h : recoverData s c L (BitVec.ofNat 32 L) = .error e) :
    matInvert s.rom (selectedRows c (s.selected c)) = .error e := by
  by_cases hm : s.missing 0 c.k.toNat = []
  · rw [(show s.Solves c (matIdentity 0) from .inl hm).recoverData L] at h
    cases h
  · rw [recoverData_of_missing hm] at h
    exact bind_ok_raises h

/-- `DECODE` raises `SingularMatrix` only with at least K shards present and from the inversion of the selected rows (43_coder.md R230). -/
theorem decodeBody_singularMatrix {s : State} (h : decodeBody s = .error .singularMatrix) :
    ∃ c, s.coder = some c ∧ c.k.toNat ≤ (s.present c.n.toNat).length ∧
      matInvert s.rom (selectedRows c (s.selected c)) = .error .singularMatrix := by
  cases hc : s.coder with
  | none => rw [decodeBody, State.needCoder_of_none hc] at h; cases h
  | some c =>
    rw [decodeBody_of_coder hc] at h
    obtain ⟨_, -, h⟩ := bind_raises (s.checkCount_ne_singularMatrix _) h
    obtain ⟨_, hk, h⟩ := bind_raises (raiseIf_ne_error (by decide)) h
    obtain ⟨_, -, h⟩ := bind_raises (raiseIf_ne_error (by decide)) h
    obtain ⟨_, -, h⟩ := bind_raises (raiseIf_ne_error (by decide)) h
    exact ⟨c, rfl, Nat.not_lt.1 (of_decide_eq_false (raiseIf_ok hk)), recoverData_error (bind_ok_raises h)⟩

/-- While the invariant holds the selected rows are K distinct rows of a built matrix, so `DECODE` never raises `SingularMatrix`. -/
theorem decodeBody_ne_singularMatrix {s : State} (hs : s.InvRunning) : decodeBody s ≠ .error .singularMatrix := by
  intro h
  obtain ⟨c, hc, hk, hsing⟩ := decodeBody_singularMatrix h
  have hrom : s.rom = Tables.ofCfg s.cfg := hs.romOk
  obtain ⟨-, -, -, hsum, hbuilt⟩ : c.Ok s.rom s.cfg.point := hs.coderOk c hc
  rw [hrom] at hsing hbuilt
  have hnodup : (s.selected c).Nodup := (s.nodup_present _).sublist (List.take_sublist _ _)
  have hrows : ∀ r ∈ s.selected c, r < c.k.toNat + c.m.toNat := fun r hr => hsum ▸ (State.mem_selected hr).1
  obtain ⟨I, hI⟩ := anyRowsOfTheBuiltMatrixInvert s.cfg _ _ c.cm _ hs.cfgOk hbuilt (List.length_take_of_le hk) hnodup hrows
  cases hI.symm.trans hsing

/-! ### `FATAL` over commands, host operations and steps -/

/-- No rule of a command writes `FATAL`: it is set by the completion of `DECODE` (60_exceptions.md R262). -/
theorem CommandWrites.fatal {i : Instr} {s u : State} (h : CommandWrites i s u) : u.fatal = s.fatal := by
  cases i with
  | nop => cases h; rfl
  | gfadd | gfmul | gfdiv | gfinv | gfpow | missq => obtain ⟨v, -, rfl⟩ := h; rfl
  | mnew | mident | mmul | msub | maug | minv | mbuild => obtain ⟨X, -, -, -, rfl⟩ := h; rfl
  | config => obtain ⟨-, c, -, rfl⟩ := h; rfl
  | encode => obtain ⟨hu, -⟩ := encodeBody_frame h; rw [hu]
  | decode => obtain ⟨c, -, hu⟩ := decodeBody_writesOnlySlots h; rw [hu.state]

theorem exec_keeps_fatal {i : Instr} {s t : State} (hs : s.InvRunning) (h : exec i s = .next t) : t.fatal = s.fatal := by
  obtain ⟨e, rfl⟩ | ⟨-, -, hsing, -⟩ | ⟨-, u, hu, rfl⟩ := exec_cases h
  · rfl
  · exact absurd hsing (decodeBody_ne_singularMatrix hs)
  · exact hu.fatal

theorem startCommand_keeps_fatal {s t : State} {w : Word} (hs : s.Inv) (h : startCommand s w = .next t) : t.fatal = s.fatal := by
  obtain ⟨e, rfl⟩ | ⟨i, -, hi⟩ := startCommand_cases h
  · rfl
  · exact exec_keeps_fatal (s := s.accept w) (hs.accept w) hi

/-- While the invariant holds no host operation sets `FATAL`. -/
theorem HostWrites.unlocked {op : HostOp} {s t : State} (hs : s.Inv) (hf : s.fatal = false) (h : HostWrites op s t) : t.fatal = false := by
  cases op with
  | readReg | readExp => obtain ⟨v, -, rfl⟩ := h; exact hf
  | writeReg n v =>
    obtain ⟨-, h⟩ | ⟨-, h⟩ := h
    · exact (startCommand_keeps_fatal hs h).trans hf
    · rw [State.writeReg_frame h]; exact hf
  | readShard | writeShard => obtain ⟨-, rfl⟩ := h; exact hf
  | readMat => obtain ⟨id, A, -, -, -, rfl⟩ := h; exact hf
  | writeMat => obtain ⟨d, -, -, rfl⟩ := h; exact hf
  | readLog => obtain ⟨-, v, -, rfl⟩ := h; exact hf
  | reset => cases h; rfl

theorem State.good_iff {s : State} : s.good = true ↔ s.fatal = false := (Bool.not_eq_true' s.fatal).to_iff

theorem step_keeps_good {s t : State} (hs : s.Inv) (hg : s.good = true) (h : step s = .next t) : t.good = true := by
  obtain ⟨-, rfl⟩ | ⟨op, rest, -, hw, -⟩ := step_cases h
  · exact hg
  · exact State.good_iff.2 (hw.unlocked (hs.withHost rest) (State.good_iff.1 hg))

/-- What every step of a machine keeps holds at the end of each of its runs. -/
theorem run_keeps {M : Host.Core} {P : M.State → Prop} (hstep : ∀ s t, P s → M.step s = .next t → P t) {n : Nat} {s t : M.State}
    (hs : P s) (h : M.run n s = .next t) : P t := by
  induction n generalizing s with
  | zero => cases h; exact hs
  | succ n ih =>
    rw [Host.Core.run] at h
    split at h
    · next s' hs' => exact ih (hstep _ _ hs hs') h
    · cases h
    · cases h

/-- Settles O18: the invariant and `FATAL = 0` together are kept by every step, so by every run. -/
theorem fatalIsUnreachable : Obligations.FatalIsUnreachable := by
  intro s hs hg n t h
  refine run_keeps (M := Sys2Proof.core) (P := fun u => u.Inv ∧ u.good = true) (fun u v hu huv => ?_) ⟨hs, hg⟩ h
  obtain ⟨hinv, hgood⟩ := hu
  exact ⟨stepKeepsTheInvariant u v hinv huv, step_keeps_good hinv hgood huv⟩

end Sys2Proof.Machine
end

section
/-! SUPPORT. Settles 60_exceptions.md: the error completions (R262, R264, R266) and what the fatal lock answers (R268). -/

namespace Sys2Proof.Machine

/-! ### The start of a command -/

theorem startCommand_of_error {w : Word} {e : DecodeError} (h : Sys2Proof.decode w = .error e) (s : State) :
    startCommand s w = illegalCommand (s.accept w) := by
  rw [startCommand, h]

/-- Under the fatal lock every command completes with `BadState` (R268). -/
theorem exec_locked {s : State} (hf : s.fatal = true) (i : Instr) : exec i s = .next (s.fail .badState) := by
  cases i with
  | decode => exact runLockingCommand_fatal hf _
  | _ => exact runCommand_fatal hf _

/-- A word of R96 is rejected by the decoder, and without the lock the rejection is an error completion of the accepted word (R264). -/
theorem startCommand_illegalWord (s : State) {w : Word} (hf : s.fatal = false) (hw : IllegalWord w) :
    startCommand s w = .next ((s.accept w).fail .illegalCommand) := by
  obtain ⟨hrejected, -⟩ := rejectedWordsAreTheIllegalOnes w
  obtain ⟨e, he⟩ := hrejected.2 hw
  rw [startCommand_of_error he]
  exact runCommand_ready (s := s.accept w) hf _

/-- Under the fatal lock a word is accepted and completes with `BadState`, whether the decoder accepts it or not (R268). -/
theorem startCommand_locked (s : State) (w : Word) (hf : s.fatal = true) : startCommand s w = .next ((s.accept w).fail .badState) := by
  cases hw : Sys2Proof.decode w with
  | ok i => rw [startCommand_of_ok hw]; exact exec_locked (s := s.accept w) hf i
  | error e => rw [startCommand_of_error hw]; exact runCommand_fatal (s := s.accept w) hf _

/-- A host write to `CMD` whose word fails leaves the word and the code, and `BUSY` as it was, 0. -/
theorem step_writeCmd_fail {s : State} {w : Word} {rest : List HostOp} {e : Err} (hb : s.busy = false)
    (hn : s.next (.writeReg 0 w) rest) (h : startCommand { s with host := rest } w = .next (({ s with host := rest }.accept w).fail e)) :
    step s = .next { s with host := rest, cmd := w, err := e.code } := by
  rw [step_writeCmd hb hn, h, hb]
  rfl

/-- Settles O7: an illegal word is accepted and fails with `IllegalCommand`. -/
theorem illegalWordCompletes : Obligations.IllegalWordCompletes := fun _ _ _ hb hf hn hw =>
  step_writeCmd_fail hb hn (startCommand_illegalWord _ hf hw)

/-- Settles O8: the lock is tested before anything of the word or of the command. -/
theorem fatalLockRefusesEveryWord : Obligations.FatalLockRefusesEveryWord := fun _ _ _ hb hf hn =>
  step_writeCmd_fail hb hn (startCommand_locked _ _ hf)

/-! ### Error completions -/

/-- Settles O9: of the three ways a command can end only the successful one changes more, and it leaves `ERR = 0`. -/
theorem errorCompletionChangesNothingElse : Obligations.ErrorCompletionChangesNothingElse := by
  intro i s t h
  obtain ⟨e, rfl⟩ | ⟨-, hi, -, rfl⟩ | ⟨-, u, -, rfl⟩ := exec_cases h
  · exact ⟨rfl, fun _ => .inl rfl⟩
  · exact ⟨rfl, fun _ => .inr ⟨hi, rfl⟩⟩
  · exact ⟨rfl, fun h0 => absurd rfl h0⟩

/-- Settles O11: each of the five commands reads its sources before any check of its own. -/
theorem unconfiguredSourceIsBadState : Obligations.UnconfiguredSourceIsBadState := by
  intro s md id hf hc hid i hi
  have hmmul := fun ma mb => (mmulIsTheProduct.2 s md ma mb hf).1 hc
  have hmaug := fun ma mb => (maugConcatenates.2 s md ma mb hf).1 hc
  simp only [List.mem_cons, List.not_mem_nil, or_false] at hi
  obtain rfl | rfl | rfl | rfl | rfl | rfl | rfl := hi
  · exact hmmul 4 id le_rfl hid (.inl rfl)
  · exact hmmul id 4 hid le_rfl (.inr rfl)
  · exact hmaug 4 id le_rfl hid (.inl rfl)
  · exact hmaug id 4 hid le_rfl (.inr rfl)
  · exact (msubExtractsTheRange.2 s md 4 hf).1 hc rfl
  · exact (minvLeavesTheInverse.2 s md 4 hf).1 hc rfl
  · exact (missqTestsSquareness.2 s 4 hf).1 hc rfl

end Sys2Proof.Machine
end

section
/-! SUPPORT. Settles 70_reset_and_hazards.md: reset in any state (R290), what only reset clears (R290, 10_state.md R34), and what the
host may do while `BUSY = 1` (R296). -/

namespace Sys2Proof.Machine

/-- A step performs the next host operation, taken from the host's list, in whatever state. -/
theorem step_of_next {s : State} {op : HostOp} {rest : List HostOp} (h : s.next op rest) :
    step s = hostStep op { s with host := rest } := by
  have hhost : s.host = op :: rest := h
  rw [step, runNext, hhost]

/-- Settles O13: reset asks for no condition on the state. -/
theorem resetFromAnyState : Obligations.ResetFromAnyState := fun _ _ h => step_of_next h

/-! ### `BUSY = 1` -/

theorem whenIdle_busy {s : State} (h : s.busy = true) (r : Outcome) : whenIdle s r = .refused .hostWhileBusy := by
  rw [whenIdle, if_pos h]

/-- A read of `STATUS` needs no idle state (20_memory.md R63). -/
theorem hostStep_readStatus (s : State) : hostStep (.readReg 1) s = .next (s.reply (.reg s.status)) := rfl

/-- While `BUSY = 1` every operation but a read of `STATUS` and reset is refused (R296). -/
theorem hostStep_busy {s : State} {op : HostOp} (h : s.busy = true) (hstatus : op ≠ .readReg 1) (hreset : op ≠ .reset) :
    hostStep op s = .refused .hostWhileBusy := by
  cases op with
  | readReg n =>
    have hn : n ≠ 1 := fun hn => hstatus (congrArg _ hn)
    exact (if_neg hn).trans (whenIdle_busy h _)
  | writeReg | readShard | writeShard | readMat | writeMat | readLog | readExp => exact whenIdle_busy h _
  | reset => exact absurd rfl hreset

/-- Settles O60: the test of `BUSY` stands before every operation but the two. -/
theorem busyAdmitsOnlyStatus : Obligations.BusyAdmitsOnlyStatus := by
  intro s op rest hb hn
  refine ⟨fun hop => ?_, fun hstatus hreset => (step_of_next hn).trans (hostStep_busy hb hstatus hreset)⟩
  subst hop
  exact (step_of_next hn).trans (hostStep_readStatus _)

/-! ### What only reset clears -/

/-- The fatal lock of s is kept in t, and so is a configured coder: K, M, N and `CM` (10_state.md R34, 43_coder.md R211). -/
def KeepsLockAndCoder (s t : State) : Prop := (s.fatal = true → t.fatal = true) ∧ ∀ c, s.coder = some c → t.coder = some c

theorem KeepsLockAndCoder.refl (s : State) : KeepsLockAndCoder s s := ⟨id, fun _ => id⟩

/-- `CONFIG` writes the coder only where there is none (43_coder.md R210), and no other rule of a command writes it. -/
theorem CommandWrites.keeps_coder {i : Instr} {s u : State} {c : Coder} (h : CommandWrites i s u) (hc : s.coder = some c) : u.coder = some c := by
  cases i with
  | nop => cases h; exact hc
  | gfadd | gfmul | gfdiv | gfinv | gfpow | missq => obtain ⟨v, -, rfl⟩ := h; exact hc
  | mnew | mident | mmul | msub | maug | minv | mbuild => obtain ⟨X, -, -, -, rfl⟩ := h; exact hc
  | config => obtain ⟨hnone, -⟩ := h; cases hnone.symm.trans hc
  | encode => obtain ⟨hu, -⟩ := encodeBody_frame h; rw [hu]; exact hc
  | decode => obtain ⟨d, -, hu⟩ := decodeBody_writesOnlySlots h; rw [hu.state]; exact hc

/-- No command unlocks or unconfigures: of its three ways to end one sets `FATAL` and none clears it. -/
theorem exec_keepsLockAndCoder {i : Instr} {s t : State} (h : exec i s = .next t) : KeepsLockAndCoder s t := by
  obtain ⟨e, rfl⟩ | ⟨-, -, -, rfl⟩ | ⟨-, u, hu, rfl⟩ := exec_cases h
  · exact .refl s
  · exact ⟨fun _ => rfl, fun _ => id⟩
  · exact ⟨hu.fatal.trans, fun _ => hu.keeps_coder⟩

theorem startCommand_keepsLockAndCoder {s t : State} {w : Word} (h : startCommand s w = .next t) : KeepsLockAndCoder s t := by
  obtain ⟨e, rfl⟩ | ⟨i, -, hi⟩ := startCommand_cases h
  · exact .refl s
  · exact exec_keepsLockAndCoder (s := s.accept w) hi

/-- A host operation other than reset writes `FATAL` or the coder only as the start of a command. -/
theorem HostWrites.keepsLockAndCoder {op : HostOp} {s t : State} (h : HostWrites op s t) (hop : op ≠ .reset) : KeepsLockAndCoder s t := by
  cases op with
  | readReg | readShard | readMat | readLog | readExp => obtain ⟨r, -, rfl⟩ := h.readGives trivial; exact .refl s
  | writeReg n v =>
    obtain ⟨-, h⟩ | ⟨-, h⟩ := h
    · exact startCommand_keepsLockAndCoder h
    · rw [State.writeReg_frame h]; exact .refl s
  | writeShard => obtain ⟨-, rfl⟩ := h; exact .refl s
  | writeMat => obtain ⟨d, -, -, rfl⟩ := h; exact .refl s
  | reset => exact absurd rfl hop

/-- Settles O14: a step keeps the state or performs a host operation, which is not reset. -/
theorem onlyResetUnlocksOrUnconfigures : Obligations.OnlyResetUnlocksOrUnconfigures := by
  intro s t h hreset
  obtain ⟨-, rfl⟩ | ⟨op, rest, hhost, hw, -⟩ := step_cases h
  · exact KeepsLockAndCoder.refl t
  · have hop : op ≠ .reset := fun hop => hreset rest (hop ▸ hhost)
    exact hw.keepsLockAndCoder hop

end Sys2Proof.Machine
end
